-- ==== Sys2Proof/Word.lean ====
section
/-! DEFINITION. The widths of RLPE: one byte, the 16-bit field, the 32-bit host register (R7, R9). -/

namespace Sys2Proof

/-- One byte of the Packet Buffer or of a frame (R9, R70). -/
abbrev Byte := BitVec 8

/-- A 16-bit unsigned field: window field, raw sample, cursor (R7, R21). -/
abbrev Half := BitVec 16

/-- A host register or command word (R7, R20). -/
abbrev Word := BitVec 32

end Sys2Proof
end

