-- ==== Sys2Proof/Syntax.lean ====
section
/-! DEFINITION. The commands of the opcode table, the host's register names and accesses, and the two sides of
the transport boundary: the environment's answers and the calls the block makes. -/

namespace Sys2Proof

/-- The twelve commands of R103, one constructor per row of the opcode table, in the table's order. Only `CSET`
reads the operand field `A` and only `CCRC` reads `B`; every other command ignores both (R101), so the ignored
fields are no part of the instruction. -/
inductive Instr where
  /-- `NOP` (R209). -/
  | nop
  /-- `OPEN` (R191). -/
  | open_
  /-- `CLOSE` (R207). -/
  | close
  /-- `START` (R203). -/
  | start
  /-- `STOP` (R204). -/
  | stop
  /-- `STEP` (R240). -/
  | step
  /-- `RESET` (R205). -/
  | reset
  /-- `RENEG` (R199). -/
  | reneg
  /-- `CFGWIN` (R201). -/
  | cfgwin
  /-- `CSET` with the byte `A` to write (R174). -/
  | cset (a : Byte)
  /-- `CGET` (R175). -/
  | cget
  /-- `CCRC` with the length `B` (R148). -/
  | ccrc (b : Half)
deriving DecidableEq, Repr

/-- The named registers `0x00` to `0x1A` of the register map R21. -/
inductive Reg where
  | cmd | status | err | esticky | baudCur | baudDes | pwLen | pw0 | pw1
  | winStart | winStop | winStep | winType | flags | dcount | idx
  | dist | dmin | dmax | resol | angStart | angStop
  | cur | rem | data | crcout | rxlen
deriving DecidableEq, Repr

/-- The host's three possible steps (R20, R300). -/
inductive HostOp where
  /-- `RegRead(n)`. -/
  | regRead (n : BitVec 8)
  /-- `RegWrite(n, v)`; with `n = 0x00` it executes the command word `v` (R23). -/
  | regWrite (n : BitVec 8) (v : Word)
  /-- The hardware reset `HRESET` (R300). -/
  | hreset
deriving DecidableEq, Repr

/-- A value the block passes to the transport unread (`DEVICE_ID`, `RX_TIMEOUT`: R6, U11). Only its name is held:
the block has no operation on it, and two values are told apart by their names alone. -/
structure OpaqueValue where
  name : Nat
deriving DecidableEq, Repr

/-- One answer of the environment to a transport call (R80). For `T_OPEN` and `T_SEND` only `fail` against `ok`
counts and the bytes are unused; for `T_RECV` the bytes are what arrived. -/
inductive Answer where
  | fail
  | ok (bs : List Byte)
deriving DecidableEq, Repr, Inhabited

/-- One transport call with its arguments and outcome, an entry of the transport trace (R11, R80, R116). -/
inductive Call where
  /-- `T_OPEN(id, r)`: the device, the rate in bit/s, and whether it returned `ok`. -/
  | tOpen (id : OpaqueValue) (rate : Nat) (ok : Bool)
  /-- `T_CLOSE()`: always completes. -/
  | tClose
  /-- `T_SEND(bs)`: the whole frame, and whether it returned `ok`. -/
  | tSend (bs : List Byte) (ok : Bool)
  /-- `T_RECV(maxLen, t)`: `none` is `fail`, `some bs` is `ok(bs)`. -/
  | tRecv (maxLen : Nat) (timeout : OpaqueValue) (answer : Option (List Byte))
deriving DecidableEq, Repr

end Sys2Proof
end

