-- ==== Sys2Proof/Config.lean ====
section
/-! DEFINITION. The configuration record `Cfg` of R6, its reference instance `CFG_REF`, and the free values: what
the spec leaves to the environment or calls unspecified. -/

namespace Sys2Proof

/-- The configuration record of R6: every parameter of the block. `hdrTx`, `hdrRx` and the type codes are wire
bytes; lengths and scale factors are naturals, as the table types them. -/
structure Cfg where
  /-- `PB_CAP`: bytes of the Packet Buffer. -/
  pbCap : Nat
  /-- `HDR_LEN`: bytes of a frame's header. -/
  hdrLen : Nat
  /-- `HDR_TX`: the header of transmit frames. -/
  hdrTx : List Byte
  /-- `HDR_RX`: the header a received frame must carry. -/
  hdrRx : List Byte
  /-- `TC_PROBE`. -/
  tcProbe : Byte
  /-- `TC_PASSWD`. -/
  tcPasswd : Byte
  /-- `TC_BAUD`. -/
  tcBaud : Byte
  /-- `TC_WINDOW`. -/
  tcWindow : Byte
  /-- `TC_START`. -/
  tcStart : Byte
  /-- `TC_STOP`. -/
  tcStop : Byte
  /-- `TC_RESET`. -/
  tcReset : Byte
  /-- `TC_POLL`. -/
  tcPoll : Byte
  /-- `TR_ACK`. -/
  trAck : Byte
  /-- `TR_SCAN`. -/
  trScan : Byte
  /-- `CRC_POLY`. -/
  crcPoly : Byte
  /-- `CRC_INIT`. -/
  crcInit : Byte
  /-- `CRC_XOROUT`. -/
  crcXorout : Byte
  /-- `PW_LEN_REQ`: the password length `OPEN` requires (R192). -/
  pwLenReq : Nat
  /-- `POLLING`: whether `STEP` sends a POLL frame first. -/
  polling : Bool
  /-- `RX_TIMEOUT`: passed to `T_RECV` unread. -/
  rxTimeout : OpaqueValue
  /-- `DEVICE_ID`: passed to `T_OPEN` unread. -/
  deviceId : OpaqueValue
  /-- `INIT_BAUD`: the baud code both baud registers hold after `HRESET`. -/
  initBaud : BitVec 3
  /-- `SCALE_NUM`. -/
  scaleNum : Nat
  /-- `RANGE_MIN`. -/
  rangeMin : Word
  /-- `RANGE_MAX`. -/
  rangeMax : Word
  /-- `ANGLE_LSB`. -/
  angleLsb : Nat
  /-- `ANGLE_ORIGIN`, a 32-bit two's complement pattern. -/
  angleOrigin : Word
deriving DecidableEq, Repr

/-- `CFG_REF`, the `CFG_REF` column of R6. The two opaque values are the names 0 and 1 (log entry 2). -/
def Cfg.ref : Cfg where
  pbCap := 64
  hdrLen := 2
  hdrTx := [0x02, 0x01]
  hdrRx := [0x02, 0x81]
  tcProbe := 0x01
  tcPasswd := 0x02
  tcBaud := 0x03
  tcWindow := 0x04
  tcStart := 0x05
  tcStop := 0x06
  tcReset := 0x07
  tcPoll := 0x08
  trAck := 0x10
  trScan := 0x20
  crcPoly := 0x07
  crcInit := 0x00
  crcXorout := 0x00
  pwLenReq := 8
  polling := false
  rxTimeout := ⟨0⟩
  deviceId := ⟨1⟩
  initBaud := 4
  scaleNum := 1
  rangeMin := 0
  rangeMax := 65535
  angleLsb := 1
  angleOrigin := 0

namespace Config

/-- FREE VALUE. The environment's answer number `k` beyond those listed in the state (R81: any outcome the table
of R80 allows may occur at any call). Log entry 5. -/
opaque envAnswer : Nat → Answer

/-- FREE VALUE. What Packet Buffer byte `a` holds before anything has written it since `HRESET` number `k`
(R52, U2: any value). Log entry 6. -/
opaque pbUnwritten (k a : Nat) : Byte

/-- FREE VALUE. What `RAW[i]` holds before any scan has written it since `HRESET` number `k` (R52, U3: any
value). Log entry 7. -/
opaque rawUnwritten (k i : Nat) : Half

end Config

end Sys2Proof
end

