-- ==== Sys2Proof/WellFormed.lean ====
section
/-! DEFINITION. Which configurations the spec admits (the constraint column of R6, with R146 and R147), and which
instructions are well formed. -/

namespace Sys2Proof

/-- The eight transmit type codes, in the order of R108. -/
def Cfg.typeCodes (c : Cfg) : List Byte :=
  [c.tcProbe, c.tcPasswd, c.tcBaud, c.tcWindow, c.tcStart, c.tcStop, c.tcReset, c.tcPoll]

/-- `HDR_LEN + 10 <= PB_CAP <= 65535`, so that the largest transmit frame fits the buffer. -/
def Cfg.capOk (c : Cfg) : Bool := decide (c.hdrLen + 10 ≤ c.pbCap) && decide (c.pbCap ≤ 65535)

/-- `HDR_LEN >= 1`, and both headers have that length. -/
def Cfg.hdrOk (c : Cfg) : Bool :=
  decide (1 ≤ c.hdrLen) && decide (c.hdrTx.length = c.hdrLen) && decide (c.hdrRx.length = c.hdrLen)

/-- The eight `TC_*` are pairwise distinct. -/
def Cfg.typesOk (c : Cfg) : Bool := decide c.typeCodes.Nodup

/-- `TR_ACK`, `TR_SCAN`, `TC_PASSWD` are pairwise distinct. -/
def Cfg.repliesOk (c : Cfg) : Bool := decide [c.trAck, c.trScan, c.tcPasswd].Nodup

/-- `CRC_POLY` has bit 0 set and is not `0x01` (R146, R147). -/
def Cfg.polyOk (c : Cfg) : Bool := c.crcPoly.getLsbD 0 && decide (c.crcPoly ≠ 0x01)

/-- `0 <= PW_LEN_REQ <= 8`. -/
def Cfg.pwOk (c : Cfg) : Bool := decide (c.pwLenReq ≤ 8)

/-- `1 <= SCALE_NUM <= 65535`. -/
def Cfg.scaleOk (c : Cfg) : Bool := decide (1 ≤ c.scaleNum) && decide (c.scaleNum ≤ 65535)

/-- `RANGE_MIN <= RANGE_MAX`, unsigned. -/
def Cfg.rangeOk (c : Cfg) : Bool := decide (c.rangeMin.toNat ≤ c.rangeMax.toNat)

/-- `1 <= ANGLE_LSB <= 65535`. -/
def Cfg.angleOk (c : Cfg) : Bool := decide (1 ≤ c.angleLsb) && decide (c.angleLsb ≤ 65535)

/-- The configuration is admissible: every constraint of R6 holds. -/
def Cfg.wf (c : Cfg) : Bool :=
  c.capOk && c.hdrOk && c.typesOk && c.repliesOk && c.polyOk && c.pwOk && c.scaleOk && c.rangeOk && c.angleOk

/-- Every term of `Instr` is well formed: the widths of `A` and `B` are in the types of the operands, and no
operand value of either width is reserved (R101, R103). -/
def Instr.wf : Instr → Bool
  | .nop | .open_ | .close | .start | .stop | .step | .reset | .reneg | .cfgwin | .cget => true
  | .cset _ => true
  | .ccrc _ => true

end Sys2Proof
end

