-- ==== Sys2Proof/Decode.lean ====
section
/-! DEFINITION. The command word `CMDW` (R100): its three fields, the total decoder of R102 over the opcode map
R103, the encoder, and the host's entry to the decoder. -/

namespace Sys2Proof

/-- Field `OPC = w[7:0]` (R100). -/
def opcField (w : Word) : BitVec 8 := w.extractLsb' 0 8

/-- Field `A = w[15:8]` (R100, R101). -/
def aField (w : Word) : Byte := w.extractLsb' 8 8

/-- Field `B = w[31:16]` (R100, R101). -/
def bField (w : Word) : Half := w.extractLsb' 16 16

/-- Why a command word is not an instruction. -/
inductive DecodeReject where
  /-- The opcode is not in R103 (R104: the command is illegal). Raised by `decode`; the step answers it with the
  PreconditionError of R104, so it stops nothing. -/
  | illegalOpcode (opc : BitVec 8)
deriving DecidableEq, Repr

/-- The decoder of R102: look `OPC` up in R103; read `A` for `CSET` and `B` for `CCRC`, and no other operand field
(R101). Total on every 32-bit word; an opcode outside R103 is rejected by name (R104). -/
def decode (w : Word) : Except DecodeReject Instr :=
  match (opcField w).toNat with
  | 0x00 => .ok .nop
  | 0x01 => .ok .open_
  | 0x02 => .ok .close
  | 0x03 => .ok .start
  | 0x04 => .ok .stop
  | 0x05 => .ok .step
  | 0x06 => .ok .reset
  | 0x07 => .ok .reneg
  | 0x08 => .ok .cfgwin
  | 0x10 => .ok (.cset (aField w))
  | 0x11 => .ok .cget
  | 0x12 => .ok (.ccrc (bField w))
  | _ => .error (.illegalOpcode (opcField w))

/-- The opcode of each command (R103). -/
def Instr.opcode : Instr → BitVec 8
  | .nop => 0x00
  | .open_ => 0x01
  | .close => 0x02
  | .start => 0x03
  | .stop => 0x04
  | .step => 0x05
  | .reset => 0x06
  | .reneg => 0x07
  | .cfgwin => 0x08
  | .cset _ => 0x10
  | .cget => 0x11
  | .ccrc _ => 0x12

/-- The operand field `A` an instruction is written with: `CSET`'s byte, else 0 (R115). -/
def Instr.fieldA : Instr → Byte
  | .cset a => a
  | _ => 0

/-- The operand field `B` an instruction is written with: `CCRC`'s length, else 0 (R115). -/
def Instr.fieldB : Instr → Half
  | .ccrc b => b
  | _ => 0

/-- The encoder: `B`, `A`, `OPC` from the top (R100), the fields a command ignores written as 0 (R115). -/
def encode (i : Instr) : Word := i.fieldB ++ i.fieldA ++ i.opcode

/-- The bits of a command word that a command reads: `OPC` always, `A` for `CSET`, `B` for `CCRC` (R101). -/
def Instr.readMask : Instr → Word
  | .cset _ => 0x0000FFFF
  | .ccrc _ => 0xFFFF00FF
  | _ => 0x000000FF

/-- The command word of an opcode-table row given as the number `w` of `nbits` bits; bits above are 0. The command
word is one 32-bit register write (R100): it has no byte order and no second word. -/
def tableWord (nbits w : Nat) : Word := BitVec.ofNat 32 (w % 2 ^ nbits)

/-- What the decoder reads from such a word, `none` where it rejects it. -/
def decodeTableWord (nbits w : Nat) : Option Instr :=
  match decode (tableWord nbits w) with
  | .ok i => some i
  | .error _ => none

end Sys2Proof
end

