-- ==== Sys2Proof/Machine/State.lean ====
section
/-! DEFINITION. The state of RLPE, as plain data: every register and bit of `10_state.md`, the Packet Buffer, the
raw samples, and (below a line of their own) the fields the MODEL needs for its inputs, outputs and free values. -/

namespace Sys2Proof.Machine

/-- The six lifecycle states of the register `STATE` (R25). Codes 6 and 7 are never held (R25, U9). -/
inductive Phase where
  | closed | opening | negotiating | authenticated | running | stopped
deriving DecidableEq, Repr

/-- The result codes 0 to 5 of the register `ERR` (R27, R270). Codes 6 and 7 are never held. -/
inductive ErrCode where
  | noError | transport | protocol | authentication | configuration | precondition
deriving DecidableEq, Repr

/-- Why a step stops with a fault: NEVER. Every host step of this block completes and every error is a code in
`ERR` (R83, R272, and part 1 of `93_implementation_defined.md`), so the type has no constructor. -/
inductive Fault where
deriving DecidableEq, Repr

/-- Why a step refuses an instruction. -/
inductive Refusal where
  /-- The instruction has no meaning in the model. Raised only by an arm of `exec` that names its mnemonic; no arm
  does. Safe: the model stops where the hardware goes on. -/
  | notModelled (mnemonic : String)
deriving DecidableEq, Repr

/-- Bytes by Packet Buffer index: index and byte, indices strictly rising, an unwritten index not listed. -/
abbrev Memory := List Host.Cell

/-- The state of the block. -/
structure State where
  /-- `STATE` (R25). -/
  phase : Phase
  /-- `TOPEN`: the block holds the transport (R26). -/
  topen : Bool
  /-- `ERR` (R27). -/
  err : ErrCode
  /-- `ESTICKY[5:0]`; bit 0 is never set (R28). -/
  esticky : BitVec 6
  /-- `SCAN_VALID` (R29). -/
  scanValid : Bool
  /-- `CFG_LOCK` (R30). -/
  cfgLock : Bool
  /-- `OVR` (R31). -/
  ovr : Bool
  /-- `BAUD_CUR` (R32). -/
  baudCur : BitVec 3
  /-- `BAUD_DES` (R34). -/
  baudDes : BitVec 3
  /-- `PW_LEN` (R35). -/
  pwLen : BitVec 4
  /-- `PW0` (R36). -/
  pw0 : Word
  /-- `PW1` (R36). -/
  pw1 : Word
  /-- `WIN_START` (R37). -/
  winStart : Half
  /-- `WIN_STOP` (R37). -/
  winStop : Half
  /-- `WIN_STEP` (R37). -/
  winStep : Half
  /-- `WIN_TYPE` (R37). -/
  winType : Half
  /-- `FLAGS[4:0]` (R39). -/
  flags : BitVec 5
  /-- `IDX` (R40). -/
  idx : Half
  /-- `RAW` (R41): the elements written since `HRESET`. Scans write from index 0 on, so those are the first ones;
  an element past the list has not been written. -/
  raw : List Half
  /-- `CUR` (R42). -/
  cur : Half
  /-- `REM` (R43). -/
  rem : Half
  /-- `DATA` (R44). -/
  data : Byte
  /-- `CRCOUT` (R45). -/
  crcout : Byte
  /-- `RXLEN` (R46). -/
  rxlen : Half
  /-- `TXLEN`, internal (R46). -/
  txlen : Half
  /-- `PB`, the Packet Buffer (R47): the bytes written since `HRESET`. -/
  pb : Memory
  /-- MODEL. The configuration the machine is built with (R6, R49). No step writes it. -/
  cfg : Cfg
  /-- MODEL, input. The host's accesses still to come, next first (R8, R20). -/
  hostq : List HostOp
  /-- MODEL, input. The environment's answers still to come, next first (R81). -/
  answers : List Answer
  /-- MODEL, free value. How many answers past the listed ones have been drawn. -/
  draws : Nat
  /-- MODEL, free value. How many times `HRESET` has been applied (R302: unspecified contents may differ each
  time). -/
  resets : Nat
  /-- MODEL, output. The transport trace, oldest call first (R11). -/
  trace : List Call
  /-- MODEL, output. What each `RegRead` returned, with its register number, oldest first (R20). -/
  reads : List (BitVec 8 × Word)
deriving DecidableEq, Repr

/-- The state right after `HRESET` of a block built with configuration `c`: the table of R52. `PB` and `RAW` have
nothing written; the host has asked for nothing and the environment has answered nothing yet. -/
def State.resetOf (c : Cfg) : State where
  phase := .closed
  topen := false
  err := .noError
  esticky := 0
  scanValid := false
  cfgLock := false
  ovr := false
  baudCur := c.initBaud
  baudDes := c.initBaud
  pwLen := 0
  pw0 := 0
  pw1 := 0
  winStart := 0
  winStop := 0
  winStep := 0
  winType := 0
  flags := 0
  idx := 0
  raw := []
  cur := 0
  rem := 0
  data := 0
  crcout := 0
  rxlen := 0
  txlen := 0
  pb := []
  cfg := c
  hostq := []
  answers := []
  draws := 0
  resets := 0
  trace := []
  reads := []

/-- The machine right after reset, built with the reference configuration `CFG_REF` (R6, R52; log entry 1). -/
def State.reset : State := State.resetOf Cfg.ref

end Sys2Proof.Machine
end

