-- ==== Sys2Proof/Machine/Memory.lean ====
section
/-! DEFINITION. The Packet Buffer as a list of cells: reading and writing bytes by index, and its canonical form. -/

namespace Sys2Proof.Machine

/-- The byte a cell list holds at index `a`; `none` where nothing has written it. -/
def Memory.read : Memory → Nat → Option Byte
  | [], _ => none
  | c :: m, a => if c.1 = a then some c.2 else Memory.read m a

/-- `PB[a] <- v` on a cell list: the cell is put at its place in the rising order. -/
def Memory.write : Memory → Nat → Byte → Memory
  | [], a, v => [(a, v)]
  | c :: m, a, v =>
    if a < c.1 then (a, v) :: c :: m
    else if a = c.1 then (a, v) :: m
    else c :: Memory.write m a v

/-- `PB[a + i] <- bs[i]` for each `i` in increasing order (R74, R167). -/
def Memory.writeList : Memory → Nat → List Byte → Memory
  | m, _, [] => m
  | m, a, b :: bs => Memory.writeList (Memory.write m a b) (a + 1) bs

/-- The canonical form: indices strictly rising. An unwritten index holds no value, so it is not listed and no
listed cell can equal it. -/
def Memory.wf (m : Memory) : Bool := decide (List.Pairwise (fun c d : Host.Cell => c.1 < d.1) m)

/-- Every listed index is inside a buffer of `cap` bytes (R70). -/
def Memory.within (m : Memory) (cap : Nat) : Bool := m.all fun c => decide (c.1 < cap)

/-- `PB[a]` (R70, `MemRead(a, 1)` of R10). A byte nothing has written since `HRESET` reads as the free value of U2:
it never faults. -/
def State.pbRead (s : State) (a : Nat) : Byte :=
  (Memory.read s.pb a).getD (Config.pbUnwritten s.resets a)

/-- `PB[a .. a+n-1]` in increasing index order. -/
def State.pbRange (s : State) : Nat → Nat → List Byte
  | _, 0 => []
  | a, n + 1 => s.pbRead a :: s.pbRange (a + 1) n

/-- `RAW[i]` (R41). An element no scan has written since `HRESET` is the free value of U3. -/
def State.rawRead (s : State) (i : Nat) : Half := s.raw.getD i (Config.rawUnwritten s.resets i)

/-- `RAW[k] <- w[k]` for every `k` below the number of words, the elements from there on kept (R41, R240). -/
def rawStore (old new : List Half) : List Half := new ++ old.drop new.length

end Sys2Proof.Machine
end

