-- ==== Sys2Proof/Machine/Operands.lean ====
section
/-! DEFINITION. The values commands and register reads compute from registers and `Cfg`: byte halves, baud rates,
password bytes, window validity and sample count, frame lengths and payloads, scaled distances and angles. -/

namespace Sys2Proof

/-- `N_MAX = (PB_CAP - HDR_LEN - 3) div 2` (R6). -/
def Cfg.nMax (c : Cfg) : Nat := (c.pbCap - c.hdrLen - 3) / 2

end Sys2Proof

namespace Sys2Proof.Machine

/-- `hi8(v) = v[15:8]` (R10). -/
def hi8 (v : Half) : Byte := v.extractLsb' 8 8

/-- `lo8(v) = v[7:0]` (R10). -/
def lo8 (v : Half) : Byte := v.extractLsb' 0 8

/-- A 16-bit field from its two bytes, most significant first: `h * 256 + l` (R72, R164). -/
def join16 (h l : Byte) : Half := h ++ l

/-- `rate(c)` in bit/s (R33). -/
def rate (c : BitVec 3) : Nat :=
  match c.toNat with
  | 0 => 4800
  | 1 => 9600
  | 2 => 19200
  | 3 => 38400
  | 4 => 57600
  | 5 => 115200
  | 6 => 345600
  | _ => 625000

/-- The eight baud codes in increasing order (R33). -/
def baudCodes : List (BitVec 3) := [0, 1, 2, 3, 4, 5, 6, 7]

/-- `PW[i]`: lane `i` of `PW0` for `i` below 4, lane `i - 4` of `PW1` above (R36). -/
def State.pwByte (s : State) (i : Nat) : Byte :=
  if i < 4 then s.pw0.extractLsb' (8 * i) 8 else s.pw1.extractLsb' (8 * (i - 4)) 8

/-- The password bytes that are sent: `PW[0] .. PW[PW_LEN-1]` (R36, R108). -/
def State.password (s : State) : List Byte := (List.range s.pwLen.toNat).map s.pwByte

/-- The number of indices `start, start + step, ...` not exceeding `stop`, for `step >= 1`, `stop >= start`. -/
def State.winCount (s : State) : Nat := (s.winStop.toNat - s.winStart.toNat) / s.winStep.toNat + 1

/-- `WIN_VALID` (R38). -/
def State.winValid (s : State) : Bool :=
  decide (1 ≤ s.winStep.toNat) && decide (s.winStart.toNat ≤ s.winStop.toNat)
    && decide (s.winCount ≤ s.cfg.nMax)

/-- `DCOUNT` (R38). -/
def State.dcount (s : State) : Nat := if s.winValid then s.winCount else 0

/-- The payload of the BAUD frame: the code zero-extended to a byte (R108, R111). -/
def baudPayload (c : BitVec 3) : List Byte := [c.setWidth 8]

/-- The payload of the WINDOW frame (R108, R200). -/
def State.windowPayload (s : State) : List Byte :=
  [hi8 s.winStart, lo8 s.winStart, hi8 s.winStop, lo8 s.winStop,
    hi8 s.winStep, lo8 s.winStep, hi8 s.winType, lo8 s.winType]

/-- The length of a frame with `n` payload bytes (R106). -/
def frameLen (c : Cfg) (n : Nat) : Nat := c.hdrLen + 2 + n

/-- The scan frame's length, `HDR_LEN + 3 + 2*DCOUNT` (R240, R241). -/
def State.scanLen (s : State) : Nat := s.cfg.hdrLen + 3 + 2 * s.dcount

/-- `DIST` for a raw word: `zext_32(RAW) * SCALE_NUM` (R246). -/
def scaledDist (c : Cfg) (raw : Half) : Word := BitVec.ofNat 32 (raw.toNat * c.scaleNum)

/-- `RESOL = zext_32(WIN_STEP) * ANGLE_LSB` (R248). -/
def State.resol (s : State) : Word := BitVec.ofNat 32 (s.winStep.toNat * s.cfg.angleLsb)

/-- The angle of sample index `i`: `(ANGLE_ORIGIN + zext_32(i) * ANGLE_LSB) mod 2^32` (R248). -/
def angleOf (c : Cfg) (i : Half) : Word := c.angleOrigin + BitVec.ofNat 32 (i.toNat * c.angleLsb)

end Sys2Proof.Machine
end

