-- ==== Sys2Proof/Machine/Checksum.lean ====
section
/-! DEFINITION. The checksum generator (`40_checksum.md`): `STEP8`, and `CRC` over bytes and over a buffer range. -/

namespace Sys2Proof.Machine

/-- One iteration of `STEP8`: shift left; feed the polynomial back when the bit shifted out was 1 (R141). -/
def crcShift (poly x : Byte) : Byte := if x.msb then (x <<< 1) ^^^ poly else x <<< 1

/-- `STEP8(acc, b)`: `acc XOR b`, then eight iterations (R141). -/
def step8 (poly acc b : Byte) : Byte := (crcShift poly)^[8] (acc ^^^ b)

/-- `CRC` of a byte list, taken in increasing index order (R141). -/
def crcBytes (c : Cfg) (bs : List Byte) : Byte := bs.foldl (step8 c.crcPoly) c.crcInit ^^^ c.crcXorout

/-- `CRC(start, len)` of the Packet Buffer (R140, R141). -/
def State.crc (s : State) (start len : Nat) : Byte := crcBytes s.cfg (s.pbRange start len)

end Sys2Proof.Machine
end

