-- ==== Sys2Proof/Machine/Flags.lean ====
section
/-! DEFINITION. Codes and bits: the numbers of `STATE` and `ERR`, the sticky error bits, the `STATUS` view, and the
field-switch flags of a scan frame. -/

namespace Sys2Proof.Machine

/-- The 3-bit code of `STATE` (R25). -/
def Phase.code : Phase → BitVec 3
  | .closed => 0
  | .opening => 1
  | .negotiating => 2
  | .authenticated => 3
  | .running => 4
  | .stopped => 5

/-- The 3-bit code of `ERR` (R27). -/
def ErrCode.code : ErrCode → BitVec 3
  | .noError => 0
  | .transport => 1
  | .protocol => 2
  | .authentication => 3
  | .configuration => 4
  | .precondition => 5

/-- The mask of the sticky bit that belongs to a code: bit `k` for code `k` in 1..5, none for code 0 (R28). -/
def ErrCode.stickyMask : ErrCode → BitVec 6
  | .noError => 0b000000
  | .transport => 0b000010
  | .protocol => 0b000100
  | .authentication => 0b001000
  | .configuration => 0b010000
  | .precondition => 0b100000

/-- `ESTICKY` as the host reads it: bits [5:1]; bit 0 and bits [31:6] read 0 (R28). -/
def State.estickyWord (s : State) : Word := (s.esticky &&& 0b111110).setWidth 32

/-- The `STATUS` view (R24): `STATE`, `TOPEN`, `SCAN_VALID`, `CFG_LOCK`, `OVR` from bit 0 up, zeros above. -/
def State.statusWord (s : State) : Word :=
  (BitVec.ofBool s.ovr ++ BitVec.ofBool s.cfgLock ++ BitVec.ofBool s.scanValid ++ BitVec.ofBool s.topen
    ++ s.phase.code).setWidth 32

/-- The five field-switch flags of a flags byte: `f[4:0]`, bits 7 to 5 ignored (R109, R240). -/
def flagBits (f : Byte) : BitVec 5 := f.extractLsb' 0 5

/-- Flag `near1` (R39). -/
def State.near1 (s : State) : Bool := s.flags.getLsbD 0
/-- Flag `near2` (R39). -/
def State.near2 (s : State) : Bool := s.flags.getLsbD 1
/-- Flag `far1` (R39). -/
def State.far1 (s : State) : Bool := s.flags.getLsbD 2
/-- Flag `far2` (R39). -/
def State.far2 (s : State) : Bool := s.flags.getLsbD 3
/-- Flag `fn1Fn2` (R39). -/
def State.fn1Fn2 (s : State) : Bool := s.flags.getLsbD 4

end Sys2Proof.Machine
end

