-- ==== Sys2Proof/Machine/Ops.lean ====
section
/-! DEFINITION. The shared operations: ending a command (`done`, `raise`, Overrun), the four transport calls, the
cursor primitives and the micro-routines of `41_frame_codec.md`. -/

namespace Sys2Proof

/-- Whether an answer to `T_OPEN` or `T_SEND` is `ok` (R80). -/
def Answer.isOk : Answer → Bool
  | .ok _ => true
  | .fail => false

/-- An answer to `T_RECV(maxLen, t)`: `fail`, or at most `maxLen` bytes (R80: a longer string cannot occur). -/
def Answer.received (ans : Answer) (maxLen : Nat) : Option (List Byte) :=
  match ans with
  | .ok bs => some (bs.take maxLen)
  | .fail => none

end Sys2Proof

namespace Sys2Proof.Machine

/-! ### Ending a command: the block's "trap entry" -/

/-- `done(e)` and, for `e` not 0, `raise` (R272): `ERR <- e`, and the sticky bit of a nonzero code is set. Nothing
is undone, no `pc` is saved and nothing is vectored (R277); there is no return (R279). A faulting register access
does the same two writes with code 5. -/
def State.done (s : State) (e : ErrCode) : State :=
  { s with err := e, esticky := s.esticky ||| e.stickyMask }

/-- A cursor primitive refused by its bounds check: `OVR <- 1`, then `raise PreconditionError` (R163). -/
def State.overrun (s : State) : State := State.done { s with ovr := true } .precondition

/-- The one event that ends a micro-routine and the command around it: Overrun (R163). -/
inductive Overrun where
  | overrun
deriving DecidableEq, Repr

/-- A micro-routine: it reads and writes the state in the order of its text (R76) and may end in Overrun, the writes
before it standing (R272). -/
abbrev Micro := EStateM Overrun State

/-- What a routine that talks to the transport or validates returns (R169). -/
inductive Reply where
  | ok | tfail | reject
deriving DecidableEq, Repr

/-- A command: run its body and end with exactly one `done` (R273); an Overrun ends it as R163 says. Every command
completes (R83). -/
def runCommand (body : Micro ErrCode) (s : State) : Host.Outcome State Fault Refusal :=
  match body.run s with
  | .ok e t => .next (t.done e)
  | .error _ t => .next t.overrun

/-! ### The transport -/

/-- The environment's next answer: the next listed one, else a free value (R81). -/
def State.nextAnswer (s : State) : Answer := s.answers.headD (Config.envAnswer s.draws)

/-- The state once that answer has been given. -/
def State.answered (s : State) : State :=
  match s.answers with
  | [] => { s with draws := s.draws + 1 }
  | _ :: as => { s with answers := as }

/-- A call is appended to the transport trace (R11, R78). -/
def State.traced (s : State) (c : Call) : State := { s with trace := s.trace ++ [c] }

/-- `T_OPEN(Cfg.DEVICE_ID, rate(c))`: true when it returned `ok` (R80). -/
def tOpen (c : BitVec 3) : Micro Bool := fun s =>
  .ok s.nextAnswer.isOk (s.answered.traced (.tOpen s.cfg.deviceId (rate c) s.nextAnswer.isOk))

/-- `T_CLOSE() ; TOPEN <- 0` (R80: it always completes, so it draws no answer). -/
def tClose : Micro Unit := fun s => .ok () (State.traced { s with topen := false } .tClose)

/-- `T_SEND(bs)`: true when it returned `ok` (R80). -/
def tSend (bs : List Byte) : Micro Bool := fun s =>
  .ok s.nextAnswer.isOk (s.answered.traced (.tSend bs s.nextAnswer.isOk))

/-- `T_RECV(maxLen, Cfg.RX_TIMEOUT)` (R80). -/
def tRecv (maxLen : Nat) : Micro (Option (List Byte)) := fun s =>
  .ok (s.nextAnswer.received maxLen)
    (s.answered.traced (.tRecv maxLen s.cfg.rxTimeout (s.nextAnswer.received maxLen)))

/-! ### The cursor primitives -/

/-- `SET(v)` (R161), refused when `REM = 0` or `CUR >= PB_CAP` (R163). -/
def setByte (v : Byte) : Micro Unit := fun s =>
  if s.rem = 0 ∨ s.cfg.pbCap ≤ s.cur.toNat then .error .overrun s
  else .ok () { s with pb := Memory.write s.pb s.cur.toNat v, cur := s.cur + 1, rem := s.rem - 1 }

/-- `GET()` (R162), refused when `CUR >= PB_CAP` (R163). -/
def getByte : Micro Byte := fun s =>
  if s.cfg.pbCap ≤ s.cur.toNat then .error .overrun s
  else .ok (s.pbRead s.cur.toNat) { s with cur := s.cur + 1 }

/-- `SET(v)` for each byte of a list in order. -/
def setBytes : List Byte → Micro Unit
  | [] => pure ()
  | b :: bs => do
    setByte b
    setBytes bs

/-- `PUT16(v)` (R164). -/
def put16 (v : Half) : Micro Unit := do
  setByte (hi8 v)
  setByte (lo8 v)

/-- `GET16()` (R164). -/
def get16 : Micro Half := do
  let h ← getByte
  let l ← getByte
  return join16 h l

/-- `n` consecutive `GET16()` (R240). -/
def getWords : Nat → Micro (List Half)
  | 0 => pure []
  | n + 1 => do
    let w ← get16
    let ws ← getWords n
    return w :: ws

/-- `GET()` against each byte of a list in order, stopping at the first that differs; true when none does. It is the
header loop of `CHECK` (R168) and the echo loop of `AUTH` (R194). -/
def matchBytes : List Byte → Micro Bool
  | [] => pure true
  | b :: bs => do
    let g ← getByte
    if g = b then matchBytes bs else return false

/-! ### Frames -/

/-- `CUR <- 0 ; REM <- L`, the start of `ENCODE` (R165). -/
def startFrame (len : Nat) : Micro Unit := fun s => .ok () { s with cur := 0, rem := BitVec.ofNat 16 len }

/-- `SET(CRC(start, n))`: seal the frame with the checksum of its payload (R165). -/
def setCrc (start n : Nat) : Micro Unit := fun s => (setByte (s.crc start n)).run s

/-- `TXLEN <- L` (R165). -/
def setTxlen (len : Nat) : Micro Unit := fun s => .ok () { s with txlen := BitVec.ofNat 16 len }

/-- `ENCODE(tc, payload)` (R165). -/
def encodeFrame (tc : Byte) (payload : List Byte) : Micro Unit := do
  let s ← get
  startFrame (frameLen s.cfg payload.length)
  setBytes s.cfg.hdrTx
  setByte tc
  setBytes payload
  setCrc (s.cfg.hdrLen + 1) payload.length
  setTxlen (frameLen s.cfg payload.length)

/-- `SEND()` (R166): one `T_SEND` of the whole frame; without the transport no call is made and the outcome is that
of `fail` (R82). -/
def sendFrame : Micro Reply := fun s =>
  if s.topen then
    match (tSend (s.pbRange 0 s.txlen.toNat)).run s with
    | .ok true t => .ok .ok t
    | .ok false t => .ok .tfail t
    | .error e t => .error e t
  else .ok .tfail s

/-- The received bytes are put into `PB` from index 0 and counted in `RXLEN` (R167). -/
def State.store (s : State) (bs : List Byte) : State :=
  { s with pb := Memory.writeList s.pb 0 bs, rxlen := BitVec.ofNat 16 bs.length }

/-- `RECV(L)` (R167), with R82 as in `sendFrame`. -/
def recvFrame (len : Nat) : Micro Reply := fun s =>
  if s.topen then
    match (tRecv len).run s with
    | .ok (some bs) t => .ok .ok (t.store bs)
    | .ok none t => .ok .tfail t
    | .error e t => .error e t
  else .ok .tfail s

/-- `CUR <- 0`, the start of `CHECK` once the length has passed (R168). -/
def rewind : Micro Unit := fun s => .ok () { s with cur := 0 }

/-- `CHECK(tr, L)` (R168): length, header, type, checksum, in that order; true is `Accept`, false is `Reject`. -/
def checkFrame (tr : Byte) (len : Nat) : Micro Bool := do
  let s ← get
  if s.rxlen.toNat < len then return false
  else do
    rewind
    let hdr ← matchBytes s.cfg.hdrRx
    if hdr then do
      let ty ← getByte
      if ty = tr then
        return decide (s.crc (s.cfg.hdrLen + 1) (len - s.cfg.hdrLen - 2) = s.pbRead (len - 1))
      else return false
    else return false

/-- The end of `XACK`: `CHECK` of the ACK frame and the comparison of its echo byte (R171). -/
def ackTail (tc : Byte) : Micro Reply := do
  let s ← get
  let accepted ← checkFrame s.cfg.trAck (s.cfg.hdrLen + 3)
  if accepted then do
    let echo ← getByte
    if echo = tc then return .ok else return .reject
  else return .reject

/-- The receiving half of `XACK` (R171). -/
def awaitAck (tc : Byte) : Micro Reply := do
  let s ← get
  let r ← recvFrame (s.cfg.hdrLen + 3)
  match r with
  | .ok => ackTail tc
  | _ => return .tfail

/-- `XACK(tc, payload)`: one acknowledged exchange (R171). -/
def xack (tc : Byte) (payload : List Byte) : Micro Reply := do
  encodeFrame tc payload
  let r ← sendFrame
  match r with
  | .ok => awaitAck tc
  | _ => return .tfail

/-- The general mapping of R271: `TFail` is TransportError, `Reject` is ProtocolError, `Ok` is no error. -/
def Reply.toErr : Reply → ErrCode
  | .ok => .noError
  | .tfail => .transport
  | .reject => .protocol

end Sys2Proof.Machine
end

