-- ==== Sys2Proof/Machine/Codec.lean ====
section
/-! DEFINITION. The cursor and checksum commands `CSET`, `CGET`, `CCRC`: valid in every state, no transport call. -/

namespace Sys2Proof.Machine

/-- `CSET` (R174). -/
def execCset (a : Byte) (s : State) : Host.Outcome State Fault Refusal :=
  runCommand (do setByte a; return .noError) s

/-- `DATA <- v` (R44, R175). -/
def setData (v : Byte) : Micro Unit := fun s => .ok () { s with data := v }

/-- `CGET` (R175). -/
def execCget (s : State) : Host.Outcome State Fault Refusal :=
  runCommand (do let v ← getByte; setData v; return .noError) s

/-- The body of `CCRC` (R148): a range that leaves the buffer is refused like an overrun. -/
def crcRange (b : Half) : Micro Unit := fun s =>
  if s.cfg.pbCap < s.cur.toNat + b.toNat then .error .overrun s
  else .ok () { s with crcout := s.crc s.cur.toNat b.toNat }

/-- `CCRC` (R148). -/
def execCcrc (b : Half) (s : State) : Host.Outcome State Fault Refusal :=
  runCommand (do crcRange b; return .noError) s

end Sys2Proof.Machine
end

