-- ==== Sys2Proof/Machine/Scan.lean ====
section
/-! DEFINITION. Scan acquisition (`43_scan_acquisition.md`): `STEP`. -/

namespace Sys2Proof.Machine

/-- The commit of a scan, all or nothing: `FLAGS`, `RAW[0 .. n-1]`, `SCAN_VALID` (R240, R242). -/
def State.commitScan (s : State) (f : Byte) (ws : List Half) : State :=
  { s with flags := flagBits f, raw := rawStore s.raw ws, scanValid := true }

/-- Field extraction of an accepted scan frame and the commit (R170, R240). -/
def readScan (n : Nat) : Micro ErrCode := do
  let f ← getByte
  let ws ← getWords n
  modify fun s => s.commitScan f ws
  return .noError

/-- The receiving half of `STEP` for `n` samples (R240). -/
def acquire (n : Nat) : Micro ErrCode := do
  let s ← get
  let r ← recvFrame (s.cfg.hdrLen + 3 + 2 * n)
  match r with
  | .ok => do
    let accepted ← checkFrame s.cfg.trScan (s.cfg.hdrLen + 3 + 2 * n)
    if accepted then readScan n else return .protocol
  | _ => return .transport

/-- The body of `STEP` (R240): state check, the POLL frame when the device must be polled, one scan frame. -/
def stepBody : Micro ErrCode := do
  let s ← get
  if s.phase ≠ .running then return .precondition
  else if s.cfg.polling then do
    encodeFrame s.cfg.tcPoll []
    let r ← sendFrame
    match r with
    | .ok => acquire s.dcount
    | _ => return .transport
  else acquire s.dcount

/-- `STEP` (R240). -/
def execStep (s : State) : Host.Outcome State Fault Refusal := runCommand stepBody s

end Sys2Proof.Machine
end

