-- ==== Sys2Proof/Machine/Sequencer.lean ====
section
/-! DEFINITION. The connection sequencer (`42_connection_sequencer.md`): `OPEN` with `DETECT`, `AUTH`, `RENEG_SUB`
and `CFGWIN_SUB`, and `CLOSE`, `START`, `STOP`, `RESET`, `RENEG`, `CFGWIN`, `NOP`. -/

namespace Sys2Proof.Machine

/-- `STATE <- p`, the block's only control transfer (R10, R190). -/
def setPhase (p : Phase) : Micro Unit := fun s => .ok () { s with phase := p }

/-- `TOPEN <- 1` (R26). -/
def holdTransport : Micro Unit := fun s => .ok () { s with topen := true }

/-- `BAUD_CUR <- c` (R32). -/
def setBaudCur (c : BitVec 3) : Micro Unit := fun s => .ok () { s with baudCur := c }

/-- A step of a command that ends it when it returns a nonzero code: `e <- m ; if e != 0 then done(e)`. -/
def orElseDone (m : Micro ErrCode) (rest : Micro ErrCode) : Micro ErrCode := do
  let e ← m
  match e with
  | .noError => rest
  | _ => return e

/-! ### DETECT -/

/-- The loop of `DETECT` over the rates still to try (R193): close, reopen at the next code, probe. -/
def detectLoop : List (BitVec 3) → Micro ErrCode
  | [] => return .protocol
  | c :: cs => do
    tClose
    let opened ← tOpen c
    if opened then do
      holdTransport
      setBaudCur c
      let s ← get
      let r ← xack s.cfg.tcProbe []
      match r with
      | .tfail => return .transport
      | .ok => return .noError
      | .reject => detectLoop cs
    else return .transport

/-- `DETECT` (R193): a probe at the assumed rate, then the other rates in increasing code order. -/
def detect : Micro ErrCode := do
  let s ← get
  let r ← xack s.cfg.tcProbe []
  match r with
  | .tfail => return .transport
  | .ok => return .noError
  | .reject => detectLoop (baudCodes.filter fun c => c ≠ s.baudCur)

/-! ### AUTH -/

/-- The end of `AUTH`: the answer must be the password's echo; anything else is AuthenticationError (R194). -/
def checkEcho (password : List Byte) : Micro ErrCode := do
  let s ← get
  let accepted ← checkFrame s.cfg.tcPasswd (frameLen s.cfg s.pwLen.toNat)
  if accepted then do
    let same ← matchBytes password
    if same then return .noError else return .authentication
  else return .authentication

/-- The receiving half of `AUTH` (R194). -/
def awaitEcho (password : List Byte) : Micro ErrCode := do
  let s ← get
  let r ← recvFrame (frameLen s.cfg s.pwLen.toNat)
  match r with
  | .ok => checkEcho password
  | _ => return .transport

/-- `AUTH` (R194): one PASSWD frame, one answer. -/
def auth : Micro ErrCode := do
  let s ← get
  encodeFrame s.cfg.tcPasswd s.password
  let r ← sendFrame
  match r with
  | .ok => awaitEcho s.password
  | _ => return .transport

/-! ### RENEG_SUB and CFGWIN_SUB -/

/-- `BAUD_CUR <- old` and reopen the transport at the old rate: the revert of `RENEG_SUB` (R198). -/
def revert (old : BitVec 3) : Micro ErrCode := do
  setBaudCur old
  let opened ← tOpen old
  if opened then do
    holdTransport
    return .configuration
  else return .transport

/-- The verification exchange at the new rate (R198): anything but `Ok` closes the transport and reverts. -/
def verify (old : BitVec 3) : Micro ErrCode := do
  let s ← get
  let r ← xack s.cfg.tcProbe []
  match r with
  | .ok => return .noError
  | _ => do
    tClose
    revert old

/-- The block moves its own transport to the new rate: close, reopen, verify (R198). -/
def reconfigure (old new : BitVec 3) : Micro ErrCode := do
  tClose
  let opened ← tOpen new
  if opened then do
    holdTransport
    setBaudCur new
    verify old
  else revert old

/-- `RENEG_SUB` (R198). -/
def renegSub : Micro ErrCode := do
  let s ← get
  if s.baudDes = s.baudCur then return .noError
  else do
    let r ← xack s.cfg.tcBaud (baudPayload s.baudDes)
    match r with
    | .tfail => return .transport
    | .reject => return .protocol
    | .ok => reconfigure s.baudCur s.baudDes

/-- `CFGWIN_SUB` (R200). -/
def cfgwinSub : Micro ErrCode := do
  let s ← get
  if s.winValid then do
    let r ← xack s.cfg.tcWindow s.windowPayload
    return r.toErr
  else return .configuration

/-! ### The commands -/

/-- `OPEN` once the transport is held and `STATE` is Opening (R191). -/
def openSession : Micro ErrCode :=
  orElseDone detect do
    setPhase .negotiating
    orElseDone auth do
      setPhase .authenticated
      orElseDone renegSub cfgwinSub

/-- The body of `OPEN` (R191): state check, password length check (R192), then the session. -/
def openBody : Micro ErrCode := do
  let s ← get
  if s.phase ≠ .closed then return .precondition
  else if s.pwLen.toNat ≠ s.cfg.pwLenReq then return .configuration
  else do
    let opened ← tOpen s.baudCur
    if opened then do
      holdTransport
      setPhase .opening
      openSession
    else return .transport

/-- `OPEN` (R191). -/
def execOpen (s : State) : Host.Outcome State Fault Refusal := runCommand openBody s

/-- `if TOPEN = 1 then T_CLOSE() ; TOPEN <- 0`. -/
def releaseTransport : Micro Unit := do
  let s ← get
  if s.topen then tClose else return ()

/-- The body of `CLOSE` (R207). -/
def closeBody : Micro ErrCode := do
  releaseTransport
  setPhase .closed
  return .noError

/-- `CLOSE` (R207). -/
def execClose (s : State) : Host.Outcome State Fault Refusal := runCommand closeBody s

/-- `STATE <- Running ; CFG_LOCK <- 1` (R203). -/
def lockRunning : Micro Unit := fun s => .ok () { s with phase := .running, cfgLock := true }

/-- The body of `START` (R203). -/
def startBody : Micro ErrCode := do
  let s ← get
  if s.phase ≠ .authenticated ∧ s.phase ≠ .stopped then return .precondition
  else if s.winValid then do
    let r ← xack s.cfg.tcStart []
    match r with
    | .ok => do
      lockRunning
      return .noError
    | _ => return r.toErr
  else return .configuration

/-- `START` (R203). -/
def execStart (s : State) : Host.Outcome State Fault Refusal := runCommand startBody s

/-- The body of `STOP` (R204). -/
def stopBody : Micro ErrCode := do
  let s ← get
  if s.phase ≠ .running then return .precondition
  else do
    let r ← xack s.cfg.tcStop []
    match r with
    | .ok => do
      setPhase .stopped
      return .noError
    | _ => return r.toErr

/-- `STOP` (R204). -/
def execStop (s : State) : Host.Outcome State Fault Refusal := runCommand stopBody s

/-- The RESET frame is sent when the transport is held, and the transport released whether or not the send
succeeded; no answer is awaited (R205). -/
def sendReset : Micro ErrCode := do
  let s ← get
  if s.topen then do
    encodeFrame s.cfg.tcReset []
    let r ← sendFrame
    tClose
    return r.toErr
  else return .noError

/-- The body of `RESET` (R205). -/
def resetBody : Micro ErrCode := do
  let e ← sendReset
  setPhase .closed
  return e

/-- `RESET` (R205). -/
def execReset (s : State) : Host.Outcome State Fault Refusal := runCommand resetBody s

/-- The body of `RENEG` (R199). -/
def renegBody : Micro ErrCode := do
  let s ← get
  if s.phase ≠ .authenticated then return .precondition else renegSub

/-- `RENEG` (R199). -/
def execReneg (s : State) : Host.Outcome State Fault Refusal := runCommand renegBody s

/-- The body of `CFGWIN` (R201). -/
def cfgwinBody : Micro ErrCode := do
  let s ← get
  if s.phase ≠ .authenticated then return .precondition else cfgwinSub

/-- `CFGWIN` (R201). -/
def execCfgwin (s : State) : Host.Outcome State Fault Refusal := runCommand cfgwinBody s

/-- `NOP` (R209). -/
def execNop (s : State) : Host.Outcome State Fault Refusal := .next (s.done .noError)

end Sys2Proof.Machine
end

