-- ==== Sys2Proof/Machine/Dispatch.lean ====
section
/-! DEFINITION. The dispatch of the twelve commands: one arm per constructor of `Instr`. -/

namespace Sys2Proof.Machine

/-- The meaning of a command: the state before, with the environment's answers in it, to the state after, with the
transport trace in it (R11). -/
def exec (i : Instr) (s : State) : Host.Outcome State Fault Refusal :=
  match i with
  | .nop => Sys2Proof.Machine.execNop s
  | .open_ => Sys2Proof.Machine.execOpen s
  | .close => Sys2Proof.Machine.execClose s
  | .start => Sys2Proof.Machine.execStart s
  | .stop => Sys2Proof.Machine.execStop s
  | .step => Sys2Proof.Machine.execStep s
  | .reset => Sys2Proof.Machine.execReset s
  | .reneg => Sys2Proof.Machine.execReneg s
  | .cfgwin => Sys2Proof.Machine.execCfgwin s
  | .cset a => Sys2Proof.Machine.execCset a s
  | .cget => Sys2Proof.Machine.execCget s
  | .ccrc b => Sys2Proof.Machine.execCcrc b s

end Sys2Proof.Machine
end

