-- ==== Sys2Proof/Machine/HostPort.lean ====
section
/-! DEFINITION. The host's side: the register map R21 with its read and write rules, the hardware reset, and how the
next host access is taken. -/

namespace Sys2Proof.Machine

/-- The register a number names; `none` for the reserved numbers `0x1B` to `0xFF` (R21, R22). -/
def regOf (n : BitVec 8) : Option Reg :=
  match n.toNat with
  | 0x00 => some .cmd
  | 0x01 => some .status
  | 0x02 => some .err
  | 0x03 => some .esticky
  | 0x04 => some .baudCur
  | 0x05 => some .baudDes
  | 0x06 => some .pwLen
  | 0x07 => some .pw0
  | 0x08 => some .pw1
  | 0x09 => some .winStart
  | 0x0A => some .winStop
  | 0x0B => some .winStep
  | 0x0C => some .winType
  | 0x0D => some .flags
  | 0x0E => some .dcount
  | 0x0F => some .idx
  | 0x10 => some .dist
  | 0x11 => some .dmin
  | 0x12 => some .dmax
  | 0x13 => some .resol
  | 0x14 => some .angStart
  | 0x15 => some .angStop
  | 0x16 => some .cur
  | 0x17 => some .rem
  | 0x18 => some .data
  | 0x19 => some .crcout
  | 0x1A => some .rxlen
  | _ => none

/-- The number of a register (R21). -/
def regNum : Reg → BitVec 8
  | .cmd => 0x00
  | .status => 0x01
  | .err => 0x02
  | .esticky => 0x03
  | .baudCur => 0x04
  | .baudDes => 0x05
  | .pwLen => 0x06
  | .pw0 => 0x07
  | .pw1 => 0x08
  | .winStart => 0x09
  | .winStop => 0x0A
  | .winStep => 0x0B
  | .winType => 0x0C
  | .flags => 0x0D
  | .dcount => 0x0E
  | .idx => 0x0F
  | .dist => 0x10
  | .dmin => 0x11
  | .dmax => 0x12
  | .resol => 0x13
  | .angStart => 0x14
  | .angStop => 0x15
  | .cur => 0x16
  | .rem => 0x17
  | .data => 0x18
  | .crcout => 0x19
  | .rxlen => 0x1A

/-- `RegRead(DIST)` (R246): the scaled distance, or 0 with PreconditionError. -/
def readDist (s : State) : Word × State :=
  if s.scanValid = true ∧ s.idx.toNat < s.dcount then (scaledDist s.cfg (s.rawRead s.idx.toNat), s)
  else (0, s.done .precondition)

/-- `RegRead(DMIN)` and `RegRead(DMAX)` (R247): the limit, or 0 with PreconditionError. -/
def readLimit (limit : Word) (s : State) : Word × State :=
  if s.idx.toNat < s.dcount then (limit, s) else (0, s.done .precondition)

/-- The value a read of a named register returns, and the state it leaves (R21, R74: only `DIST`, `DMIN`, `DMAX` can
have a side effect). `CMD` reads 0 (R22). -/
def readReg (r : Reg) (s : State) : Word × State :=
  match r with
  | .cmd => (0, s)
  | .status => (s.statusWord, s)
  | .err => (s.err.code.setWidth 32, s)
  | .esticky => (s.estickyWord, s)
  | .baudCur => (s.baudCur.setWidth 32, s)
  | .baudDes => (s.baudDes.setWidth 32, s)
  | .pwLen => (s.pwLen.setWidth 32, s)
  | .pw0 => (s.pw0, s)
  | .pw1 => (s.pw1, s)
  | .winStart => (s.winStart.setWidth 32, s)
  | .winStop => (s.winStop.setWidth 32, s)
  | .winStep => (s.winStep.setWidth 32, s)
  | .winType => (s.winType.setWidth 32, s)
  | .flags => (s.flags.setWidth 32, s)
  | .dcount => (BitVec.ofNat 32 s.dcount, s)
  | .idx => (s.idx.setWidth 32, s)
  | .dist => readDist s
  | .dmin => readLimit s.cfg.rangeMin s
  | .dmax => readLimit s.cfg.rangeMax s
  | .resol => (s.resol, s)
  | .angStart => (angleOf s.cfg s.winStart, s)
  | .angStop => (angleOf s.cfg s.winStop, s)
  | .cur => (s.cur.setWidth 32, s)
  | .rem => (s.rem.setWidth 32, s)
  | .data => (s.data.setWidth 32, s)
  | .crcout => (s.crcout.setWidth 32, s)
  | .rxlen => (s.rxlen.setWidth 32, s)

/-- `RegRead(n)` (R20): a reserved number reads 0 with no effect (R22). -/
def regRead (n : BitVec 8) (s : State) : Word × State :=
  match regOf n with
  | some r => readReg r s
  | none => (0, s)

/-- A host write allowed only while `ok`: else the register is unchanged and the access faults (R51). -/
def guarded (ok : Bool) (s written : State) : State := if ok then written else s.done .precondition

/-- A write to a named register other than `CMD`, the bits outside the listed ones discarded (R50, R51): the locked
ones while `CFG_LOCK` is 1 and `BAUD_CUR` outside unlocked Closed fault; the read-only ones ignore it (R22). -/
def writeReg (r : Reg) (v : Word) (s : State) : State :=
  match r with
  | .baudCur => guarded (decide (s.phase = .closed) && !s.cfgLock) s { s with baudCur := v.setWidth 3 }
  | .baudDes => { s with baudDes := v.setWidth 3 }
  | .pwLen => guarded (!s.cfgLock) s { s with pwLen := v.setWidth 4 }
  | .pw0 => guarded (!s.cfgLock) s { s with pw0 := v }
  | .pw1 => guarded (!s.cfgLock) s { s with pw1 := v }
  | .winStart => guarded (!s.cfgLock) s { s with winStart := v.setWidth 16 }
  | .winStop => guarded (!s.cfgLock) s { s with winStop := v.setWidth 16 }
  | .winStep => guarded (!s.cfgLock) s { s with winStep := v.setWidth 16 }
  | .winType => guarded (!s.cfgLock) s { s with winType := v.setWidth 16 }
  | .idx => { s with idx := v.setWidth 16 }
  | .cur => { s with cur := v.setWidth 16 }
  | .rem => { s with rem := v.setWidth 16 }
  | .cmd | .status | .err | .esticky | .flags | .dcount | .dist | .dmin | .dmax | .resol | .angStart | .angStop
  | .data | .crcout | .rxlen => s

/-- `RegWrite(n, v)` for `n` other than `CMD` (R20): a reserved number ignores it (R22). -/
def regWrite (n : BitVec 8) (v : Word) (s : State) : State :=
  match regOf n with
  | some r => writeReg r v s
  | none => s

/-- `HRESET` (R300): `T_CLOSE()` if the transport is held, then every register at its value of R52; `PB` and `RAW`
become unspecified again. The configuration, the inputs still to come and the outputs so far are not the block's
state and stay. -/
def hreset (s : State) : State :=
  { s with
    trace := if s.topen then s.trace ++ [.tClose] else s.trace
    phase := .closed
    topen := false
    err := .noError
    esticky := 0
    scanValid := false
    cfgLock := false
    ovr := false
    baudCur := s.cfg.initBaud
    baudDes := s.cfg.initBaud
    pwLen := 0
    pw0 := 0
    pw1 := 0
    winStart := 0
    winStop := 0
    winStep := 0
    winType := 0
    flags := 0
    idx := 0
    raw := []
    cur := 0
    rem := 0
    data := 0
    crcout := 0
    rxlen := 0
    txlen := 0
    pb := []
    resets := s.resets + 1 }

/-- An illegal command word (R104): PreconditionError and nothing else. -/
def illegalCommand (s : State) : Host.Outcome State Fault Refusal := .next (s.done .precondition)

/-- What the next host access asks of the block. -/
inductive Fetched where
  /-- No access has been made: the block holds its state (R287, R302). -/
  | idle
  /-- A command word written to `CMD` (R23), and the state once the access has been taken. -/
  | command (w : Word) (s : State)
  /-- A register access or `HRESET`, already carried out. -/
  | access (s : State)
deriving DecidableEq, Repr

/-- Take the next host access (R8, R20): the host's accesses happen one at a time, in its order (R76). -/
def fetchAccess (s : State) : Fetched :=
  match s.hostq with
  | [] => .idle
  | .regRead n :: q =>
    let (v, t) := regRead n { s with hostq := q }
    .access { t with reads := t.reads ++ [(n, v)] }
  | .regWrite n v :: q =>
    if n = 0 then .command v { s with hostq := q } else .access (regWrite n v { s with hostq := q })
  | .hreset :: q => .access (hreset { s with hostq := q })

/-- The host's next access is a write of the command word `w` to `CMD`, before the accesses already waiting. -/
def State.withCommand (s : State) (w : Word) : State := { s with hostq := .regWrite 0 w :: s.hostq }

end Sys2Proof.Machine
end

