-- ==== Sys2Proof/Machine/Step.lean ====
section
/-! DEFINITION. One step of the machine is one host access (R20), a command with all its transport calls included
(R8, R74). -/

namespace Sys2Proof.Machine

/-- One host access. A command word is decoded and executed to completion (R23, R102); an illegal one is R104; with
no access waiting the block holds its state (R287). -/
def step (s : State) : Host.Outcome State Fault Refusal :=
  match fetchAccess s with
  | .idle => .next s
  | .access t => .next t
  | .command w t =>
    match Sys2Proof.decode w with
    | .ok i => exec i t
    | .error _ => illegalCommand t

/-- `s` with the host about to write the instruction's word to `CMD`, which is where commands come from (R23). -/
def State.withFetchWord (s : State) (nbits w : Nat) : State := s.withCommand (Sys2Proof.tableWord nbits w)

end Sys2Proof.Machine
end

