-- ==== Sys2Proof/Safety.lean ====
section
/-! DEFINITION. The terms statements use: frames as byte strings, the transport link as its trace shows it, the
transition and error tables, and the invariant of every step. -/

namespace Sys2Proof

/-- The commands of the sequencer: all but the cursor and checksum primitives. -/
def Instr.isSequencer : Instr → Bool
  | .cset _ | .cget | .ccrc _ => false
  | _ => true

end Sys2Proof

namespace Sys2Proof.Machine

/-! ### Frames -/

/-- A frame with header `hdr`, type byte `ty` and a payload, sealed (R106). -/
def frameBytes (c : Cfg) (hdr : List Byte) (ty : Byte) (payload : List Byte) : List Byte :=
  hdr ++ ty :: (payload ++ [crcBytes c payload])

/-- The transmit frame of type `tc` (R106, R108). -/
def txFrame (c : Cfg) (tc : Byte) (payload : List Byte) : List Byte := frameBytes c c.hdrTx tc payload

/-- The received frame of type `tr` (R106, R109). -/
def rxFrame (c : Cfg) (tr : Byte) (payload : List Byte) : List Byte := frameBytes c c.hdrRx tr payload

/-- The ACK frame of a command type `tc` (R109). -/
def ackFrame (c : Cfg) (tc : Byte) : List Byte := rxFrame c c.trAck [tc]

/-- The payload of a SCAN frame: the flags byte, then the samples, high byte first (R109). -/
def scanPayload (f : Byte) (ws : List Half) : List Byte := f :: ws.flatMap fun w => [hi8 w, lo8 w]

/-! ### Exchanges and buffer contents -/

/-- What an acknowledged exchange of type `tc` started in `s` comes to (R171), read off the environment's next two
answers: no transport or a `fail` is `TFail`; a receive is `Ok` exactly when the string is the sealed ACK of `tc`. -/
def State.reply (s : State) (tc : Byte) : Reply :=
  if s.topen then
    match s.nextAnswer, s.answered.nextAnswer with
    | .fail, _ => .tfail
    | .ok _, .fail => .tfail
    | .ok _, .ok bs => if bs.take (frameLen s.cfg 1) = ackFrame s.cfg tc then .ok else .reject
  else .tfail

/-- The transport calls of that exchange: one send and, if it succeeded, one receive; none without the transport
(R82, R171). -/
def State.exchangeCalls (s : State) (tc : Byte) (payload : List Byte) : List Call :=
  if s.topen then
    match s.nextAnswer with
    | .fail => [.tSend (txFrame s.cfg tc payload) false]
    | .ok _ =>
      [.tSend (txFrame s.cfg tc payload) true,
        .tRecv (frameLen s.cfg 1) s.cfg.rxTimeout (s.answered.nextAnswer.received (frameLen s.cfg 1))]
  else []

/-- The calls of an exchange whose send succeeded and whose receive returned `bs`. -/
def ackCalls (c : Cfg) (tc : Byte) (payload bs : List Byte) : List Call :=
  [.tSend (txFrame c tc payload) true, .tRecv (frameLen c 1) c.rxTimeout (some bs)]

/-- A received string laid over the frame that was sent: what `PB` holds from index 0 on (R172). -/
def overlay (received sent : List Byte) : List Byte := received ++ sent.drop received.length

/-- The Packet Buffer of `t` holds `bs` from index 0 on and is that of `s` beyond. -/
def State.Holds (t s : State) (bs : List Byte) : Prop := ∀ a, t.pbRead a = bs.getD a (s.pbRead a)

/-- How many bytes two strings have in common from their start. -/
def commonPrefix : List Byte → List Byte → Nat
  | a :: as, b :: bs => if a = b then commonPrefix as bs + 1 else 0
  | _, _ => 0

/-- `CUR` after a receive and the `CHECK` of what it returned for a length `len`, `cur` before them (R168): kept when
nothing came or the string is short, one past the first header byte that differs, else at the payload, whatever the
type and the checksum. -/
def checkCursor (c : Cfg) (len : Nat) (cur : Half) (received : Option (List Byte)) : Half :=
  match received with
  | none => cur
  | some bs => if bs.length < len then cur else BitVec.ofNat 16 (commonPrefix bs c.hdrRx + 1)

/-- `CUR` after an exchange that sent `sent` bytes (R165, R168, R171): past the echo byte of a sealed ACK of any
command, else where `ENCODE` and `CHECK` leave it. -/
def ackCursor (c : Cfg) (sent : Nat) (received : Option (List Byte)) : Half :=
  if received = some (ackFrame c ((received.getD []).getD (c.hdrLen + 1) 0)) then BitVec.ofNat 16 (c.hdrLen + 2)
  else checkCursor c (frameLen c 1) (BitVec.ofNat 16 sent) received

/-- `CUR` after `AUTH` has received `bs` for a password (R168, R194): past the first payload byte of a sealed echo that
differs from the password's, past them all if none does; without a sealed echo, where `ENCODE` and `CHECK` leave it. -/
def echoCursor (c : Cfg) (password bs : List Byte) : Half :=
  let payload := (bs.drop (c.hdrLen + 1)).take password.length
  if bs = rxFrame c c.tcPasswd payload then
    BitVec.ofNat 16 (c.hdrLen + 1 + min (commonPrefix payload password + 1) password.length)
  else checkCursor c (frameLen c password.length) (BitVec.ofNat 16 (frameLen c password.length)) (some bs)

/-- `RXLEN` after a receive that returned `received`, `old` before it (R46, R167). -/
def rxlenAfter (old : Half) (received : Option (List Byte)) : Half :=
  match received with
  | none => old
  | some bs => BitVec.ofNat 16 bs.length

/-- What an acknowledged exchange started in `s` receives: nothing when the transport is not held, the send fails or
the receive fails. -/
def State.exchangeReceived (s : State) : Option (List Byte) :=
  if s.topen && s.nextAnswer.isOk then s.answered.nextAnswer.received (frameLen s.cfg 1) else none

/-- `s` with the environment's answers that an exchange started in `s` uses taken off. -/
def State.exchangeAnswered (s : State) : State :=
  if s.topen then (if s.nextAnswer.isOk then s.answered.answered else s.answered) else s

/-- All that an acknowledged exchange leaves of `s` but the buffer: its calls, the answers used, the codec's
registers (R165, R167, R168, R171). -/
def State.afterExchange (s : State) (tc : Byte) (payload : List Byte) : State :=
  { s.exchangeAnswered with
    trace := s.trace ++ s.exchangeCalls tc payload
    cur := ackCursor s.cfg (frameLen s.cfg payload.length) s.exchangeReceived
    rem := 0
    rxlen := rxlenAfter s.rxlen s.exchangeReceived
    txlen := BitVec.ofNat 16 (frameLen s.cfg payload.length) }

/-! ### The transport calls of STEP (R240) -/

/-- `s` with the answer to the POLL frame taken off, when the device is polled. -/
def State.pollAnswered (s : State) : State := if s.cfg.polling then s.answered else s

/-- What `STEP` receives: nothing when the transport is not held, the poll's send fails or the receive fails. -/
def State.scanReceived (s : State) : Option (List Byte) :=
  if s.topen && (!s.cfg.polling || s.nextAnswer.isOk) then s.pollAnswered.nextAnswer.received s.scanLen else none

/-- `s` with the answers that a `STEP` in Running uses taken off. -/
def State.stepAnswered (s : State) : State :=
  if s.topen then
    (if s.cfg.polling && !s.nextAnswer.isOk then s.answered else s.pollAnswered.answered)
  else s

/-- The calls of a `STEP` in Running: the POLL frame's send when the device is polled, then, unless that failed, one
receive; none without the transport (R82, R240). -/
def State.stepCalls (s : State) : List Call :=
  if s.topen then
    (if s.cfg.polling then [.tSend (txFrame s.cfg s.cfg.tcPoll []) s.nextAnswer.isOk] else []) ++
      (if s.cfg.polling && !s.nextAnswer.isOk then []
        else [.tRecv s.scanLen s.cfg.rxTimeout (s.pollAnswered.nextAnswer.received s.scanLen)])
  else []

/-! ### Detection -/

/-- The answers of one further detection attempt that receives `bad`, or whatever string is given: close needs none,
then open, send, receive (R193). -/
def missAnswers (bad : List Byte) : List Answer := [.ok [], .ok [], .ok bad]

/-- The calls of that attempt at the rate of code `c`. -/
def missCalls (cfg : Cfg) (c : BitVec 3) (bad : List Byte) : List Call :=
  [.tClose, .tOpen cfg.deviceId (rate c) true] ++ ackCalls cfg cfg.tcProbe [] (bad.take (frameLen cfg 1))

/-- The baud codes `DETECT` goes on to, in its order: all but the assumed one (R193). -/
def otherCodes (first : BitVec 3) : List (BitVec 3) := baudCodes.filter fun c => c ≠ first

/-! ### The transport link -/

/-- What the trace shows of the transport: not held, or held at a rate. -/
inductive Link where
  | released
  | held (rate : Nat)
deriving DecidableEq, Repr

/-- The link after a call; `none` for a call made against R82: `T_OPEN` while held, or any other call while not. -/
def Link.after : Link → Call → Option Link
  | .released, .tOpen _ r true => some (.held r)
  | .released, .tOpen _ _ false => some .released
  | .held _, .tClose => some .released
  | .held r, .tSend _ _ => some (.held r)
  | .held r, .tRecv _ _ _ => some (.held r)
  | _, _ => none

/-- The link after a list of calls that starts with the link `l`. -/
def linkFrom (l : Link) (cs : List Call) : Option Link := cs.foldlM Link.after l

/-- The link after the whole transport trace, `none` if some call was made against R82. -/
def State.link (s : State) : Option Link := linkFrom .released s.trace

/-- The link that `TOPEN` and `BAUD_CUR` claim (R26, R32). -/
def State.claimedLink (s : State) : Link := if s.topen then .held (rate s.baudCur) else .released

/-- The arguments and outcomes the table of R80 allows for a call of a block configured with `c`. -/
def callOk (c : Cfg) : Call → Bool
  | .tOpen id r _ => decide (id = c.deviceId) && decide (r ∈ baudCodes.map rate)
  | .tClose => true
  | .tSend bs _ => decide (1 ≤ bs.length) && decide (bs.length ≤ c.pbCap)
  | .tRecv n t none => decide (1 ≤ n) && decide (n ≤ c.pbCap) && decide (t = c.rxTimeout)
  | .tRecv n t (some bs) =>
    decide (1 ≤ n) && decide (n ≤ c.pbCap) && decide (t = c.rxTimeout) && decide (bs.length ≤ n)

/-! ### The tables of R190 and R273 -/

/-- The states a command is valid from (R190). -/
def validFrom : Instr → List Phase
  | .open_ => [.closed]
  | .start => [.authenticated, .stopped]
  | .stop => [.running]
  | .step => [.running]
  | .reneg => [.authenticated]
  | .cfgwin => [.authenticated]
  | .nop | .close | .reset | .cset _ | .cget | .ccrc _ =>
    [.closed, .opening, .negotiating, .authenticated, .running, .stopped]

/-- The states a command may end in, from state `p`, having been valid there: on success, and on failure (R190). -/
def endsIn (i : Instr) (p : Phase) (success : Bool) : List Phase :=
  match i, success with
  | .open_, true => [.authenticated]
  | .open_, false => [.closed, .opening, .negotiating, .authenticated]
  | .close, _ => [.closed]
  | .start, true => [.running]
  | .stop, true => [.stopped]
  | .reset, _ => [.closed]
  | _, _ => [p]

/-- The codes a command can end with (R273). -/
def errsOf : Instr → List ErrCode
  | .nop | .close => [.noError]
  | .open_ => [.noError, .transport, .protocol, .authentication, .configuration, .precondition]
  | .start | .reneg | .cfgwin => [.noError, .transport, .protocol, .configuration, .precondition]
  | .stop | .step => [.noError, .transport, .protocol, .precondition]
  | .reset => [.noError, .transport]
  | .cset _ | .cget | .ccrc _ => [.noError, .precondition]

/-- The number of Packet Buffer bytes, from index 0, within which a sequencer command's stores lie (R106 to R109):
the longest frame it can send or receive. -/
def storeBound (i : Instr) (s : State) : Nat :=
  match i with
  | .open_ => frameLen s.cfg 8
  | .start | .stop | .reneg => frameLen s.cfg 1
  | .cfgwin => frameLen s.cfg 8
  | .step => s.scanLen
  | .reset => if s.topen then frameLen s.cfg 0 else 0
  | _ => 0

/-- The most transport calls a command can make (R205, R207, R171, R198, R240, R320). -/
def callBound : Instr → Nat
  | .open_ => 41
  | .reneg => 8
  | .start | .stop | .step | .reset | .cfgwin => 2
  | .close => 1
  | .nop | .cset _ | .cget | .ccrc _ => 0

/-! ### The invariant -/

/-- What holds after `HRESET` and after every step: the configuration is admissible, every store is inside its
array, `STATE` and the one-bit registers agree as R25 to R31 and R203 say, and the transport trace is one that R80
and R82 allow and that `TOPEN` and `BAUD_CUR` report. -/
structure State.Inv (s : State) : Prop where
  /-- The configuration meets R6. -/
  cfg_wf : s.cfg.wf = true
  /-- The Packet Buffer is in canonical form. -/
  pb_wf : Memory.wf s.pb = true
  /-- No byte outside the Packet Buffer has been written (R70). -/
  pb_within : Memory.within s.pb s.cfg.pbCap = true
  /-- `RAW` has at most `N_MAX` elements (R41). -/
  raw_le : s.raw.length ≤ s.cfg.nMax
  /-- `RXLEN` counts bytes that fitted the buffer (R46, R80). -/
  rxlen_le : s.rxlen.toNat ≤ s.cfg.pbCap
  /-- `TXLEN` is the length of a frame that fitted the buffer (R46, R165). -/
  txlen_le : s.txlen.toNat ≤ s.cfg.pbCap
  /-- `STATE = Closed` implies `TOPEN = 0` (R26). -/
  closed_released : s.phase = .closed → s.topen = false
  /-- Running and Stopped are reached only through a `START`, which locks (R190, R203). -/
  started_locked : s.phase = .running ∨ s.phase = .stopped → s.cfgLock = true
  /-- The window cannot change once locked, and `START` required it valid (R51, R203). -/
  locked_window : s.cfgLock = true → s.winValid = true
  /-- A scan is stored only while Running, and fills `RAW[0 .. DCOUNT-1]` (R29, R240). -/
  scan_stored : s.scanValid = true → s.cfgLock = true ∧ s.dcount ≤ s.raw.length
  /-- The bit of the code in `ERR` is set in `ESTICKY` (R28). -/
  err_sticky : s.esticky &&& s.err.stickyMask = s.err.stickyMask
  /-- Bit 0 of `ESTICKY` is never set (R28). -/
  sticky_zero : s.esticky.getLsbD 0 = false
  /-- An Overrun was a PreconditionError (R163). -/
  ovr_sticky : s.ovr = true → s.esticky.getLsbD 5 = true
  /-- The trace keeps R82, and `TOPEN` and `BAUD_CUR` say how it left the transport (R26, R32). -/
  link_claimed : s.link = some s.claimedLink
  /-- Every call and outcome is one the table of R80 allows. -/
  calls_ok : s.trace.all (callOk s.cfg) = true

end Sys2Proof.Machine
end

