-- ==== Sys2Proof/Certificates/Slice0/Obligations.lean ====
section
/-! DEFINITION. The statements for the provers. Each docstring names the rule of the spec it formalises. The
hypothesis `s.cfg.wf = true` says that the block was built with an admissible `Cfg` (R6). -/

open Sys2Proof Sys2Proof.Machine

/-! ### Command words -/

/-- R100, R101, R102, R103, R115: every instruction, with every operand, is read back from its word, and a word
decodes to it exactly when it agrees with that word on the bits the command reads. -/
def Obligations.DecodeEncode : Prop :=
  ∀ i : Instr, decode (encode i) = .ok i ∧ ∀ w : Word, (decode w = .ok i ↔ w &&& i.readMask = encode i)

/-- R102: every word decodes, to a command of R103 or to "illegal", by its opcode field alone. -/
def Obligations.DecodeTotal : Prop :=
  ∀ w : Word,
    if (opcField w).toNat ≤ 0x08 ∨ (0x10 ≤ (opcField w).toNat ∧ (opcField w).toNat ≤ 0x12) then
      ∃ i, decode w = .ok i ∧ i.opcode = opcField w
    else decode w = .error (.illegalOpcode (opcField w))

/-- R101: `A` is `w[15:8]` and `B` is `w[31:16]`, only `CSET` reads `A` and only `CCRC` reads `B`. -/
def Obligations.OperandsRead : Prop :=
  ∀ w w' : Word,
    (opcField w = 0x10 → decode w = .ok (.cset (w.extractLsb' 8 8))) ∧
    (opcField w = 0x12 → decode w = .ok (.ccrc (w.extractLsb' 16 16))) ∧
    (opcField w = opcField w' → (opcField w = 0x10 → w.extractLsb' 8 8 = w'.extractLsb' 8 8) →
      (opcField w = 0x12 → w.extractLsb' 16 16 = w'.extractLsb' 16 16) → decode w = decode w')

/-- R101, R103, R104, R115: words written out by the spec. -/
def Obligations.SampleWords : Prop :=
  decode 0x00000000 = .ok .nop ∧ decode 0x00000001 = .ok .open_ ∧ decode 0xFFFF0001 = .ok .open_ ∧
  decode 0x00000005 = .ok .step ∧ decode 0x00000008 = .ok .cfgwin ∧ decode 0x00003110 = .ok (.cset 0x31) ∧
  decode 0x00000011 = .ok .cget ∧ decode 0x00030012 = .ok (.ccrc 3) ∧
  decode 0x00000009 = .error (.illegalOpcode 0x09) ∧ decode 0x0000000F = .error (.illegalOpcode 0x0F) ∧
  decode 0x00000013 = .error (.illegalOpcode 0x13) ∧ decode 0x000000FF = .error (.illegalOpcode 0xFF)

/-! ### Steps -/

/-- R23, R102: when the host's next access writes a word that decodes to `i`, the step takes the access off the
list and is `exec` of `i`; the same for the host's own way of placing a word. -/
def Obligations.StepRunsDecoded : Prop :=
  (∀ (s : State) (w : Word) (q : List HostOp) (i : Instr), s.hostq = .regWrite 0 w :: q → decode w = .ok i →
    step s = exec i { s with hostq := q }) ∧
  (∀ (s : State) (nbits w : Nat) (i : Instr), decodeTableWord nbits w = some i →
    step (s.withFetchWord nbits w) = exec i s)

/-- R104: an illegal opcode changes `ERR` and `ESTICKY[5]` and nothing else. -/
def Obligations.IllegalCommand : Prop :=
  ∀ (s : State) (w : Word) (q : List HostOp), s.hostq = .regWrite 0 w :: q →
    (0x09 ≤ (opcField w).toNat ∧ (opcField w).toNat ≤ 0x0F) ∨ 0x13 ≤ (opcField w).toNat →
    step s = .next { s with hostq := q, err := .precondition, esticky := s.esticky ||| 0b100000 }

/-- R287, R302: with no host access, the block holds its state. That a step with no access is a step at all is the
model's choice (log entry 3). -/
def Obligations.IdleHolds : Prop := ∀ s : State, s.hostq = [] → step s = .next s

/-- R83, R273: every command of every well-configured block completes, with a code its row of the table of R273
admits. -/
def Obligations.CommandsComplete : Prop :=
  ∀ (i : Instr) (s : State), s.cfg.wf = true → ∃ t, exec i s = .next t ∧ t.err ∈ errsOf i

/-! ### Reset and the invariant -/

/-- R52, R300: `HRESET` closes the transport if it is held and puts every state element to its reset value; `PB` and
`RAW` are unspecified again. That the configuration, the inputs and the outputs stay is the model's choice (log
entries 1 and 11). -/
def Obligations.HresetValues : Prop :=
  ∀ (s : State) (q : List HostOp), s.hostq = .hreset :: q →
    step s = .next { State.resetOf s.cfg with
      trace := if s.topen then s.trace ++ [.tClose] else s.trace
      hostq := q, answers := s.answers, draws := s.draws, resets := s.resets + 1, reads := s.reads }

/-- R52: the table of reset values. -/
def Obligations.ResetTable : Prop :=
  ∀ c : Cfg, (State.resetOf c).phase = .closed ∧ (State.resetOf c).topen = false ∧
    (State.resetOf c).err = .noError ∧ (State.resetOf c).esticky = 0 ∧ (State.resetOf c).statusWord = 0 ∧
    (State.resetOf c).baudCur = c.initBaud ∧ (State.resetOf c).baudDes = c.initBaud ∧
    (State.resetOf c).pwLen = 0 ∧ (State.resetOf c).pw0 = 0 ∧ (State.resetOf c).pw1 = 0 ∧
    (State.resetOf c).winStart = 0 ∧ (State.resetOf c).winStop = 0 ∧ (State.resetOf c).winStep = 0 ∧
    (State.resetOf c).winType = 0 ∧ (State.resetOf c).winValid = false ∧ (State.resetOf c).dcount = 0 ∧
    (State.resetOf c).flags = 0 ∧ (State.resetOf c).idx = 0 ∧ (State.resetOf c).cur = 0 ∧
    (State.resetOf c).rem = 0 ∧ (State.resetOf c).data = 0 ∧ (State.resetOf c).crcout = 0 ∧
    (State.resetOf c).rxlen = 0 ∧ (State.resetOf c).txlen = 0

/-- The invariant holds after reset, of the reference block and of every admissible one. That `State.reset` is the
reference block's is the model's choice (log entry 1). -/
def Obligations.ResetInv : Prop := State.reset.Inv ∧ ∀ c : Cfg, c.wf = true → (State.resetOf c).Inv

/-- R25 to R32, R70, R80, R82, R203: every step keeps the invariant. -/
def Obligations.StepKeepsInv : Prop := ∀ s t : State, s.Inv → step s = .next t → t.Inv

/-- R28: bit `k` of `ESTICKY` is set whenever `ERR` is written with code `k`, for `k` in 1..5, and no other bit changes:
by a command, which always writes `ERR`, and by a faulting register access, which writes code 5. Only `HRESET` clears
a bit; bit 0 and bits 31 to 6 of the register read 0. -/
def Obligations.StickyErrors : Prop :=
  (∀ (s t : State) (w : Word) (q : List HostOp), s.hostq = .regWrite 0 w :: q → step s = .next t →
    ∀ k, t.esticky.getLsbD k = true ↔ s.esticky.getLsbD k = true ∨
      (t.err, k) ∈ ([(.transport, 1), (.protocol, 2), (.authentication, 3), (.configuration, 4),
        (.precondition, 5)] : List (ErrCode × Nat))) ∧
  (∀ s t : State, (∀ w q, s.hostq ≠ .regWrite 0 w :: q) → (∀ q, s.hostq ≠ .hreset :: q) → step s = .next t →
    (t.err = s.err ∧ t.esticky = s.esticky) ∨
      (t.err = .precondition ∧ ∀ k, t.esticky.getLsbD k = true ↔ s.esticky.getLsbD k = true ∨ k = 5)) ∧
  (∀ (s t : State) (q : List HostOp), s.hostq = .hreset :: q → step s = .next t → t.esticky = 0) ∧
  (∀ (s : State) (q : List HostOp), s.hostq = .regRead 0x03 :: q →
    ∃ v : Word, step s = .next { s with hostq := q, reads := s.reads ++ [(0x03, v)] } ∧
      (∀ k, 1 ≤ k → k ≤ 5 → v.getLsbD k = s.esticky.getLsbD k) ∧ v.getLsbD 0 = false ∧
      ∀ k, 6 ≤ k → v.getLsbD k = false)

/-- R29, R30, R31: `SCAN_VALID` is set by every successful `STEP`, `CFG_LOCK` by every successful `START`, `OVR` by
every refused cursor primitive, and only `HRESET` clears them. -/
def Obligations.OneWayBits : Prop :=
  ∀ s t : State, s.cfg.wf = true → step s = .next t →
    match s.hostq with
    | .hreset :: _ => t.scanValid = false ∧ t.cfgLock = false ∧ t.ovr = false
    | .regWrite n w :: _ =>
      (t.scanValid = true ↔ s.scanValid = true ∨ (n = 0 ∧ decode w = .ok .step ∧ t.err = .noError)) ∧
      (t.cfgLock = true ↔ s.cfgLock = true ∨ (n = 0 ∧ decode w = .ok .start ∧ t.err = .noError)) ∧
      (t.ovr = true ↔ s.ovr = true ∨
        (n = 0 ∧ (∃ i, decode w = .ok i ∧ i.isSequencer = false) ∧ t.err = .precondition))
    | _ => t.scanValid = s.scanValid ∧ t.cfgLock = s.cfgLock ∧ t.ovr = s.ovr

/-! ### Register accesses -/

/-- R22: reading a reserved number or `CMD` returns 0, writing a reserved number or a read-only register is discarded,
and neither has any other effect. -/
def Obligations.IgnoredAccesses : Prop :=
  ∀ (s : State) (n : BitVec 8) (v : Word) (q : List HostOp),
    (s.hostq = .regRead n :: q → n = 0 ∨ 0x1B ≤ n.toNat →
      step s = .next { s with hostq := q, reads := s.reads ++ [(n, 0)] }) ∧
    (s.hostq = .regWrite n v :: q →
      0x1B ≤ n.toNat ∨ n ∈ [0x01, 0x02, 0x03, 0x0D, 0x0E, 0x10, 0x11, 0x12, 0x13, 0x14, 0x15, 0x18, 0x19, 0x1A] →
      step s = .next { s with hostq := q })

/-- R24, R25: the `STATUS` view, with the code of each state, and reading it has no side effect. -/
def Obligations.StatusRead : Prop :=
  ∀ (s : State) (q : List HostOp), s.hostq = .regRead 0x01 :: q →
    ∃ v : Word, step s = .next { s with hostq := q, reads := s.reads ++ [(0x01, v)] } ∧
      (s.phase, v.toNat % 8) ∈ ([(.closed, 0), (.opening, 1), (.negotiating, 2), (.authenticated, 3), (.running, 4),
        (.stopped, 5)] : List (Phase × Nat)) ∧
      v.getLsbD 3 = s.topen ∧ v.getLsbD 4 = s.scanValid ∧ v.getLsbD 5 = s.cfgLock ∧ v.getLsbD 6 = s.ovr ∧
      v.toNat < 2 ^ 7

/-- R21, R27, R74: what a read of each plain register returns, zero-extended, without any side effect; `ERR` reads as
the number of its code. -/
def Obligations.PlainReads : Prop :=
  ∀ (s : State) (n : BitVec 8) (v : Word) (q : List HostOp), s.hostq = .regRead n :: q →
    (n = 0x02 ∧ (s.err, v) ∈ ([(.noError, 0), (.transport, 1), (.protocol, 2), (.authentication, 3),
      (.configuration, 4), (.precondition, 5)] : List (ErrCode × Word))) ∨
    (n, v) ∈ ([(0x03, (s.esticky &&& 0b111110).setWidth 32),
      (0x04, s.baudCur.setWidth 32), (0x05, s.baudDes.setWidth 32), (0x06, s.pwLen.setWidth 32), (0x07, s.pw0),
      (0x08, s.pw1), (0x09, s.winStart.setWidth 32), (0x0A, s.winStop.setWidth 32), (0x0B, s.winStep.setWidth 32),
      (0x0C, s.winType.setWidth 32), (0x0D, s.flags.setWidth 32), (0x0E, BitVec.ofNat 32 s.dcount),
      (0x0F, s.idx.setWidth 32), (0x16, s.cur.setWidth 32), (0x17, s.rem.setWidth 32), (0x18, s.data.setWidth 32),
      (0x19, s.crcout.setWidth 32), (0x1A, s.rxlen.setWidth 32)] : List (BitVec 8 × Word)) →
    step s = .next { s with hostq := q, reads := s.reads ++ [(n, v)] }

/-- R21, R32, R34, R50: a write that is allowed keeps the listed bits and discards the rest, and changes nothing
else. -/
def Obligations.WritesKeepListedBits : Prop :=
  ∀ (s t : State) (n : BitVec 8) (v : Word) (q : List HostOp), s.hostq = .regWrite n v :: q →
    (n, t) ∈ ([(0x05, { s with baudDes := v.setWidth 3 }), (0x0F, { s with idx := v.setWidth 16 }),
      (0x16, { s with cur := v.setWidth 16 }), (0x17, { s with rem := v.setWidth 16 })] : List (BitVec 8 × State)) ∨
    (s.cfgLock = false ∧ (n, t) ∈ ([(0x06, { s with pwLen := v.setWidth 4 }), (0x07, { s with pw0 := v }),
      (0x08, { s with pw1 := v }), (0x09, { s with winStart := v.setWidth 16 }),
      (0x0A, { s with winStop := v.setWidth 16 }), (0x0B, { s with winStep := v.setWidth 16 }),
      (0x0C, { s with winType := v.setWidth 16 })] : List (BitVec 8 × State))) ∨
    (s.cfgLock = false ∧ s.phase = .closed ∧ (n, t) = (0x04, { s with baudCur := v.setWidth 3 })) →
    step s = .next { t with hostq := q }

/-- R51: a locked write changes no register and is a PreconditionError. -/
def Obligations.LockedWrites : Prop :=
  ∀ (s : State) (n : BitVec 8) (v : Word) (q : List HostOp), s.hostq = .regWrite n v :: q →
    (s.cfgLock = true ∧ 0x06 ≤ n.toNat ∧ n.toNat ≤ 0x0C) ∨
      (n = 0x04 ∧ (s.cfgLock = true ∨ s.phase ≠ .closed)) →
    step s = .next { s with hostq := q, err := .precondition, esticky := s.esticky ||| 0b100000 }

/-- R246: `DIST` is the raw word at `IDX` times the scale, exactly, or 0 with PreconditionError. -/
def Obligations.DistRead : Prop :=
  ∀ (s : State) (q : List HostOp), s.cfg.wf = true → s.hostq = .regRead 0x10 :: q →
    if s.scanValid = true ∧ s.idx.toNat < s.dcount then
      ∃ v : Word, v.toNat = (s.rawRead s.idx.toNat).toNat * s.cfg.scaleNum ∧
        step s = .next { s with hostq := q, reads := s.reads ++ [(0x10, v)] }
    else step s = .next { s with
      hostq := q, reads := s.reads ++ [(0x10, 0)], err := .precondition, esticky := s.esticky ||| 0b100000 }

/-- R247: `DMIN` and `DMAX` are the two `Cfg` limits at a valid index, or 0 with PreconditionError. -/
def Obligations.LimitReads : Prop :=
  ∀ (s : State) (q : List HostOp) (n : BitVec 8) (limit : Word), s.hostq = .regRead n :: q →
    (n = 0x11 ∧ limit = s.cfg.rangeMin) ∨ (n = 0x12 ∧ limit = s.cfg.rangeMax) →
    if s.idx.toNat < s.dcount then step s = .next { s with hostq := q, reads := s.reads ++ [(n, limit)] }
    else step s = .next { s with
      hostq := q, reads := s.reads ++ [(n, 0)], err := .precondition, esticky := s.esticky ||| 0b100000 }

/-- R248: `RESOL` is an exact product; `ANG_START` and `ANG_STOP` are sums modulo `2^32`; no side effect. -/
def Obligations.AngleReads : Prop :=
  ∀ (s : State) (q : List HostOp) (n : BitVec 8), s.cfg.wf = true → s.hostq = .regRead n :: q →
    n = 0x13 ∨ n = 0x14 ∨ n = 0x15 →
    ∃ v : Word, step s = .next { s with hostq := q, reads := s.reads ++ [(n, v)] } ∧
      (n = 0x13 → v.toNat = s.winStep.toNat * s.cfg.angleLsb) ∧
      (n = 0x14 → v.toNat = (s.cfg.angleOrigin.toNat + s.winStart.toNat * s.cfg.angleLsb) % 2 ^ 32) ∧
      (n = 0x15 → v.toNat = (s.cfg.angleOrigin.toNat + s.winStop.toNat * s.cfg.angleLsb) % 2 ^ 32)

/-- R38: the window is valid exactly under the three conditions, and `DCOUNT` is then the number of the active
indices `WIN_START, WIN_START + WIN_STEP, ...` that do not exceed `WIN_STOP`, else 0. -/
def Obligations.WindowCount : Prop :=
  ∀ s : State,
    (s.winValid = true ↔ 1 ≤ s.winStep.toNat ∧ s.winStart.toNat ≤ s.winStop.toNat ∧
      (s.winStop.toNat - s.winStart.toNat) / s.winStep.toNat + 1 ≤ (s.cfg.pbCap - s.cfg.hdrLen - 3) / 2) ∧
    (s.winValid = true → s.dcount = (s.winStop.toNat - s.winStart.toNat) / s.winStep.toNat + 1 ∧
      s.dcount = Set.ncard { i : Nat | i ≤ s.winStop.toNat ∧ ∃ k, i = s.winStart.toNat + k * s.winStep.toNat }) ∧
    (s.winValid = false → s.dcount = 0)

/-! ### The checksum -/

/-- R146: with `CRC_POLY[0] = 1`, two equal-length byte lists that differ in exactly one position have different
checksums; with `CRC_POLY[0] = 0`, two one-byte messages collide. -/
def Obligations.CrcDetectsOneByte : Prop :=
  (∀ (c : Cfg) (bs : List Byte) (k : Nat) (v : Byte), c.crcPoly.getLsbD 0 = true → k < bs.length →
    bs[k]? ≠ some v → crcBytes c (bs.set k v) ≠ crcBytes c bs) ∧
  (∀ c : Cfg, c.crcPoly.getLsbD 0 = false → ∃ b b' : Byte, b ≠ b' ∧ crcBytes c [b] = crcBytes c [b'])

/-- R147: with polynomial `0x01` the checksum is a plain XOR; with every other odd one `T` is a bijection other than
the identity, and some byte list and a permutation of it have different checksums. -/
def Obligations.CrcOrderDependent : Prop :=
  (∀ (c : Cfg) (bs : List Byte), c.crcPoly = 0x01 →
    crcBytes c bs = bs.foldl (fun x b => x ^^^ b) (c.crcInit ^^^ c.crcXorout)) ∧
  (∀ c : Cfg, c.crcPoly.getLsbD 0 = true → c.crcPoly ≠ 0x01 →
    Function.Bijective (step8 c.crcPoly 0) ∧ step8 c.crcPoly 0 ≠ id ∧
      ∃ bs bs' : List Byte, bs.Perm bs' ∧ crcBytes c bs ≠ crcBytes c bs')

/-- R149: for a fixed length the checksum is affine over GF(2). -/
def Obligations.CrcAffine : Prop :=
  ∀ (c : Cfg) (a b : List Byte), a.length = b.length →
    crcBytes c a ^^^ crcBytes c b ^^^ crcBytes c (List.replicate a.length 0) =
      crcBytes c (List.zipWith (fun x y => x ^^^ y) a b)

/-- R144, R145: `CRC` depends on the bytes of the range only, not on where they stand nor on any other state, and
that of the empty range is `CRC_INIT XOR CRC_XOROUT`. -/
def Obligations.CrcOfRange : Prop :=
  (∀ (s s' : State) (a a' n : Nat), s.cfg = s'.cfg → (∀ i, i < n → s.pbRead (a + i) = s'.pbRead (a' + i)) →
    s.crc a n = s'.crc a' n) ∧
  (∀ (s : State) (a : Nat), s.crc a 0 = s.cfg.crcInit ^^^ s.cfg.crcXorout)

/-- R142, R147, R148, R150: reference values in `CFG_REF`. -/
def Obligations.CrcReferenceValues : Prop :=
  crcBytes Cfg.ref [0x31, 0x32, 0x33, 0x34, 0x35, 0x36, 0x37, 0x38, 0x39] = 0xF4 ∧
  crcBytes Cfg.ref [0x31, 0x32, 0x33] = 0xC0 ∧ crcBytes Cfg.ref [0x01, 0x02] = 0x1B ∧
  crcBytes Cfg.ref [0x02, 0x01] = 0x2D ∧ step8 0x07 0 0x80 = 0x89 ∧ step8 0x07 0 0xFF = 0xF3 ∧
  crcBytes Cfg.ref [] = 0x00

/-! ### Frames -/

/-- R112: the bytes of a frame determine its type and payload, and the payload determines its fields: the flags byte
and samples of a scan, the four window fields, the baud code. -/
def Obligations.FramesRoundTrip : Prop :=
  (∀ (c : Cfg) (hdr p p' : List Byte) (ty ty' : Byte), p.length = p'.length →
    frameBytes c hdr ty p = frameBytes c hdr ty' p' → ty = ty' ∧ p = p') ∧
  (∀ (f f' : Byte) (ws ws' : List Half), scanPayload f ws = scanPayload f' ws' → f = f' ∧ ws = ws') ∧
  (∀ s s' : State, s.windowPayload = s'.windowPayload →
    s.winStart = s'.winStart ∧ s.winStop = s'.winStop ∧ s.winStep = s'.winStep ∧ s.winType = s'.winType) ∧
  (∀ c c' : BitVec 3, baudPayload c = baudPayload c' → c = c')

/-- R168, R173: what `CHECK` answers and where it leaves `CUR`, the one register it changes. A short string is rejected
with `CUR` kept. A string of the expected length is accepted exactly when it is a sealed frame of the expected header
and type; `CUR` is one past the first header byte that differs, and at the payload when the header is right, whatever
the type and the checksum. A sealed frame with one byte changed, wherever that byte stands, is rejected. -/
def Obligations.CheckAcceptsSealed : Prop :=
  ∀ (s : State) (tr : Byte) (n : Nat), s.cfg.wf = true → frameLen s.cfg n ≤ s.cfg.pbCap →
    (∀ bs : List Byte, bs.length < frameLen s.cfg n →
      (checkFrame tr (frameLen s.cfg n)).run (s.store bs) = .ok false (s.store bs)) ∧
    (∀ bs : List Byte, bs.length = frameLen s.cfg n →
      ∃ accepted c, (checkFrame tr (frameLen s.cfg n)).run (s.store bs) = .ok accepted { s.store bs with cur := c } ∧
        (accepted = true ↔ ∃ payload, payload.length = n ∧ bs = rxFrame s.cfg tr payload) ∧
        (∀ i, i < s.cfg.hdrLen → bs.take i = s.cfg.hdrRx.take i → bs[i]? ≠ s.cfg.hdrRx[i]? →
          c = BitVec.ofNat 16 (i + 1)) ∧
        (bs.take s.cfg.hdrLen = s.cfg.hdrRx → c = BitVec.ofNat 16 (s.cfg.hdrLen + 1))) ∧
    (∀ (payload : List Byte) (k : Nat) (v : Byte), payload.length = n → k < frameLen s.cfg n →
      (rxFrame s.cfg tr payload)[k]? ≠ some v →
      (checkFrame tr (frameLen s.cfg n)).run (s.store ((rxFrame s.cfg tr payload).set k v)) =
        .ok false { s.store ((rxFrame s.cfg tr payload).set k v) with
          cur := BitVec.ofNat 16 ((if k < s.cfg.hdrLen then k else s.cfg.hdrLen) + 1) })

/-! ### The cursor commands -/

/-- R174: `CSET` writes one byte, advances `CUR` and decrements `REM`; or it is refused and changes no buffer byte. -/
def Obligations.CsetWrites : Prop :=
  ∀ (s : State) (a : Byte), s.cfg.wf = true →
    (s.rem ≠ 0 → s.cur.toNat < s.cfg.pbCap →
      ∃ t, exec (.cset a) s = .next t ∧
        t = { s with pb := t.pb, cur := s.cur + 1, rem := s.rem - 1, err := .noError } ∧
        t.cur.toNat = s.cur.toNat + 1 ∧ t.rem.toNat + 1 = s.rem.toNat ∧
        ∀ x, t.pbRead x = if x = s.cur.toNat then a else s.pbRead x) ∧
    (s.rem = 0 ∨ s.cfg.pbCap ≤ s.cur.toNat →
      exec (.cset a) s = .next { s with ovr := true, err := .precondition, esticky := s.esticky ||| 0b100000 })

/-- R175: `CGET` reads one byte into `DATA` and advances `CUR`; or it is refused and `DATA` keeps its value. -/
def Obligations.CgetReads : Prop :=
  ∀ s : State, s.cfg.wf = true →
    (s.cur.toNat < s.cfg.pbCap →
      (s.cur + 1).toNat = s.cur.toNat + 1 ∧
      exec .cget s = .next { s with data := s.pbRead s.cur.toNat, cur := s.cur + 1, err := .noError }) ∧
    (s.cfg.pbCap ≤ s.cur.toNat →
      exec .cget s = .next { s with ovr := true, err := .precondition, esticky := s.esticky ||| 0b100000 })

/-- R141, R148: `CCRC` puts the checksum of the `B` bytes from `CUR` on into `CRCOUT`; a range that leaves the buffer
is refused. -/
def Obligations.CcrcComputes : Prop :=
  ∀ (s : State) (b : Half),
    (s.cur.toNat + b.toNat ≤ s.cfg.pbCap →
      exec (.ccrc b) s = .next { s with
        crcout := crcBytes s.cfg ((List.range b.toNat).map fun i => s.pbRead (s.cur.toNat + i))
        err := .noError }) ∧
    (s.cfg.pbCap < s.cur.toNat + b.toNat →
      exec (.ccrc b) s = .next { s with ovr := true, err := .precondition, esticky := s.esticky ||| 0b100000 })

/-! ### The sequencer: what holds of every command -/

/-- R197: a command outside its "valid from" set changes `ERR` and `ESTICKY[5]` and nothing else. -/
def Obligations.WrongState : Prop :=
  ∀ (i : Instr) (s : State), s.phase ∉ validFrom i →
    exec i s = .next { s with err := .precondition, esticky := s.esticky ||| 0b100000 }

/-- R190: from a state it is valid in, a command succeeds or fails into the states of its row. -/
def Obligations.StateTable : Prop :=
  ∀ (i : Instr) (s : State), s.cfg.wf = true → s.phase ∈ validFrom i →
    ∃ t, exec i s = .next t ∧ t.phase ∈ endsIn i s.phase (decide (t.err = .noError))

/-- R28, R34, R39, R40, R44, R45, R190, R191, R203, R205, R301: what each command leaves unchanged. -/
def Obligations.CommandFrame : Prop :=
  ∀ (i : Instr) (s t : State), s.cfg.wf = true → exec i s = .next t →
    t.cfg = s.cfg ∧ t.hostq = s.hostq ∧ t.reads = s.reads ∧ t.resets = s.resets ∧
    t.baudDes = s.baudDes ∧ t.pwLen = s.pwLen ∧ t.pw0 = s.pw0 ∧ t.pw1 = s.pw1 ∧
    t.winStart = s.winStart ∧ t.winStop = s.winStop ∧ t.winStep = s.winStep ∧ t.winType = s.winType ∧
    t.idx = s.idx ∧ t.esticky = s.esticky ||| t.err.stickyMask ∧
    (i ∉ [.open_, .close, .start, .stop, .reset] → t.phase = s.phase) ∧
    (i ∉ [.open_, .close, .reset, .reneg] → t.topen = s.topen) ∧
    (i ∉ [.open_, .reneg] → t.baudCur = s.baudCur) ∧
    (i ≠ .start → t.cfgLock = s.cfgLock) ∧
    (i ≠ .step → t.flags = s.flags ∧ t.raw = s.raw ∧ t.scanValid = s.scanValid) ∧
    (i ≠ .cget → t.data = s.data) ∧ ((∀ b, i ≠ .ccrc b) → t.crcout = s.crcout) ∧
    (i.isSequencer = true → t.ovr = s.ovr) ∧
    (i.isSequencer = false ∨ i = .nop → t.trace = s.trace ∧ t.answers = s.answers ∧ t.draws = s.draws) ∧
    (i.isSequencer = false ∨ i ∈ [.nop, .close] → t.rxlen = s.rxlen ∧ t.txlen = s.txlen) ∧
    (i ∈ [.nop, .close] ∨ (∃ b, i = .ccrc b) → t.cur = s.cur ∧ t.rem = s.rem)

/-- R70, R106, R165, R167, R205, R240: a command changes no buffer byte outside the frames it can exchange; `CSET`
changes none but the one at `CUR`, and `CGET`, `CCRC`, `NOP`, `CLOSE` change none. -/
def Obligations.BufferFrame : Prop :=
  ∀ (i : Instr) (s t : State), s.cfg.wf = true → exec i s = .next t →
    (i.isSequencer = true → ∀ a, storeBound i s ≤ a → t.pbRead a = s.pbRead a) ∧
    ((∃ v, i = .cset v) → ∀ a, a ≠ s.cur.toNat → t.pbRead a = s.pbRead a) ∧
    (i = .cget ∨ (∃ b, i = .ccrc b) ∨ i = .nop ∨ i = .close → ∀ a, t.pbRead a = s.pbRead a)

/-- R320: a command appends to the transport trace at most its bound of calls; the longest is `OPEN` with 41. -/
def Obligations.CallBounds : Prop :=
  ∀ (i : Instr) (s t : State), s.cfg.wf = true → exec i s = .next t →
    ∃ calls, t.trace = s.trace ++ calls ∧ calls.length ≤ callBound i

/-- R311: what the host has put into the buffer, the cursor and the codec's other registers cannot disturb a
sequencer command: two states that differ there only are taken to states that differ there only, with the same
transport trace. -/
def Obligations.HostCannotDisturb : Prop :=
  ∀ (i : Instr) (s s' : State), i.isSequencer = true → s.cfg.wf = true →
    s' = { s with pb := s'.pb, cur := s'.cur, rem := s'.rem, rxlen := s'.rxlen, txlen := s'.txlen,
                  data := s'.data, crcout := s'.crcout } →
    ∃ t t', exec i s = .next t ∧ exec i s' = .next t' ∧
      t' = { t with pb := t'.pb, cur := t'.cur, rem := t'.rem, rxlen := t'.rxlen, txlen := t'.txlen,
                    data := t'.data, crcout := t'.crcout }

/-- R36, R108, R194: the password registers reach the link only as the `PW_LEN` bytes that `OPEN` sends: states that
agree on those bytes, and for every other command states with any passwords, are taken to states that differ in
the password registers only. -/
def Obligations.PasswordOnlyInOpen : Prop :=
  ∀ (i : Instr) (s s' : State), s' = { s with pw0 := s'.pw0, pw1 := s'.pw1 } →
    i ≠ .open_ ∨ s'.password = s.password →
    ∃ t, exec i s = .next t ∧ exec i s' = .next { t with pw0 := s'.pw0, pw1 := s'.pw1 }

/-! ### NOP, CLOSE, RESET -/

/-- R209: `NOP` clears `ERR` and writes nothing else. -/
def Obligations.NopClearsErr : Prop := ∀ s : State, exec .nop s = .next { s with err := .noError }

/-- R207, R280: `CLOSE` releases the transport if it is held, goes to Closed and never fails. -/
def Obligations.CloseReleases : Prop :=
  ∀ s : State, exec .close s = .next { s with
    phase := .closed, topen := false, err := .noError
    trace := if s.topen then s.trace ++ [.tClose] else s.trace }

/-- R205: `RESET` without the transport only goes to Closed; with it, it sends one RESET frame, awaits nothing,
closes, and reports TransportError exactly when the send failed. -/
def Obligations.ResetCommand : Prop :=
  ∀ s : State, s.cfg.wf = true →
    (s.topen = false → exec .reset s = .next { s with phase := .closed, err := .noError }) ∧
    (s.topen = true →
      ∃ t, exec .reset s = .next t ∧
        t = { s.answered with
          phase := .closed, topen := false
          err := if s.nextAnswer.isOk then .noError else .transport
          esticky := if s.nextAnswer.isOk then s.esticky else s.esticky ||| 0b000010
          trace := s.trace ++ [.tSend (txFrame s.cfg s.cfg.tcReset []) s.nextAnswer.isOk, .tClose]
          pb := t.pb, cur := BitVec.ofNat 16 (s.cfg.hdrLen + 2), rem := 0
          txlen := BitVec.ofNat 16 (s.cfg.hdrLen + 2) } ∧
        t.Holds s (txFrame s.cfg s.cfg.tcReset []))

/-! ### OPEN -/

/-- R192: a wrong password length is a ConfigurationError before any transport call. -/
def Obligations.OpenChecksPasswordLength : Prop :=
  ∀ s : State, s.phase = .closed → s.pwLen.toNat ≠ s.cfg.pwLenReq →
    exec .open_ s = .next { s with err := .configuration, esticky := s.esticky ||| 0b010000 }

/-- R191, R192, R196, R198, R200: where `OPEN` rests, for every behaviour of the environment; it succeeds only with
the required password length, a valid window and the desired rate in use. -/
def Obligations.OpenRests : Prop :=
  ∀ s : State, s.cfg.wf = true → s.phase = .closed → s.topen = false →
    ∃ t, exec .open_ s = .next t ∧
      (t.err, t.phase, t.topen) ∈ ([
        (.noError, .authenticated, true),
        (.configuration, .closed, false), (.transport, .closed, false),
        (.transport, .opening, true), (.transport, .opening, false), (.protocol, .opening, true),
        (.transport, .negotiating, true), (.authentication, .negotiating, true),
        (.transport, .authenticated, true), (.transport, .authenticated, false),
        (.protocol, .authenticated, true), (.configuration, .authenticated, true)] :
          List (ErrCode × Phase × Bool)) ∧
      (t.err = .noError → s.pwLen.toNat = s.cfg.pwLenReq ∧ t.baudCur = s.baudDes ∧ s.winValid = true)

/-- R191, R193, R194, R198, R200: an `OPEN` whose device answers the probe at code `c`, the assumed rate or, after
the misses `bads`, a later one, and echoes the password. When the device also acknowledges what is left to do (the
change to the desired rate if it is not in use, with the probe at the new rate; then the window if it is valid), the
calls it makes, in order, and all it leaves changed: an invalid window ends it with ConfigurationError and no WINDOW
frame, all else with success. And whatever the environment answers after the echo, `OPEN` does what `RENEG` and, if
that succeeds, `CFGWIN` do from the Authenticated state it has reached. -/
def Obligations.OpenSucceeds : Prop :=
  ∀ (s : State) (b0 b1 b2 first : List Byte) (bads others : List (List Byte)) (c : BitVec 3) (calls : List Call)
    (more : List Answer), s.cfg.wf = true → s.phase = .closed → s.pwLen.toNat = s.cfg.pwLenReq →
    (∀ x ∈ bads, x.take (frameLen s.cfg 1) ≠ ackFrame s.cfg s.cfg.tcProbe) →
    first :: others = bads ++ [ackFrame s.cfg s.cfg.tcProbe] →
    (s.baudCur :: otherCodes s.baudCur)[bads.length]? = some c →
    calls = [.tOpen s.cfg.deviceId (rate s.baudCur) true] ++
      ackCalls s.cfg s.cfg.tcProbe [] (first.take (frameLen s.cfg 1)) ++
      (((otherCodes s.baudCur).zip others).flatMap fun x => missCalls s.cfg x.1 x.2) ++
      [.tSend (txFrame s.cfg s.cfg.tcPasswd s.password) true,
        .tRecv (frameLen s.cfg s.pwLen.toNat) s.cfg.rxTimeout (some (rxFrame s.cfg s.cfg.tcPasswd s.password))] →
    s.answers = .ok b0 :: .ok b1 :: .ok first :: others.flatMap missAnswers ++
      .ok b2 :: .ok (rxFrame s.cfg s.cfg.tcPasswd s.password) :: more →
    (∀ (b3 b4 b5 b6 : List Byte) (rest : List Answer),
      more = (if s.baudDes = c then [] else
          [.ok b3, .ok (ackFrame s.cfg s.cfg.tcBaud), .ok b4, .ok b5, .ok (ackFrame s.cfg s.cfg.tcProbe)]) ++
        (if s.winValid then [.ok b6, .ok (ackFrame s.cfg s.cfg.tcWindow)] else []) ++ rest →
      ∃ t, exec .open_ s = .next t ∧
        t = { s with
          phase := .authenticated, topen := true, baudCur := s.baudDes
          err := if s.winValid then .noError else .configuration
          esticky := if s.winValid then s.esticky else s.esticky ||| 0b010000
          answers := rest
          trace := s.trace ++ calls ++
            (if s.baudDes = c then [] else
              ackCalls s.cfg s.cfg.tcBaud (baudPayload s.baudDes) (ackFrame s.cfg s.cfg.tcBaud) ++
              [.tClose, .tOpen s.cfg.deviceId (rate s.baudDes) true] ++
              ackCalls s.cfg s.cfg.tcProbe [] (ackFrame s.cfg s.cfg.tcProbe)) ++
            (if s.winValid then ackCalls s.cfg s.cfg.tcWindow s.windowPayload (ackFrame s.cfg s.cfg.tcWindow) else [])
          pb := t.pb, cur := t.cur, rem := 0, rxlen := t.rxlen, txlen := t.txlen } ∧
        (if s.winValid then
          t.cur = BitVec.ofNat 16 (s.cfg.hdrLen + 2) ∧ t.rxlen = BitVec.ofNat 16 (s.cfg.hdrLen + 3) ∧
          t.txlen = BitVec.ofNat 16 (s.cfg.hdrLen + 10) ∧
          t.Holds s (overlay (ackFrame s.cfg s.cfg.tcWindow) (txFrame s.cfg s.cfg.tcWindow s.windowPayload))
        else if s.baudDes = c then
          t.cur = BitVec.ofNat 16 (s.cfg.hdrLen + 1 + s.pwLen.toNat) ∧
          t.rxlen = BitVec.ofNat 16 (frameLen s.cfg s.pwLen.toNat) ∧
          t.txlen = BitVec.ofNat 16 (frameLen s.cfg s.pwLen.toNat) ∧
          t.Holds s (overlay (rxFrame s.cfg s.cfg.tcPasswd s.password) (ackFrame s.cfg s.cfg.tcProbe))
        else
          t.cur = BitVec.ofNat 16 (s.cfg.hdrLen + 2) ∧ t.rxlen = BitVec.ofNat 16 (s.cfg.hdrLen + 3) ∧
          t.txlen = BitVec.ofNat 16 (s.cfg.hdrLen + 2) ∧
          t.Holds s (overlay (ackFrame s.cfg s.cfg.tcProbe) (rxFrame s.cfg s.cfg.tcPasswd s.password)))) ∧
    ∃ u v, exec .reneg u = .next v ∧
      (exec .open_ s = if v.err = .noError then exec .cfgwin v else .next v) ∧
      u = { s with
        phase := .authenticated, topen := true, baudCur := c, answers := more, trace := s.trace ++ calls
        pb := u.pb, cur := BitVec.ofNat 16 (s.cfg.hdrLen + 1 + s.pwLen.toNat), rem := 0
        rxlen := BitVec.ofNat 16 (frameLen s.cfg s.pwLen.toNat)
        txlen := BitVec.ofNat 16 (frameLen s.cfg s.pwLen.toNat) } ∧
      u.Holds s (overlay (rxFrame s.cfg s.cfg.tcPasswd s.password) (ackFrame s.cfg s.cfg.tcProbe))

/-- R193: when the device answers at none of the rates tried before code `c` and answers at `c`, `OPEN` tries the
assumed rate and then the other codes in increasing order, each once, and leaves `BAUD_CUR` at `c`. The script ends
the command at the password's send, which fails. -/
def Obligations.OpenFindsRate : Prop :=
  ∀ (s : State) (b0 b1 b2 bad : List Byte) (bads : List (List Byte)) (c : BitVec 3) (rest : List Answer),
    s.cfg.wf = true → s.phase = .closed → s.pwLen.toNat = s.cfg.pwLenReq →
    (∀ x ∈ bad :: bads, x.take (frameLen s.cfg 1) ≠ ackFrame s.cfg s.cfg.tcProbe) →
    (otherCodes s.baudCur)[bads.length]? = some c →
    s.answers = .ok b0 :: .ok b1 :: .ok bad :: bads.flatMap missAnswers ++
      (.ok b2 :: .ok b2 :: .ok (ackFrame s.cfg s.cfg.tcProbe) :: .fail :: rest) →
    ∃ t, exec .open_ s = .next t ∧ t.phase = .negotiating ∧ t.topen = true ∧ t.err = .transport ∧
      t.baudCur = c ∧ t.answers = rest ∧
      t.trace = s.trace ++ [.tOpen s.cfg.deviceId (rate s.baudCur) true] ++
        ackCalls s.cfg s.cfg.tcProbe [] (bad.take (frameLen s.cfg 1)) ++
        (((otherCodes s.baudCur).zip bads).flatMap fun x => missCalls s.cfg x.1 x.2) ++
        missCalls s.cfg c (ackFrame s.cfg s.cfg.tcProbe) ++
        [.tSend (txFrame s.cfg s.cfg.tcPasswd s.password) false]

/-- R193, R196: when the device answers at no rate, `OPEN` makes eight probe exchanges, one per rate, and rests in
Opening with ProtocolError, at the last rate tried. -/
def Obligations.OpenFindsNoRate : Prop :=
  ∀ (s : State) (b0 b1 bad : List Byte) (bads : List (List Byte)) (rest : List Answer),
    s.cfg.wf = true → s.phase = .closed → s.pwLen.toNat = s.cfg.pwLenReq → bads.length = 7 →
    (∀ x ∈ bad :: bads, x.take (frameLen s.cfg 1) ≠ ackFrame s.cfg s.cfg.tcProbe) →
    s.answers = .ok b0 :: .ok b1 :: .ok bad :: bads.flatMap missAnswers ++ rest →
    ∃ t, exec .open_ s = .next t ∧ t.phase = .opening ∧ t.topen = true ∧ t.err = .protocol ∧
      t.baudCur = (if s.baudCur = 7 then 6 else 7) ∧ t.answers = rest ∧
      t.cur = ackCursor s.cfg (s.cfg.hdrLen + 2) (bads.getLast?.map fun x => x.take (frameLen s.cfg 1)) ∧
      t.trace = s.trace ++ [.tOpen s.cfg.deviceId (rate s.baudCur) true] ++
        ackCalls s.cfg s.cfg.tcProbe [] (bad.take (frameLen s.cfg 1)) ++
        (((otherCodes s.baudCur).zip bads).flatMap fun x => missCalls s.cfg x.1 x.2)

/-- R168, R194: any answer to the PASSWD frame but the valid echo is an AuthenticationError, resting in Negotiating, with
one PASSWD frame sent: the calls in order and all `OPEN` leaves changed. -/
def Obligations.WrongEchoRejected : Prop :=
  ∀ (s : State) (b0 b1 b2 bs got : List Byte) (rest : List Answer), s.cfg.wf = true → s.phase = .closed →
    s.pwLen.toNat = s.cfg.pwLenReq → got = bs.take (frameLen s.cfg s.pwLen.toNat) →
    got ≠ rxFrame s.cfg s.cfg.tcPasswd s.password →
    s.answers = .ok b0 :: .ok b1 :: .ok (ackFrame s.cfg s.cfg.tcProbe) :: .ok b2 :: .ok bs :: rest →
    ∃ t, exec .open_ s = .next t ∧
      t = { s with
        phase := .negotiating, topen := true, err := .authentication, esticky := s.esticky ||| 0b001000
        answers := rest
        trace := s.trace ++ [.tOpen s.cfg.deviceId (rate s.baudCur) true] ++
          ackCalls s.cfg s.cfg.tcProbe [] (ackFrame s.cfg s.cfg.tcProbe) ++
          [.tSend (txFrame s.cfg s.cfg.tcPasswd s.password) true,
            .tRecv (frameLen s.cfg s.pwLen.toNat) s.cfg.rxTimeout (some got)]
        pb := t.pb, cur := echoCursor s.cfg s.password got, rem := 0
        rxlen := BitVec.ofNat 16 got.length, txlen := BitVec.ofNat 16 (frameLen s.cfg s.pwLen.toNat) } ∧
      t.Holds s (overlay got (overlay (txFrame s.cfg s.cfg.tcPasswd s.password) (ackFrame s.cfg s.cfg.tcProbe)))

/-! ### RENEG -/

/-- R198, R199: with the desired rate in use, `RENEG` exchanges no frame and changes nothing but `ERR`. -/
def Obligations.RenegNoChange : Prop :=
  ∀ s : State, s.phase = .authenticated → s.baudDes = s.baudCur →
    exec .reneg s = .next { s with err := .noError }

/-- R198, R199: a device that acknowledges the change at the old rate and the probe at the new rate: one BAUD
exchange, close, reopen, one PROBE exchange, and `BAUD_CUR` is the desired rate. -/
def Obligations.RenegSucceeds : Prop :=
  ∀ (s : State) (b0 b1 b2 : List Byte) (rest : List Answer), s.cfg.wf = true → s.phase = .authenticated →
    s.topen = true → s.baudDes ≠ s.baudCur →
    s.answers = .ok b0 :: .ok (ackFrame s.cfg s.cfg.tcBaud) :: .ok b1 :: .ok b2 ::
      .ok (ackFrame s.cfg s.cfg.tcProbe) :: rest →
    ∃ t, exec .reneg s = .next t ∧
      t = { s with
        baudCur := s.baudDes, err := .noError, answers := rest
        trace := s.trace ++ ackCalls s.cfg s.cfg.tcBaud (baudPayload s.baudDes) (ackFrame s.cfg s.cfg.tcBaud) ++
          [.tClose, .tOpen s.cfg.deviceId (rate s.baudDes) true] ++
          ackCalls s.cfg s.cfg.tcProbe [] (ackFrame s.cfg s.cfg.tcProbe)
        pb := t.pb, cur := BitVec.ofNat 16 (s.cfg.hdrLen + 2), rem := 0
        rxlen := BitVec.ofNat 16 (s.cfg.hdrLen + 3), txlen := BitVec.ofNat 16 (s.cfg.hdrLen + 2) } ∧
      t.Holds s (ackFrame s.cfg s.cfg.tcProbe)

/-- R168, R198: a change command that is not acknowledged at the old rate leaves the transport and `BAUD_CUR` as they
are: TransportError when the transport failed or is not held, ProtocolError when the answer is rejected. Beside `ERR`
and its sticky bit, only what the exchange leaves is changed. -/
def Obligations.RenegNotAcknowledged : Prop :=
  ∀ s : State, s.cfg.wf = true → s.phase = .authenticated → s.baudDes ≠ s.baudCur →
    s.reply s.cfg.tcBaud ≠ .ok →
    ∃ t, exec .reneg s = .next t ∧
      t = { s.afterExchange s.cfg.tcBaud (baudPayload s.baudDes) with
        err := (s.reply s.cfg.tcBaud).toErr
        esticky := s.esticky ||| (s.reply s.cfg.tcBaud).toErr.stickyMask
        pb := t.pb } ∧
      t.Holds s (overlay (s.exchangeReceived.getD []) (txFrame s.cfg s.cfg.tcBaud (baudPayload s.baudDes)))

/-- R168, R198: when the new rate cannot be opened or is not verified, the transport is closed and reopened at the old
rate with no further frame: ConfigurationError with the transport held at the old rate, or TransportError with it
released when that open fails; `BAUD_DES` and the state are kept. The verification fails by a failed send, a failed
receive, or an answer that is not the ACK of PROBE; each leaves the codec's registers and the buffer as said. -/
def Obligations.RenegReverts : Prop :=
  ∀ (s : State) (b0 b1 b2 : List Byte) (last r : Answer) (rest tries : List Answer) (calls : List Call)
    (sent : Nat) (under : List Byte) (received : Option (List Byte)),
    s.cfg.wf = true → s.phase = .authenticated → s.topen = true → s.baudDes ≠ s.baudCur →
    r.received (frameLen s.cfg 1) ≠ some (ackFrame s.cfg s.cfg.tcProbe) →
    (tries, calls, sent, under, received) ∈ ([
      ([.fail], [.tOpen s.cfg.deviceId (rate s.baudDes) false],
        s.cfg.hdrLen + 3, ackFrame s.cfg s.cfg.tcBaud, none),
      ([.ok b1, .fail], [.tOpen s.cfg.deviceId (rate s.baudDes) true,
        .tSend (txFrame s.cfg s.cfg.tcProbe []) false, .tClose],
        s.cfg.hdrLen + 2, overlay (txFrame s.cfg s.cfg.tcProbe []) (ackFrame s.cfg s.cfg.tcBaud), none),
      ([.ok b1, .ok b2, r], [.tOpen s.cfg.deviceId (rate s.baudDes) true,
        .tSend (txFrame s.cfg s.cfg.tcProbe []) true,
        .tRecv (frameLen s.cfg 1) s.cfg.rxTimeout (r.received (frameLen s.cfg 1)), .tClose],
        s.cfg.hdrLen + 2, overlay (txFrame s.cfg s.cfg.tcProbe []) (ackFrame s.cfg s.cfg.tcBaud),
        r.received (frameLen s.cfg 1))] :
          List (List Answer × List Call × Nat × List Byte × Option (List Byte))) →
    s.answers = .ok b0 :: .ok (ackFrame s.cfg s.cfg.tcBaud) :: tries ++ last :: rest →
    ∃ t, exec .reneg s = .next t ∧
      t = { s with
        topen := last.isOk
        err := if last.isOk then .configuration else .transport
        esticky := s.esticky ||| (if last.isOk then 0b010000 else 0b000010)
        answers := rest
        trace := s.trace ++ ackCalls s.cfg s.cfg.tcBaud (baudPayload s.baudDes) (ackFrame s.cfg s.cfg.tcBaud) ++
          .tClose :: calls ++ [.tOpen s.cfg.deviceId (rate s.baudCur) last.isOk]
        pb := t.pb, cur := ackCursor s.cfg (s.cfg.hdrLen + 2) received, rem := 0
        rxlen := rxlenAfter (BitVec.ofNat 16 (s.cfg.hdrLen + 3)) received, txlen := BitVec.ofNat 16 sent } ∧
      t.Holds s (overlay (received.getD []) under)

/-! ### CFGWIN, START, STOP -/

/-- R200, R201: outside Authenticated a PreconditionError; an invalid window is a ConfigurationError with no frame; a
valid one is pushed by one exchange, whose outcome is the command's, and nothing else changes but what the exchange leaves. -/
def Obligations.CfgwinPushes : Prop :=
  ∀ s : State, s.cfg.wf = true →
    (s.phase ≠ .authenticated →
      exec .cfgwin s = .next { s with err := .precondition, esticky := s.esticky ||| 0b100000 }) ∧
    (s.phase = .authenticated → s.winValid = false →
      exec .cfgwin s = .next { s with err := .configuration, esticky := s.esticky ||| 0b010000 }) ∧
    (s.phase = .authenticated → s.winValid = true →
      ∃ t, exec .cfgwin s = .next t ∧
        t = { s.afterExchange s.cfg.tcWindow s.windowPayload with
          err := (s.reply s.cfg.tcWindow).toErr
          esticky := s.esticky ||| (s.reply s.cfg.tcWindow).toErr.stickyMask
          pb := t.pb } ∧
        t.Holds s (overlay (s.exchangeReceived.getD []) (txFrame s.cfg s.cfg.tcWindow s.windowPayload)))

/-- R203: `START` in a state it is valid in: an invalid window is a ConfigurationError with no frame; else one
exchange, and Running with `CFG_LOCK` set exactly when it is acknowledged. -/
def Obligations.StartRuns : Prop :=
  ∀ s : State, s.cfg.wf = true → s.phase = .authenticated ∨ s.phase = .stopped →
    (s.winValid = false →
      exec .start s = .next { s with err := .configuration, esticky := s.esticky ||| 0b010000 }) ∧
    (s.winValid = true →
      ∃ t, exec .start s = .next t ∧
        t = { s.afterExchange s.cfg.tcStart [] with
          phase := if s.reply s.cfg.tcStart = .ok then .running else s.phase
          cfgLock := if s.reply s.cfg.tcStart = .ok then true else s.cfgLock
          err := (s.reply s.cfg.tcStart).toErr
          esticky := s.esticky ||| (s.reply s.cfg.tcStart).toErr.stickyMask
          pb := t.pb } ∧
        t.Holds s (overlay (s.exchangeReceived.getD []) (txFrame s.cfg s.cfg.tcStart [])))

/-- R204: outside Running a PreconditionError; in Running one exchange, and Stopped exactly when it is
acknowledged. -/
def Obligations.StopHalts : Prop :=
  ∀ s : State, s.cfg.wf = true →
    (s.phase ≠ .running →
      exec .stop s = .next { s with err := .precondition, esticky := s.esticky ||| 0b100000 }) ∧
    (s.phase = .running →
      ∃ t, exec .stop s = .next t ∧
        t = { s.afterExchange s.cfg.tcStop [] with
          phase := if s.reply s.cfg.tcStop = .ok then .stopped else .running
          err := (s.reply s.cfg.tcStop).toErr
          esticky := s.esticky ||| (s.reply s.cfg.tcStop).toErr.stickyMask
          pb := t.pb } ∧
        t.Holds s (overlay (s.exchangeReceived.getD []) (txFrame s.cfg s.cfg.tcStop [])))

/-- R171, R172, R201, R203, R204: `CFGWIN`, `START` and `STOP` whose exchange is acknowledged: all they leave
changed, the buffer included. -/
def Obligations.AcknowledgedCommands : Prop :=
  ∀ (s : State) (b0 : List Byte) (rest : List Answer) (i : Instr) (tc : Byte) (payload : List Byte) (p : Phase)
    (lock : Bool), s.cfg.wf = true → s.topen = true → s.winValid = true →
    (i = .cfgwin ∧ s.phase = .authenticated ∧ tc = s.cfg.tcWindow ∧ payload = s.windowPayload ∧
        p = .authenticated ∧ lock = s.cfgLock) ∨
      (i = .start ∧ (s.phase = .authenticated ∨ s.phase = .stopped) ∧ tc = s.cfg.tcStart ∧ payload = [] ∧
        p = .running ∧ lock = true) ∨
      (i = .stop ∧ s.phase = .running ∧ tc = s.cfg.tcStop ∧ payload = [] ∧ p = .stopped ∧ lock = s.cfgLock) →
    s.answers = .ok b0 :: .ok (ackFrame s.cfg tc) :: rest →
    ∃ t, exec i s = .next t ∧
      t = { s with
        phase := p, cfgLock := lock, err := .noError, answers := rest
        trace := s.trace ++ ackCalls s.cfg tc payload (ackFrame s.cfg tc)
        pb := t.pb, cur := BitVec.ofNat 16 (s.cfg.hdrLen + 2), rem := 0
        rxlen := BitVec.ofNat 16 (s.cfg.hdrLen + 3)
        txlen := BitVec.ofNat 16 (s.cfg.hdrLen + 2 + payload.length) } ∧
      t.Holds s (overlay (ackFrame s.cfg tc) (txFrame s.cfg tc payload))

/-! ### STEP -/

/-- R240: a `STEP` that receives a whole sealed scan frame, polled for or not: the flags, the samples and all else it
leaves changed; `RAW` from `DCOUNT` on is kept. -/
def Obligations.StepStoresScan : Prop :=
  ∀ (s : State) (b0 : List Byte) (rest : List Answer) (f : Byte) (ws : List Half), s.cfg.wf = true →
    s.phase = .running → s.topen = true → ws.length = s.dcount →
    s.answers = (if s.cfg.polling then [.ok b0] else []) ++
      .ok (rxFrame s.cfg s.cfg.trScan (scanPayload f ws)) :: rest →
    ∃ t, exec .step s = .next t ∧
      t = { s with
        flags := f.extractLsb' 0 5, raw := t.raw, scanValid := true, err := .noError, answers := rest
        trace := s.trace ++
          (if s.cfg.polling then [.tSend (txFrame s.cfg s.cfg.tcPoll []) true] else []) ++
          [.tRecv s.scanLen s.cfg.rxTimeout (some (rxFrame s.cfg s.cfg.trScan (scanPayload f ws)))]
        pb := t.pb, cur := BitVec.ofNat 16 (s.scanLen - 1), rem := if s.cfg.polling then 0 else s.rem
        rxlen := BitVec.ofNat 16 s.scanLen
        txlen := if s.cfg.polling then BitVec.ofNat 16 (s.cfg.hdrLen + 2) else s.txlen } ∧
      (∀ k, t.rawRead k = ws.getD k (s.rawRead k)) ∧
      t.Holds s (rxFrame s.cfg s.cfg.trScan (scanPayload f ws))

/-- R168, R242: a `STEP` in Running that ends with an error keeps `FLAGS`, `RAW` and `SCAN_VALID`; what it changes is
`ERR` and its sticky bit, what a poll's `ENCODE` writes, the received bytes and `RXLEN`, and `CUR` as `CHECK` leaves
it. -/
def Obligations.FailedStepKeepsScan : Prop :=
  ∀ s t : State, s.cfg.wf = true → s.phase = .running → exec .step s = .next t → t.err ≠ .noError →
    t = { s.stepAnswered with
      err := t.err, esticky := s.esticky ||| t.err.stickyMask
      trace := s.trace ++ s.stepCalls
      pb := t.pb
      cur := checkCursor s.cfg s.scanLen
        (if s.cfg.polling then BitVec.ofNat 16 (s.cfg.hdrLen + 2) else s.cur) s.scanReceived
      rem := if s.cfg.polling then 0 else s.rem
      rxlen := rxlenAfter s.rxlen s.scanReceived
      txlen := if s.cfg.polling then BitVec.ofNat 16 (s.cfg.hdrLen + 2) else s.txlen } ∧
    t.Holds s (overlay (s.scanReceived.getD [])
      (if s.cfg.polling then txFrame s.cfg s.cfg.tcPoll [] else []))

/-- R82, R109, R113, R173, R240, R243: polled for or not, `STEP` in Running is a TransportError exactly when the transport
is not held, the poll's send fails or the receive fails, and succeeds exactly when the received string is a whole
sealed scan frame of `DCOUNT` samples; any other string is a ProtocolError. The receive takes the answer after the
poll's, if there is a poll. -/
def Obligations.StepAcceptsExactly : Prop :=
  ∀ (s : State) (received : Answer), s.cfg.wf = true → s.phase = .running →
    received = (if s.cfg.polling then s.answered.nextAnswer else s.nextAnswer) →
    ∃ t, exec .step s = .next t ∧ t.trace = s.trace ++ s.stepCalls ∧
      (t.err = .transport ↔
        s.topen = false ∨ (s.cfg.polling = true ∧ s.nextAnswer = .fail) ∨ received = .fail) ∧
      (t.err = .noError ↔ s.topen = true ∧ (s.cfg.polling = true → s.nextAnswer ≠ .fail) ∧
        ∃ bs f ws, received = .ok bs ∧ ws.length = s.dcount ∧
          bs.take s.scanLen = rxFrame s.cfg s.cfg.trScan (scanPayload f ws)) ∧
      (t.err = .transport ∨ t.err = .noError ∨ t.err = .protocol)
end

