-- ==== Sys2Proof/Laws/Checksum.lean ====
section
/-! SUPPORT. The checksum step by step: its recursion over a byte list, and that one step is linear (R142, R149). -/

namespace Sys2Proof.Machine

/-- One shift is linear over XOR. -/
theorem crcShift_xor (p x y : Byte) : crcShift p (x ^^^ y) = crcShift p x ^^^ crcShift p y := by
  have hs : (x ^^^ y) <<< 1 = x <<< 1 ^^^ y <<< 1 := BitVec.shiftLeft_xor_distrib ..
  simp only [crcShift, BitVec.msb_xor, hs]
  have key : ∀ a b : Byte, a ^^^ b = a ^^^ p ^^^ (b ^^^ p) ∧ a ^^^ b ^^^ p = a ^^^ p ^^^ b ∧
      a ^^^ b ^^^ p = a ^^^ (b ^^^ p) := by
    intro a b
    refine ⟨?_, ?_, ?_⟩ <;>
      · apply BitVec.eq_of_getLsbD_eq
        intro k _
        simp only [BitVec.getLsbD_xor]
        cases a.getLsbD k <;> cases b.getLsbD k <;> cases p.getLsbD k <;> rfl
  cases x.msb <;> cases y.msb
  · rfl
  · exact (key _ _).2.2
  · exact (key _ _).2.1
  · exact (key _ _).1

/-- Any number of shifts is. -/
theorem crcShift_iterate_xor (p : Byte) (n : Nat) (x y : Byte) :
    (crcShift p)^[n] (x ^^^ y) = (crcShift p)^[n] x ^^^ (crcShift p)^[n] y := by
  induction n generalizing x y with
  | zero => rfl
  | succ n ih => rw [Function.iterate_succ_apply, crcShift_xor, ih]; rfl

/-- `STEP8(acc, b)` depends on `acc XOR b` only: it is the table `T` at that value (R142). -/
theorem step8_table (p acc b : Byte) : step8 p acc b = step8 p 0 (acc ^^^ b) := by simp [step8]

/-- The accumulator after a list and one more byte. -/
theorem crc_foldl_snoc (p acc : Byte) (bs : List Byte) (b : Byte) :
    (bs ++ [b]).foldl (step8 p) acc = step8 p (bs.foldl (step8 p) acc) b := by simp

theorem crcBytes_nil (c : Cfg) : crcBytes c [] = c.crcInit ^^^ c.crcXorout := rfl

end Sys2Proof.Machine
end

