-- ==== Sys2Proof/Laws/Memory.lean ====
section
/-! SUPPORT. The laws of the Packet Buffer: read after write, the canonical form, ranges. -/

namespace Sys2Proof.Machine

/-! ### Cell lists -/

theorem Memory.read_write_same (m : Memory) (a : Nat) (v : Byte) :
    Memory.read (Memory.write m a v) a = some v := by
  induction m with
  | nil => simp [Memory.write, Memory.read]
  | cons c m ih =>
    simp only [Memory.write]
    split
    · simp [Memory.read]
    · split
      · simp [Memory.read]
      · simp only [Memory.read]
        rw [if_neg (by omega), ih]

theorem Memory.read_write_ne (m : Memory) {a b : Nat} (v : Byte) (h : b ≠ a) :
    Memory.read (Memory.write m a v) b = Memory.read m b := by
  induction m with
  | nil => simp [Memory.write, Memory.read, Ne.symm h]
  | cons c m ih =>
    simp only [Memory.write]
    split
    · simp [Memory.read, Ne.symm h]
    · split
      · rename_i h1 h2
        simp [Memory.read, Ne.symm h, ← h2]
      · simp only [Memory.read, ih]

theorem Memory.mem_write {m : Memory} {a : Nat} {v : Byte} {c : Host.Cell}
    (h : c ∈ Memory.write m a v) : c = (a, v) ∨ c ∈ m := by
  induction m with
  | nil => simpa [Memory.write] using h
  | cons d m ih =>
    simp only [Memory.write] at h
    split at h
    · simpa using h
    · split at h
      · rcases List.mem_cons.1 h with h | h
        · exact .inl h
        · exact .inr (List.mem_cons_of_mem _ h)
      · rcases List.mem_cons.1 h with h | h
        · exact .inr (by simp [h])
        · exact (ih h).imp_right (List.mem_cons_of_mem _)

/-- A write keeps the canonical form. -/
theorem Memory.write_wf {m : Memory} (h : Memory.wf m = true) (a : Nat) (v : Byte) :
    Memory.wf (Memory.write m a v) = true := by
  simp only [Memory.wf, decide_eq_true_eq] at h ⊢
  induction m with
  | nil => simp [Memory.write]
  | cons c m ih =>
    obtain ⟨hc, hm⟩ := List.pairwise_cons.1 h
    simp only [Memory.write]
    split
    · rename_i hlt
      refine List.pairwise_cons.2 ⟨?_, h⟩
      intro d hd
      rcases List.mem_cons.1 hd with hd | hd
      · simpa [hd] using hlt
      · exact Nat.lt_trans hlt (hc d hd)
    · split
      · rename_i heq
        exact List.pairwise_cons.2 ⟨fun d hd => by simpa [heq] using hc d hd, hm⟩
      · refine List.pairwise_cons.2 ⟨?_, ih hm⟩
        intro d hd
        rcases Memory.mem_write hd with rfl | hd
        · simp only
          omega
        · exact hc d hd

/-- A write inside the buffer keeps every cell inside it. -/
theorem Memory.write_within {m : Memory} {cap a : Nat} (h : Memory.within m cap = true) (v : Byte) (ha : a < cap) :
    Memory.within (Memory.write m a v) cap = true := by
  simp only [Memory.within, List.all_eq_true, decide_eq_true_eq] at h ⊢
  intro c hc
  rcases Memory.mem_write hc with rfl | hc
  · exact ha
  · exact h c hc

/-- The buffer of the reset state has the canonical form, with nothing listed. -/
theorem State.reset_pb_wf : Memory.wf State.reset.pb = true := rfl

theorem Memory.writeList_wf {m : Memory} (h : Memory.wf m = true) (a : Nat) (bs : List Byte) :
    Memory.wf (Memory.writeList m a bs) = true := by
  induction bs generalizing m a with
  | nil => exact h
  | cons b bs ih => exact ih (Memory.write_wf h a b) _

theorem Memory.writeList_within {m : Memory} {cap a : Nat} {bs : List Byte} (h : Memory.within m cap = true)
    (ha : a + bs.length ≤ cap) : Memory.within (Memory.writeList m a bs) cap = true := by
  induction bs generalizing m a with
  | nil => exact h
  | cons b bs ih =>
    simp only [List.length_cons] at ha
    exact ih (Memory.write_within h b (by omega)) (by omega)

/-- Below and above the bytes written nothing changes. -/
theorem Memory.read_writeList_out (m : Memory) (a : Nat) (bs : List Byte) {x : Nat}
    (h : x < a ∨ a + bs.length ≤ x) : Memory.read (Memory.writeList m a bs) x = Memory.read m x := by
  induction bs generalizing m a with
  | nil => rfl
  | cons b bs ih =>
    simp only [List.length_cons] at h
    rw [Memory.writeList, ih _ _ (by omega), Memory.read_write_ne _ _ (by omega)]

/-- Each byte written is read back. -/
theorem Memory.read_writeList_in (m : Memory) (a : Nat) (bs : List Byte) {i : Nat} (h : i < bs.length) :
    Memory.read (Memory.writeList m a bs) (a + i) = some bs[i] := by
  induction bs generalizing m a i with
  | nil => simp at h
  | cons b bs ih =>
    rw [Memory.writeList]
    cases i with
    | zero => simp [Memory.read_writeList_out _ _ _ (Or.inl (Nat.lt_succ_self a)), Memory.read_write_same]
    | succ i =>
      have h' : i < bs.length := by simpa using h
      simpa [Nat.add_assoc, Nat.add_comm 1 i] using ih (Memory.write m a b) (a + 1) h'

theorem Memory.writeList_append (m : Memory) (a : Nat) (bs cs : List Byte) :
    Memory.writeList m a (bs ++ cs) = Memory.writeList (Memory.writeList m a bs) (a + bs.length) cs := by
  induction bs generalizing m a with
  | nil => rfl
  | cons b bs ih =>
    simp only [List.cons_append, Memory.writeList, ih, List.length_cons]
    congr 1
    omega

/-! ### Reading the buffer of a state -/

@[simp] theorem State.pbRange_length (s : State) (a n : Nat) : (s.pbRange a n).length = n := by
  induction n generalizing a with
  | zero => rfl
  | succ n ih => simp [State.pbRange, ih]

theorem State.pbRange_getElem (s : State) (a n : Nat) {i : Nat} (h : i < (s.pbRange a n).length) :
    (s.pbRange a n)[i] = s.pbRead (a + i) := by
  induction n generalizing a i with
  | zero => simp [State.pbRange] at h
  | succ n ih =>
    cases i with
    | zero => simp [State.pbRange]
    | succ i =>
      have h' : i < (s.pbRange (a + 1) n).length := by simpa using h
      simpa [State.pbRange, Nat.add_assoc, Nat.add_comm 1 i] using ih (a + 1) h'

/-- A range reads as a list exactly when each of its bytes does. -/
theorem State.pbRange_eq_iff (s : State) (a : Nat) (bs : List Byte) :
    s.pbRange a bs.length = bs ↔ ∀ (i : Nat) (h : i < bs.length), s.pbRead (a + i) = bs[i] := by
  constructor
  · intro h i hi
    have := s.pbRange_getElem a bs.length (i := i) (by simpa using hi)
    rw [← this]
    exact List.getElem_of_eq h _
  · intro h
    refine List.ext_getElem (by simp) fun i h1 h2 => ?_
    rw [s.pbRange_getElem, h i h2]

/-- Two states that read alike on a range have the same range. -/
theorem State.pbRange_congr {s t : State} {a b n : Nat} (h : ∀ i, i < n → t.pbRead (a + i) = s.pbRead (b + i)) :
    t.pbRange a n = s.pbRange b n := by
  refine List.ext_getElem (by simp) fun i h1 h2 => ?_
  rw [t.pbRange_getElem, s.pbRange_getElem, h i (by simpa using h1)]

theorem State.pbRange_append (s : State) (a m n : Nat) :
    s.pbRange a (m + n) = s.pbRange a m ++ s.pbRange (a + m) n := by
  induction m generalizing a with
  | zero => simp [State.pbRange]
  | succ m ih =>
    rw [show m + 1 + n = (m + n) + 1 by omega]
    simp only [State.pbRange, ih, List.cons_append]
    rw [show a + 1 + m = a + (m + 1) by omega]

/-- A byte of a list just written is read back. -/
theorem State.pbRead_writeList_in {t : State} {m : Memory} {a : Nat} {bs : List Byte}
    (h : t.pb = Memory.writeList m a bs) {i : Nat} (hi : i < bs.length) : t.pbRead (a + i) = bs[i] := by
  simp [State.pbRead, h, Memory.read_writeList_in _ _ _ hi]

/-- A byte outside a list just written reads as before. -/
theorem State.pbRead_writeList_out {s t : State} {a x : Nat} {bs : List Byte}
    (h : t.pb = Memory.writeList s.pb a bs) (hr : t.resets = s.resets) (hx : x < a ∨ a + bs.length ≤ x) :
    t.pbRead x = s.pbRead x := by
  simp [State.pbRead, h, hr, Memory.read_writeList_out _ _ _ hx]

/-- A list just written is the range it was written to. -/
theorem State.pbRange_writeList {t : State} {m : Memory} {a : Nat} {bs : List Byte}
    (h : t.pb = Memory.writeList m a bs) : t.pbRange a bs.length = bs :=
  (t.pbRange_eq_iff a bs).2 fun _ hi => State.pbRead_writeList_in h hi

/-! ### Raw samples -/

/-- After a commit the words written are the ones read. -/
theorem rawStore_getD_in (old new : List Half) (d : Half) {k : Nat} (h : k < new.length) :
    (rawStore old new).getD k d = new[k] := by
  rw [rawStore, List.getD_eq_getElem?_getD, List.getElem?_append_left h, List.getElem?_eq_getElem h]
  rfl

/-- Elements from the number of words on are kept. -/
theorem rawStore_getD_out (old new : List Half) (d : Half) {k : Nat} (h : new.length ≤ k) :
    (rawStore old new).getD k d = old.getD k d := by
  simp only [rawStore, List.getD_eq_getElem?_getD]
  rw [List.getElem?_append_right h, List.getElem?_drop]
  congr 2
  omega

theorem rawStore_length (old new : List Half) :
    (rawStore old new).length = max old.length new.length := by
  simp only [rawStore, List.length_append, List.length_drop]
  omega

end Sys2Proof.Machine
end

