-- ==== Sys2Proof/Laws/State.lean ====
section
/-! SUPPORT. What each named update of the state does to each field: one rewrite rule per field per update. -/

namespace Sys2Proof.Machine

/-! ### `done` -/

@[simp] theorem State.done_phase (s : State) (e : ErrCode) : (s.done e).phase = s.phase := rfl
@[simp] theorem State.done_topen (s : State) (e : ErrCode) : (s.done e).topen = s.topen := rfl
@[simp] theorem State.done_err (s : State) (e : ErrCode) : (s.done e).err = e := rfl
@[simp] theorem State.done_esticky (s : State) (e : ErrCode) : (s.done e).esticky = s.esticky ||| e.stickyMask := rfl
@[simp] theorem State.done_scanValid (s : State) (e : ErrCode) : (s.done e).scanValid = s.scanValid := rfl
@[simp] theorem State.done_cfgLock (s : State) (e : ErrCode) : (s.done e).cfgLock = s.cfgLock := rfl
@[simp] theorem State.done_ovr (s : State) (e : ErrCode) : (s.done e).ovr = s.ovr := rfl
@[simp] theorem State.done_baudCur (s : State) (e : ErrCode) : (s.done e).baudCur = s.baudCur := rfl
@[simp] theorem State.done_baudDes (s : State) (e : ErrCode) : (s.done e).baudDes = s.baudDes := rfl
@[simp] theorem State.done_pwLen (s : State) (e : ErrCode) : (s.done e).pwLen = s.pwLen := rfl
@[simp] theorem State.done_pw0 (s : State) (e : ErrCode) : (s.done e).pw0 = s.pw0 := rfl
@[simp] theorem State.done_pw1 (s : State) (e : ErrCode) : (s.done e).pw1 = s.pw1 := rfl
@[simp] theorem State.done_winStart (s : State) (e : ErrCode) : (s.done e).winStart = s.winStart := rfl
@[simp] theorem State.done_winStop (s : State) (e : ErrCode) : (s.done e).winStop = s.winStop := rfl
@[simp] theorem State.done_winStep (s : State) (e : ErrCode) : (s.done e).winStep = s.winStep := rfl
@[simp] theorem State.done_winType (s : State) (e : ErrCode) : (s.done e).winType = s.winType := rfl
@[simp] theorem State.done_flags (s : State) (e : ErrCode) : (s.done e).flags = s.flags := rfl
@[simp] theorem State.done_idx (s : State) (e : ErrCode) : (s.done e).idx = s.idx := rfl
@[simp] theorem State.done_raw (s : State) (e : ErrCode) : (s.done e).raw = s.raw := rfl
@[simp] theorem State.done_cur (s : State) (e : ErrCode) : (s.done e).cur = s.cur := rfl
@[simp] theorem State.done_rem (s : State) (e : ErrCode) : (s.done e).rem = s.rem := rfl
@[simp] theorem State.done_data (s : State) (e : ErrCode) : (s.done e).data = s.data := rfl
@[simp] theorem State.done_crcout (s : State) (e : ErrCode) : (s.done e).crcout = s.crcout := rfl
@[simp] theorem State.done_rxlen (s : State) (e : ErrCode) : (s.done e).rxlen = s.rxlen := rfl
@[simp] theorem State.done_txlen (s : State) (e : ErrCode) : (s.done e).txlen = s.txlen := rfl
@[simp] theorem State.done_pb (s : State) (e : ErrCode) : (s.done e).pb = s.pb := rfl
@[simp] theorem State.done_cfg (s : State) (e : ErrCode) : (s.done e).cfg = s.cfg := rfl
@[simp] theorem State.done_hostq (s : State) (e : ErrCode) : (s.done e).hostq = s.hostq := rfl
@[simp] theorem State.done_answers (s : State) (e : ErrCode) : (s.done e).answers = s.answers := rfl
@[simp] theorem State.done_draws (s : State) (e : ErrCode) : (s.done e).draws = s.draws := rfl
@[simp] theorem State.done_resets (s : State) (e : ErrCode) : (s.done e).resets = s.resets := rfl
@[simp] theorem State.done_trace (s : State) (e : ErrCode) : (s.done e).trace = s.trace := rfl
@[simp] theorem State.done_reads (s : State) (e : ErrCode) : (s.done e).reads = s.reads := rfl

/-! ### Overrun -/

@[simp] theorem State.overrun_phase (s : State) : (s.overrun).phase = s.phase := rfl
@[simp] theorem State.overrun_topen (s : State) : (s.overrun).topen = s.topen := rfl
@[simp] theorem State.overrun_err (s : State) : (s.overrun).err = .precondition := rfl
@[simp] theorem State.overrun_esticky (s : State) : (s.overrun).esticky = s.esticky ||| 0b100000 := rfl
@[simp] theorem State.overrun_scanValid (s : State) : (s.overrun).scanValid = s.scanValid := rfl
@[simp] theorem State.overrun_cfgLock (s : State) : (s.overrun).cfgLock = s.cfgLock := rfl
@[simp] theorem State.overrun_ovr (s : State) : (s.overrun).ovr = true := rfl
@[simp] theorem State.overrun_baudCur (s : State) : (s.overrun).baudCur = s.baudCur := rfl
@[simp] theorem State.overrun_baudDes (s : State) : (s.overrun).baudDes = s.baudDes := rfl
@[simp] theorem State.overrun_pwLen (s : State) : (s.overrun).pwLen = s.pwLen := rfl
@[simp] theorem State.overrun_pw0 (s : State) : (s.overrun).pw0 = s.pw0 := rfl
@[simp] theorem State.overrun_pw1 (s : State) : (s.overrun).pw1 = s.pw1 := rfl
@[simp] theorem State.overrun_winStart (s : State) : (s.overrun).winStart = s.winStart := rfl
@[simp] theorem State.overrun_winStop (s : State) : (s.overrun).winStop = s.winStop := rfl
@[simp] theorem State.overrun_winStep (s : State) : (s.overrun).winStep = s.winStep := rfl
@[simp] theorem State.overrun_winType (s : State) : (s.overrun).winType = s.winType := rfl
@[simp] theorem State.overrun_flags (s : State) : (s.overrun).flags = s.flags := rfl
@[simp] theorem State.overrun_idx (s : State) : (s.overrun).idx = s.idx := rfl
@[simp] theorem State.overrun_raw (s : State) : (s.overrun).raw = s.raw := rfl
@[simp] theorem State.overrun_cur (s : State) : (s.overrun).cur = s.cur := rfl
@[simp] theorem State.overrun_rem (s : State) : (s.overrun).rem = s.rem := rfl
@[simp] theorem State.overrun_data (s : State) : (s.overrun).data = s.data := rfl
@[simp] theorem State.overrun_crcout (s : State) : (s.overrun).crcout = s.crcout := rfl
@[simp] theorem State.overrun_rxlen (s : State) : (s.overrun).rxlen = s.rxlen := rfl
@[simp] theorem State.overrun_txlen (s : State) : (s.overrun).txlen = s.txlen := rfl
@[simp] theorem State.overrun_pb (s : State) : (s.overrun).pb = s.pb := rfl
@[simp] theorem State.overrun_cfg (s : State) : (s.overrun).cfg = s.cfg := rfl
@[simp] theorem State.overrun_hostq (s : State) : (s.overrun).hostq = s.hostq := rfl
@[simp] theorem State.overrun_answers (s : State) : (s.overrun).answers = s.answers := rfl
@[simp] theorem State.overrun_draws (s : State) : (s.overrun).draws = s.draws := rfl
@[simp] theorem State.overrun_resets (s : State) : (s.overrun).resets = s.resets := rfl
@[simp] theorem State.overrun_trace (s : State) : (s.overrun).trace = s.trace := rfl
@[simp] theorem State.overrun_reads (s : State) : (s.overrun).reads = s.reads := rfl

/-! ### A transport call -/

@[simp] theorem State.traced_phase (s : State) (c : Call) : (s.traced c).phase = s.phase := rfl
@[simp] theorem State.traced_topen (s : State) (c : Call) : (s.traced c).topen = s.topen := rfl
@[simp] theorem State.traced_err (s : State) (c : Call) : (s.traced c).err = s.err := rfl
@[simp] theorem State.traced_esticky (s : State) (c : Call) : (s.traced c).esticky = s.esticky := rfl
@[simp] theorem State.traced_scanValid (s : State) (c : Call) : (s.traced c).scanValid = s.scanValid := rfl
@[simp] theorem State.traced_cfgLock (s : State) (c : Call) : (s.traced c).cfgLock = s.cfgLock := rfl
@[simp] theorem State.traced_ovr (s : State) (c : Call) : (s.traced c).ovr = s.ovr := rfl
@[simp] theorem State.traced_baudCur (s : State) (c : Call) : (s.traced c).baudCur = s.baudCur := rfl
@[simp] theorem State.traced_baudDes (s : State) (c : Call) : (s.traced c).baudDes = s.baudDes := rfl
@[simp] theorem State.traced_pwLen (s : State) (c : Call) : (s.traced c).pwLen = s.pwLen := rfl
@[simp] theorem State.traced_pw0 (s : State) (c : Call) : (s.traced c).pw0 = s.pw0 := rfl
@[simp] theorem State.traced_pw1 (s : State) (c : Call) : (s.traced c).pw1 = s.pw1 := rfl
@[simp] theorem State.traced_winStart (s : State) (c : Call) : (s.traced c).winStart = s.winStart := rfl
@[simp] theorem State.traced_winStop (s : State) (c : Call) : (s.traced c).winStop = s.winStop := rfl
@[simp] theorem State.traced_winStep (s : State) (c : Call) : (s.traced c).winStep = s.winStep := rfl
@[simp] theorem State.traced_winType (s : State) (c : Call) : (s.traced c).winType = s.winType := rfl
@[simp] theorem State.traced_flags (s : State) (c : Call) : (s.traced c).flags = s.flags := rfl
@[simp] theorem State.traced_idx (s : State) (c : Call) : (s.traced c).idx = s.idx := rfl
@[simp] theorem State.traced_raw (s : State) (c : Call) : (s.traced c).raw = s.raw := rfl
@[simp] theorem State.traced_cur (s : State) (c : Call) : (s.traced c).cur = s.cur := rfl
@[simp] theorem State.traced_rem (s : State) (c : Call) : (s.traced c).rem = s.rem := rfl
@[simp] theorem State.traced_data (s : State) (c : Call) : (s.traced c).data = s.data := rfl
@[simp] theorem State.traced_crcout (s : State) (c : Call) : (s.traced c).crcout = s.crcout := rfl
@[simp] theorem State.traced_rxlen (s : State) (c : Call) : (s.traced c).rxlen = s.rxlen := rfl
@[simp] theorem State.traced_txlen (s : State) (c : Call) : (s.traced c).txlen = s.txlen := rfl
@[simp] theorem State.traced_pb (s : State) (c : Call) : (s.traced c).pb = s.pb := rfl
@[simp] theorem State.traced_cfg (s : State) (c : Call) : (s.traced c).cfg = s.cfg := rfl
@[simp] theorem State.traced_hostq (s : State) (c : Call) : (s.traced c).hostq = s.hostq := rfl
@[simp] theorem State.traced_answers (s : State) (c : Call) : (s.traced c).answers = s.answers := rfl
@[simp] theorem State.traced_draws (s : State) (c : Call) : (s.traced c).draws = s.draws := rfl
@[simp] theorem State.traced_resets (s : State) (c : Call) : (s.traced c).resets = s.resets := rfl
@[simp] theorem State.traced_trace (s : State) (c : Call) : (s.traced c).trace = s.trace ++ [c] := rfl
@[simp] theorem State.traced_reads (s : State) (c : Call) : (s.traced c).reads = s.reads := rfl

/-! ### A received byte string -/

@[simp] theorem State.store_phase (s : State) (bs : List Byte) : (s.store bs).phase = s.phase := rfl
@[simp] theorem State.store_topen (s : State) (bs : List Byte) : (s.store bs).topen = s.topen := rfl
@[simp] theorem State.store_err (s : State) (bs : List Byte) : (s.store bs).err = s.err := rfl
@[simp] theorem State.store_esticky (s : State) (bs : List Byte) : (s.store bs).esticky = s.esticky := rfl
@[simp] theorem State.store_scanValid (s : State) (bs : List Byte) : (s.store bs).scanValid = s.scanValid := rfl
@[simp] theorem State.store_cfgLock (s : State) (bs : List Byte) : (s.store bs).cfgLock = s.cfgLock := rfl
@[simp] theorem State.store_ovr (s : State) (bs : List Byte) : (s.store bs).ovr = s.ovr := rfl
@[simp] theorem State.store_baudCur (s : State) (bs : List Byte) : (s.store bs).baudCur = s.baudCur := rfl
@[simp] theorem State.store_baudDes (s : State) (bs : List Byte) : (s.store bs).baudDes = s.baudDes := rfl
@[simp] theorem State.store_pwLen (s : State) (bs : List Byte) : (s.store bs).pwLen = s.pwLen := rfl
@[simp] theorem State.store_pw0 (s : State) (bs : List Byte) : (s.store bs).pw0 = s.pw0 := rfl
@[simp] theorem State.store_pw1 (s : State) (bs : List Byte) : (s.store bs).pw1 = s.pw1 := rfl
@[simp] theorem State.store_winStart (s : State) (bs : List Byte) : (s.store bs).winStart = s.winStart := rfl
@[simp] theorem State.store_winStop (s : State) (bs : List Byte) : (s.store bs).winStop = s.winStop := rfl
@[simp] theorem State.store_winStep (s : State) (bs : List Byte) : (s.store bs).winStep = s.winStep := rfl
@[simp] theorem State.store_winType (s : State) (bs : List Byte) : (s.store bs).winType = s.winType := rfl
@[simp] theorem State.store_flags (s : State) (bs : List Byte) : (s.store bs).flags = s.flags := rfl
@[simp] theorem State.store_idx (s : State) (bs : List Byte) : (s.store bs).idx = s.idx := rfl
@[simp] theorem State.store_raw (s : State) (bs : List Byte) : (s.store bs).raw = s.raw := rfl
@[simp] theorem State.store_cur (s : State) (bs : List Byte) : (s.store bs).cur = s.cur := rfl
@[simp] theorem State.store_rem (s : State) (bs : List Byte) : (s.store bs).rem = s.rem := rfl
@[simp] theorem State.store_data (s : State) (bs : List Byte) : (s.store bs).data = s.data := rfl
@[simp] theorem State.store_crcout (s : State) (bs : List Byte) : (s.store bs).crcout = s.crcout := rfl
@[simp] theorem State.store_rxlen (s : State) (bs : List Byte) : (s.store bs).rxlen = BitVec.ofNat 16 bs.length := rfl
@[simp] theorem State.store_txlen (s : State) (bs : List Byte) : (s.store bs).txlen = s.txlen := rfl
@[simp] theorem State.store_pb (s : State) (bs : List Byte) : (s.store bs).pb = Memory.writeList s.pb 0 bs := rfl
@[simp] theorem State.store_cfg (s : State) (bs : List Byte) : (s.store bs).cfg = s.cfg := rfl
@[simp] theorem State.store_hostq (s : State) (bs : List Byte) : (s.store bs).hostq = s.hostq := rfl
@[simp] theorem State.store_answers (s : State) (bs : List Byte) : (s.store bs).answers = s.answers := rfl
@[simp] theorem State.store_draws (s : State) (bs : List Byte) : (s.store bs).draws = s.draws := rfl
@[simp] theorem State.store_resets (s : State) (bs : List Byte) : (s.store bs).resets = s.resets := rfl
@[simp] theorem State.store_trace (s : State) (bs : List Byte) : (s.store bs).trace = s.trace := rfl
@[simp] theorem State.store_reads (s : State) (bs : List Byte) : (s.store bs).reads = s.reads := rfl

/-! ### The commit of a scan -/

@[simp] theorem State.commitScan_phase (s : State) (f : Byte) (ws : List Half) : (s.commitScan f ws).phase = s.phase := rfl
@[simp] theorem State.commitScan_topen (s : State) (f : Byte) (ws : List Half) : (s.commitScan f ws).topen = s.topen := rfl
@[simp] theorem State.commitScan_err (s : State) (f : Byte) (ws : List Half) : (s.commitScan f ws).err = s.err := rfl
@[simp] theorem State.commitScan_esticky (s : State) (f : Byte) (ws : List Half) : (s.commitScan f ws).esticky = s.esticky := rfl
@[simp] theorem State.commitScan_scanValid (s : State) (f : Byte) (ws : List Half) : (s.commitScan f ws).scanValid = true := rfl
@[simp] theorem State.commitScan_cfgLock (s : State) (f : Byte) (ws : List Half) : (s.commitScan f ws).cfgLock = s.cfgLock := rfl
@[simp] theorem State.commitScan_ovr (s : State) (f : Byte) (ws : List Half) : (s.commitScan f ws).ovr = s.ovr := rfl
@[simp] theorem State.commitScan_baudCur (s : State) (f : Byte) (ws : List Half) : (s.commitScan f ws).baudCur = s.baudCur := rfl
@[simp] theorem State.commitScan_baudDes (s : State) (f : Byte) (ws : List Half) : (s.commitScan f ws).baudDes = s.baudDes := rfl
@[simp] theorem State.commitScan_pwLen (s : State) (f : Byte) (ws : List Half) : (s.commitScan f ws).pwLen = s.pwLen := rfl
@[simp] theorem State.commitScan_pw0 (s : State) (f : Byte) (ws : List Half) : (s.commitScan f ws).pw0 = s.pw0 := rfl
@[simp] theorem State.commitScan_pw1 (s : State) (f : Byte) (ws : List Half) : (s.commitScan f ws).pw1 = s.pw1 := rfl
@[simp] theorem State.commitScan_winStart (s : State) (f : Byte) (ws : List Half) : (s.commitScan f ws).winStart = s.winStart := rfl
@[simp] theorem State.commitScan_winStop (s : State) (f : Byte) (ws : List Half) : (s.commitScan f ws).winStop = s.winStop := rfl
@[simp] theorem State.commitScan_winStep (s : State) (f : Byte) (ws : List Half) : (s.commitScan f ws).winStep = s.winStep := rfl
@[simp] theorem State.commitScan_winType (s : State) (f : Byte) (ws : List Half) : (s.commitScan f ws).winType = s.winType := rfl
@[simp] theorem State.commitScan_flags (s : State) (f : Byte) (ws : List Half) : (s.commitScan f ws).flags = flagBits f := rfl
@[simp] theorem State.commitScan_idx (s : State) (f : Byte) (ws : List Half) : (s.commitScan f ws).idx = s.idx := rfl
@[simp] theorem State.commitScan_raw (s : State) (f : Byte) (ws : List Half) : (s.commitScan f ws).raw = rawStore s.raw ws := rfl
@[simp] theorem State.commitScan_cur (s : State) (f : Byte) (ws : List Half) : (s.commitScan f ws).cur = s.cur := rfl
@[simp] theorem State.commitScan_rem (s : State) (f : Byte) (ws : List Half) : (s.commitScan f ws).rem = s.rem := rfl
@[simp] theorem State.commitScan_data (s : State) (f : Byte) (ws : List Half) : (s.commitScan f ws).data = s.data := rfl
@[simp] theorem State.commitScan_crcout (s : State) (f : Byte) (ws : List Half) : (s.commitScan f ws).crcout = s.crcout := rfl
@[simp] theorem State.commitScan_rxlen (s : State) (f : Byte) (ws : List Half) : (s.commitScan f ws).rxlen = s.rxlen := rfl
@[simp] theorem State.commitScan_txlen (s : State) (f : Byte) (ws : List Half) : (s.commitScan f ws).txlen = s.txlen := rfl
@[simp] theorem State.commitScan_pb (s : State) (f : Byte) (ws : List Half) : (s.commitScan f ws).pb = s.pb := rfl
@[simp] theorem State.commitScan_cfg (s : State) (f : Byte) (ws : List Half) : (s.commitScan f ws).cfg = s.cfg := rfl
@[simp] theorem State.commitScan_hostq (s : State) (f : Byte) (ws : List Half) : (s.commitScan f ws).hostq = s.hostq := rfl
@[simp] theorem State.commitScan_answers (s : State) (f : Byte) (ws : List Half) : (s.commitScan f ws).answers = s.answers := rfl
@[simp] theorem State.commitScan_draws (s : State) (f : Byte) (ws : List Half) : (s.commitScan f ws).draws = s.draws := rfl
@[simp] theorem State.commitScan_resets (s : State) (f : Byte) (ws : List Half) : (s.commitScan f ws).resets = s.resets := rfl
@[simp] theorem State.commitScan_trace (s : State) (f : Byte) (ws : List Half) : (s.commitScan f ws).trace = s.trace := rfl
@[simp] theorem State.commitScan_reads (s : State) (f : Byte) (ws : List Half) : (s.commitScan f ws).reads = s.reads := rfl

/-! ### A command word waiting -/

@[simp] theorem State.withCommand_phase (s : State) (w : Word) : (s.withCommand w).phase = s.phase := rfl
@[simp] theorem State.withCommand_topen (s : State) (w : Word) : (s.withCommand w).topen = s.topen := rfl
@[simp] theorem State.withCommand_err (s : State) (w : Word) : (s.withCommand w).err = s.err := rfl
@[simp] theorem State.withCommand_esticky (s : State) (w : Word) : (s.withCommand w).esticky = s.esticky := rfl
@[simp] theorem State.withCommand_scanValid (s : State) (w : Word) : (s.withCommand w).scanValid = s.scanValid := rfl
@[simp] theorem State.withCommand_cfgLock (s : State) (w : Word) : (s.withCommand w).cfgLock = s.cfgLock := rfl
@[simp] theorem State.withCommand_ovr (s : State) (w : Word) : (s.withCommand w).ovr = s.ovr := rfl
@[simp] theorem State.withCommand_baudCur (s : State) (w : Word) : (s.withCommand w).baudCur = s.baudCur := rfl
@[simp] theorem State.withCommand_baudDes (s : State) (w : Word) : (s.withCommand w).baudDes = s.baudDes := rfl
@[simp] theorem State.withCommand_pwLen (s : State) (w : Word) : (s.withCommand w).pwLen = s.pwLen := rfl
@[simp] theorem State.withCommand_pw0 (s : State) (w : Word) : (s.withCommand w).pw0 = s.pw0 := rfl
@[simp] theorem State.withCommand_pw1 (s : State) (w : Word) : (s.withCommand w).pw1 = s.pw1 := rfl
@[simp] theorem State.withCommand_winStart (s : State) (w : Word) : (s.withCommand w).winStart = s.winStart := rfl
@[simp] theorem State.withCommand_winStop (s : State) (w : Word) : (s.withCommand w).winStop = s.winStop := rfl
@[simp] theorem State.withCommand_winStep (s : State) (w : Word) : (s.withCommand w).winStep = s.winStep := rfl
@[simp] theorem State.withCommand_winType (s : State) (w : Word) : (s.withCommand w).winType = s.winType := rfl
@[simp] theorem State.withCommand_flags (s : State) (w : Word) : (s.withCommand w).flags = s.flags := rfl
@[simp] theorem State.withCommand_idx (s : State) (w : Word) : (s.withCommand w).idx = s.idx := rfl
@[simp] theorem State.withCommand_raw (s : State) (w : Word) : (s.withCommand w).raw = s.raw := rfl
@[simp] theorem State.withCommand_cur (s : State) (w : Word) : (s.withCommand w).cur = s.cur := rfl
@[simp] theorem State.withCommand_rem (s : State) (w : Word) : (s.withCommand w).rem = s.rem := rfl
@[simp] theorem State.withCommand_data (s : State) (w : Word) : (s.withCommand w).data = s.data := rfl
@[simp] theorem State.withCommand_crcout (s : State) (w : Word) : (s.withCommand w).crcout = s.crcout := rfl
@[simp] theorem State.withCommand_rxlen (s : State) (w : Word) : (s.withCommand w).rxlen = s.rxlen := rfl
@[simp] theorem State.withCommand_txlen (s : State) (w : Word) : (s.withCommand w).txlen = s.txlen := rfl
@[simp] theorem State.withCommand_pb (s : State) (w : Word) : (s.withCommand w).pb = s.pb := rfl
@[simp] theorem State.withCommand_cfg (s : State) (w : Word) : (s.withCommand w).cfg = s.cfg := rfl
@[simp] theorem State.withCommand_hostq (s : State) (w : Word) : (s.withCommand w).hostq = .regWrite 0 w :: s.hostq := rfl
@[simp] theorem State.withCommand_answers (s : State) (w : Word) : (s.withCommand w).answers = s.answers := rfl
@[simp] theorem State.withCommand_draws (s : State) (w : Word) : (s.withCommand w).draws = s.draws := rfl
@[simp] theorem State.withCommand_resets (s : State) (w : Word) : (s.withCommand w).resets = s.resets := rfl
@[simp] theorem State.withCommand_trace (s : State) (w : Word) : (s.withCommand w).trace = s.trace := rfl
@[simp] theorem State.withCommand_reads (s : State) (w : Word) : (s.withCommand w).reads = s.reads := rfl

/-! ### `HRESET` -/

@[simp] theorem State.hreset_phase (s : State) : (hreset s).phase = .closed := rfl
@[simp] theorem State.hreset_topen (s : State) : (hreset s).topen = false := rfl
@[simp] theorem State.hreset_err (s : State) : (hreset s).err = .noError := rfl
@[simp] theorem State.hreset_esticky (s : State) : (hreset s).esticky = 0 := rfl
@[simp] theorem State.hreset_scanValid (s : State) : (hreset s).scanValid = false := rfl
@[simp] theorem State.hreset_cfgLock (s : State) : (hreset s).cfgLock = false := rfl
@[simp] theorem State.hreset_ovr (s : State) : (hreset s).ovr = false := rfl
@[simp] theorem State.hreset_baudCur (s : State) : (hreset s).baudCur = s.cfg.initBaud := rfl
@[simp] theorem State.hreset_baudDes (s : State) : (hreset s).baudDes = s.cfg.initBaud := rfl
@[simp] theorem State.hreset_pwLen (s : State) : (hreset s).pwLen = 0 := rfl
@[simp] theorem State.hreset_pw0 (s : State) : (hreset s).pw0 = 0 := rfl
@[simp] theorem State.hreset_pw1 (s : State) : (hreset s).pw1 = 0 := rfl
@[simp] theorem State.hreset_winStart (s : State) : (hreset s).winStart = 0 := rfl
@[simp] theorem State.hreset_winStop (s : State) : (hreset s).winStop = 0 := rfl
@[simp] theorem State.hreset_winStep (s : State) : (hreset s).winStep = 0 := rfl
@[simp] theorem State.hreset_winType (s : State) : (hreset s).winType = 0 := rfl
@[simp] theorem State.hreset_flags (s : State) : (hreset s).flags = 0 := rfl
@[simp] theorem State.hreset_idx (s : State) : (hreset s).idx = 0 := rfl
@[simp] theorem State.hreset_raw (s : State) : (hreset s).raw = [] := rfl
@[simp] theorem State.hreset_cur (s : State) : (hreset s).cur = 0 := rfl
@[simp] theorem State.hreset_rem (s : State) : (hreset s).rem = 0 := rfl
@[simp] theorem State.hreset_data (s : State) : (hreset s).data = 0 := rfl
@[simp] theorem State.hreset_crcout (s : State) : (hreset s).crcout = 0 := rfl
@[simp] theorem State.hreset_rxlen (s : State) : (hreset s).rxlen = 0 := rfl
@[simp] theorem State.hreset_txlen (s : State) : (hreset s).txlen = 0 := rfl
@[simp] theorem State.hreset_pb (s : State) : (hreset s).pb = [] := rfl
@[simp] theorem State.hreset_cfg (s : State) : (hreset s).cfg = s.cfg := rfl
@[simp] theorem State.hreset_hostq (s : State) : (hreset s).hostq = s.hostq := rfl
@[simp] theorem State.hreset_answers (s : State) : (hreset s).answers = s.answers := rfl
@[simp] theorem State.hreset_draws (s : State) : (hreset s).draws = s.draws := rfl
@[simp] theorem State.hreset_resets (s : State) : (hreset s).resets = s.resets + 1 := rfl
@[simp] theorem State.hreset_trace (s : State) : (hreset s).trace = if s.topen then s.trace ++ [.tClose] else s.trace := rfl
@[simp] theorem State.hreset_reads (s : State) : (hreset s).reads = s.reads := rfl

/-! ### An answer drawn -/

@[simp] theorem State.answered_phase (s : State) : s.answered.phase = s.phase := by
  unfold State.answered; split <;> rfl
@[simp] theorem State.answered_topen (s : State) : s.answered.topen = s.topen := by
  unfold State.answered; split <;> rfl
@[simp] theorem State.answered_err (s : State) : s.answered.err = s.err := by
  unfold State.answered; split <;> rfl
@[simp] theorem State.answered_esticky (s : State) : s.answered.esticky = s.esticky := by
  unfold State.answered; split <;> rfl
@[simp] theorem State.answered_scanValid (s : State) : s.answered.scanValid = s.scanValid := by
  unfold State.answered; split <;> rfl
@[simp] theorem State.answered_cfgLock (s : State) : s.answered.cfgLock = s.cfgLock := by
  unfold State.answered; split <;> rfl
@[simp] theorem State.answered_ovr (s : State) : s.answered.ovr = s.ovr := by
  unfold State.answered; split <;> rfl
@[simp] theorem State.answered_baudCur (s : State) : s.answered.baudCur = s.baudCur := by
  unfold State.answered; split <;> rfl
@[simp] theorem State.answered_baudDes (s : State) : s.answered.baudDes = s.baudDes := by
  unfold State.answered; split <;> rfl
@[simp] theorem State.answered_pwLen (s : State) : s.answered.pwLen = s.pwLen := by
  unfold State.answered; split <;> rfl
@[simp] theorem State.answered_pw0 (s : State) : s.answered.pw0 = s.pw0 := by
  unfold State.answered; split <;> rfl
@[simp] theorem State.answered_pw1 (s : State) : s.answered.pw1 = s.pw1 := by
  unfold State.answered; split <;> rfl
@[simp] theorem State.answered_winStart (s : State) : s.answered.winStart = s.winStart := by
  unfold State.answered; split <;> rfl
@[simp] theorem State.answered_winStop (s : State) : s.answered.winStop = s.winStop := by
  unfold State.answered; split <;> rfl
@[simp] theorem State.answered_winStep (s : State) : s.answered.winStep = s.winStep := by
  unfold State.answered; split <;> rfl
@[simp] theorem State.answered_winType (s : State) : s.answered.winType = s.winType := by
  unfold State.answered; split <;> rfl
@[simp] theorem State.answered_flags (s : State) : s.answered.flags = s.flags := by
  unfold State.answered; split <;> rfl
@[simp] theorem State.answered_idx (s : State) : s.answered.idx = s.idx := by
  unfold State.answered; split <;> rfl
@[simp] theorem State.answered_raw (s : State) : s.answered.raw = s.raw := by
  unfold State.answered; split <;> rfl
@[simp] theorem State.answered_cur (s : State) : s.answered.cur = s.cur := by
  unfold State.answered; split <;> rfl
@[simp] theorem State.answered_rem (s : State) : s.answered.rem = s.rem := by
  unfold State.answered; split <;> rfl
@[simp] theorem State.answered_data (s : State) : s.answered.data = s.data := by
  unfold State.answered; split <;> rfl
@[simp] theorem State.answered_crcout (s : State) : s.answered.crcout = s.crcout := by
  unfold State.answered; split <;> rfl
@[simp] theorem State.answered_rxlen (s : State) : s.answered.rxlen = s.rxlen := by
  unfold State.answered; split <;> rfl
@[simp] theorem State.answered_txlen (s : State) : s.answered.txlen = s.txlen := by
  unfold State.answered; split <;> rfl
@[simp] theorem State.answered_pb (s : State) : s.answered.pb = s.pb := by
  unfold State.answered; split <;> rfl
@[simp] theorem State.answered_cfg (s : State) : s.answered.cfg = s.cfg := by
  unfold State.answered; split <;> rfl
@[simp] theorem State.answered_hostq (s : State) : s.answered.hostq = s.hostq := by
  unfold State.answered; split <;> rfl
@[simp] theorem State.answered_resets (s : State) : s.answered.resets = s.resets := by
  unfold State.answered; split <;> rfl
@[simp] theorem State.answered_trace (s : State) : s.answered.trace = s.trace := by
  unfold State.answered; split <;> rfl
@[simp] theorem State.answered_reads (s : State) : s.answered.reads = s.reads := by
  unfold State.answered; split <;> rfl

/-- With an answer listed, it is the one given. -/
theorem State.nextAnswer_of_cons {s : State} {a : Answer} {as : List Answer} (h : s.answers = a :: as) :
    s.nextAnswer = a := by simp [State.nextAnswer, h]

/-- With an answer listed, giving it takes it off the list and does nothing else. -/
theorem State.answered_of_cons {s : State} {a : Answer} {as : List Answer} (h : s.answers = a :: as) :
    s.answered = { s with answers := as } := by simp [State.answered, h]

/-- With none listed, a free answer is drawn and counted. -/
theorem State.answered_of_nil {s : State} (h : s.answers = []) :
    s.nextAnswer = Config.envAnswer s.draws ∧ s.answered = { s with draws := s.draws + 1 } := by
  simp [State.nextAnswer, State.answered, h]

end Sys2Proof.Machine
end

