-- ==== Sys2Proof/Laws/Ops.lean ====
section
/-! SUPPORT. What each shared operation can do, said once: the cursor primitives, `ENCODE`, `SEND`, `RECV`, `CHECK`,
`XACK`. Statements about commands cite these and unfold no micro-routine. -/

namespace Sys2Proof

/-- The facts of an admissible configuration that the micro-routines need. -/
theorem Cfg.wf_facts {c : Cfg} (h : c.wf = true) :
    c.hdrLen + 10 ≤ c.pbCap ∧ c.pbCap ≤ 65535 ∧ 1 ≤ c.hdrLen ∧ c.hdrTx.length = c.hdrLen ∧
      c.hdrRx.length = c.hdrLen ∧ c.pwLenReq ≤ 8 := by
  simp only [Cfg.wf, Cfg.capOk, Cfg.hdrOk, Cfg.pwOk, Bool.and_eq_true, decide_eq_true_eq] at h
  obtain ⟨⟨⟨⟨⟨⟨⟨⟨⟨h1, h2⟩, ⟨h3, h4⟩, h5⟩, -⟩, -⟩, -⟩, h6⟩, -⟩, -⟩, -⟩ := h
  exact ⟨h1, h2, h3, h4, h5, h6⟩

end Sys2Proof

namespace Sys2Proof.Machine

/-! ### Running a micro-routine -/

theorem Micro.bind_ok {α β : Type} {m : Micro α} {f : α → Micro β} {s t : State} {a : α} (h : m.run s = .ok a t) :
    (m >>= f).run s = (f a).run t := by
  rw [EStateM.run_bind, h]

theorem Micro.bind_error {α β : Type} {m : Micro α} {f : α → Micro β} {s t : State} {e : Overrun}
    (h : m.run s = .error e t) : (m >>= f).run s = .error e t := by
  rw [EStateM.run_bind, h]

@[simp] theorem Micro.pure_apply {α : Type} (a : α) (s : State) : (pure a : Micro α).run s = .ok a s := rfl

@[simp] theorem Micro.get_bind {β : Type} (f : State → Micro β) (s : State) :
    ((get : Micro State) >>= f).run s = (f s).run s := rfl

@[simp] theorem Micro.modify_apply (f : State → State) (s : State) : (modify f : Micro Unit).run s = .ok () (f s) := rfl

/-- How a command ends (R272, R163). -/
theorem runCommand_ok {body : Micro ErrCode} {s t : State} {e : ErrCode} (h : body.run s = .ok e t) :
    runCommand body s = .next (t.done e) := by simp [runCommand, h]

theorem runCommand_overrun {body : Micro ErrCode} {s t : State} {e : Overrun} (h : body.run s = .error e t) :
    runCommand body s = .next t.overrun := by simp [runCommand, h]

/-! ### The cursor primitives -/

theorem setByte_run (v : Byte) (s : State) : (setByte v).run s =
    if s.rem = 0 ∨ s.cfg.pbCap ≤ s.cur.toNat then .error .overrun s
    else .ok () { s with pb := Memory.write s.pb s.cur.toNat v, cur := s.cur + 1, rem := s.rem - 1 } := rfl

theorem getByte_run (s : State) : getByte.run s =
    if s.cfg.pbCap ≤ s.cur.toNat then .error .overrun s
    else .ok (s.pbRead s.cur.toNat) { s with cur := s.cur + 1 } := rfl

theorem setByte_ok {s : State} (v : Byte) (hr : s.rem ≠ 0) (hc : s.cur.toNat < s.cfg.pbCap) :
    (setByte v).run s = .ok () { s with pb := Memory.write s.pb s.cur.toNat v, cur := s.cur + 1, rem := s.rem - 1 } := by
  rw [setByte_run, if_neg]
  simp only [not_or]
  exact ⟨hr, by omega⟩

theorem setByte_refused {s : State} (v : Byte) (h : s.rem = 0 ∨ s.cfg.pbCap ≤ s.cur.toNat) :
    (setByte v).run s = .error .overrun s := if_pos h

theorem getByte_ok {s : State} (hc : s.cur.toNat < s.cfg.pbCap) :
    getByte.run s = .ok (s.pbRead s.cur.toNat) { s with cur := s.cur + 1 } := by
  rw [getByte_run, if_neg (by omega)]

theorem getByte_refused {s : State} (hc : s.cfg.pbCap ≤ s.cur.toNat) : getByte.run s = .error .overrun s := if_pos hc

/-- The state once `bs` has been written at the cursor. -/
def State.wrote (s : State) (bs : List Byte) : State :=
  { s with
    pb := Memory.writeList s.pb s.cur.toNat bs
    cur := s.cur + BitVec.ofNat 16 bs.length
    rem := s.rem - BitVec.ofNat 16 bs.length }

/-- Writing a list that fits, byte by byte. -/
theorem setBytes_ok {s : State} {bs : List Byte} (hr : bs.length ≤ s.rem.toNat)
    (hc : s.cur.toNat + bs.length ≤ s.cfg.pbCap) (hcap : s.cfg.pbCap ≤ 65535) :
    (setBytes bs).run s = .ok () (s.wrote bs) := by
  induction bs generalizing s with
  | nil => simp [setBytes, State.wrote, Memory.writeList]
  | cons b bs ih =>
    simp only [List.length_cons] at hr hc
    have hcur : (s.cur + 1).toNat = s.cur.toNat + 1 := by
      rw [BitVec.toNat_add]; simp; omega
    have hrem : (s.rem - 1).toNat = s.rem.toNat - 1 := by bv_omega
    have h1 := setByte_ok (s := s) b (by intro h; rw [h] at hr; simp at hr) (by omega)
    rw [setBytes, Micro.bind_ok h1, ih]
    · simp only [State.wrote, Memory.writeList, hcur, List.length_cons]
      congr 2 <;> bv_omega
    · simp only [hrem]; omega
    · simp only [hcur]; omega
    · exact hcap

theorem State.wrote_append {s : State} (as bs : List Byte) (h : s.cur.toNat + as.length ≤ 65535) :
    (s.wrote as).wrote bs = s.wrote (as ++ bs) := by
  have hcur : (s.cur + BitVec.ofNat 16 as.length).toNat = s.cur.toNat + as.length := by
    rw [BitVec.toNat_add]; simp; omega
  simp only [State.wrote, hcur, Memory.writeList_append, List.length_append]
  congr 1
  · rw [BitVec.ofNat_add, BitVec.add_assoc]
  · rw [BitVec.ofNat_add]; bv_omega

/-- The state with the cursor moved. -/
def State.withCur (s : State) (c : Half) : State := { s with cur := c }

@[simp] theorem State.withCur_cur (s : State) (c : Half) : (s.withCur c).cur = c := rfl
@[simp] theorem State.withCur_cfg (s : State) (c : Half) : (s.withCur c).cfg = s.cfg := rfl
@[simp] theorem State.withCur_topen (s : State) (c : Half) : (s.withCur c).topen = s.topen := rfl
@[simp] theorem State.withCur_pb (s : State) (c : Half) : (s.withCur c).pb = s.pb := rfl
@[simp] theorem State.withCur_withCur (s : State) (c d : Half) : (s.withCur c).withCur d = s.withCur d := rfl
@[simp] theorem State.withCur_pbRead (s : State) (c : Half) (a : Nat) : (s.withCur c).pbRead a = s.pbRead a := rfl

/-! ### Comparing strings -/

@[simp] theorem commonPrefix_nil_right (as : List Byte) : commonPrefix as [] = 0 := by cases as <;> rfl

@[simp] theorem commonPrefix_cons (a b : Byte) (as bs : List Byte) :
    commonPrefix (a :: as) (b :: bs) = if a = b then commonPrefix as bs + 1 else 0 := rfl

@[simp] theorem commonPrefix_self (as : List Byte) : commonPrefix as as = as.length := by
  induction as with
  | nil => rfl
  | cons a as ih => simp [ih]

theorem commonPrefix_lt {as bs : List Byte} (hl : as.length = bs.length) (h : as ≠ bs) :
    commonPrefix as bs < bs.length := by
  induction as generalizing bs with
  | nil => cases bs <;> simp_all
  | cons a as ih =>
    cases bs with
    | nil => simp at hl
    | cons b bs =>
      rw [commonPrefix_cons]
      split
      · rename_i hab
        have := ih (by simpa using hl) (fun hx => h (by rw [hab, hx]))
        simp only [List.length_cons]
        omega
      · simp

/-- Only as many bytes as the other string has are compared. -/
theorem commonPrefix_take (as bs : List Byte) {n : Nat} (h : bs.length ≤ n) :
    commonPrefix (as.take n) bs = commonPrefix as bs := by
  induction as generalizing bs n with
  | nil => simp
  | cons a as ih =>
    cases bs with
    | nil => simp
    | cons b bs =>
      obtain ⟨m, rfl⟩ : ∃ m, n = m + 1 := ⟨n - 1, by simp at h; omega⟩
      simp [ih bs (n := m) (by simpa using h)]

/-- The place of the first difference. -/
theorem commonPrefix_eq {as bs : List Byte} {i : Nat} (ht : as.take i = bs.take i) (hi : i < as.length)
    (hj : i < bs.length) (hne : as[i]? ≠ bs[i]?) : commonPrefix as bs = i := by
  induction as generalizing bs i with
  | nil => simp at hi
  | cons a as ih =>
    cases bs with
    | nil => simp at hj
    | cons b bs =>
      cases i with
      | zero => simpa using hne
      | succ i =>
        simp only [List.take_succ_cons, List.cons.injEq] at ht
        rw [commonPrefix_cons, if_pos ht.1, ih ht.2 (by simpa using hi) (by simpa using hj) (by simpa using hne)]

/-- Reading a list against the buffer: the outcome, and the cursor it leaves (R168, R194). -/
theorem matchBytes_spec {s : State} {bs : List Byte} (hc : s.cur.toNat + bs.length ≤ s.cfg.pbCap)
    (hcap : s.cfg.pbCap ≤ 65535) :
    ∃ b c, (matchBytes bs).run s = .ok b (s.withCur c) ∧ (b = true ↔ s.pbRange s.cur.toNat bs.length = bs) ∧
      (b = true → c.toNat = s.cur.toNat + bs.length) ∧
      (b = false → c.toNat = s.cur.toNat + commonPrefix (s.pbRange s.cur.toNat bs.length) bs + 1) := by
  induction bs generalizing s with
  | nil => exact ⟨true, s.cur, rfl, by simp [State.pbRange], by simp, by simp⟩
  | cons b bs ih =>
    simp only [List.length_cons] at hc
    have hcur : (s.cur + 1).toNat = s.cur.toNat + 1 := by
      rw [BitVec.toNat_add]; simp; omega
    rw [matchBytes, Micro.bind_ok (getByte_ok (by omega))]
    by_cases hg : s.pbRead s.cur.toNat = b
    · rw [if_pos hg]
      obtain ⟨r, c, h1, h2, h3, h4⟩ := ih (s := { s with cur := s.cur + 1 }) (by simp only [hcur]; omega) hcap
      refine ⟨r, c, by rw [h1]; rfl, ?_, ?_, ?_⟩
      · rw [h2, hcur]
        simp only [State.pbRange, List.length_cons, List.cons.injEq, hg, true_and]
        exact iff_of_eq (congrArg (· = bs) (State.pbRange_congr fun _ _ => rfl))
      · intro hr; rw [h3 hr, hcur, List.length_cons]; omega
      · intro hr
        rw [h4 hr, hcur, List.length_cons, State.pbRange, commonPrefix_cons, if_pos hg]
        rw [State.pbRange_congr (s := s) (t := { s with cur := s.cur + 1 }) fun _ _ => rfl]
        omega
    · rw [if_neg hg]
      refine ⟨false, s.cur + 1, rfl, ?_, by simp, ?_⟩
      · simp [State.pbRange, hg]
      · rw [hcur, List.length_cons, State.pbRange, commonPrefix_cons, if_neg hg]; simp

/-- Reading `n` words at the cursor (R240). -/
theorem getWords_ok {s : State} {n : Nat} (hc : s.cur.toNat + 2 * n ≤ s.cfg.pbCap) (hcap : s.cfg.pbCap ≤ 65535) :
    (getWords n).run s = .ok
      ((List.range n).map fun k =>
        join16 (s.pbRead (s.cur.toNat + 2 * k)) (s.pbRead (s.cur.toNat + 2 * k + 1)))
      { s with cur := s.cur + BitVec.ofNat 16 (2 * n) } := by
  induction n generalizing s with
  | zero => simp [getWords]
  | succ n ih =>
    have hcur : (s.cur + 1).toNat = s.cur.toNat + 1 := by
      rw [BitVec.toNat_add]; simp; omega
    have hcur2 : (s.cur + 1 + 1).toNat = s.cur.toNat + 2 := by
      rw [BitVec.toNat_add, hcur]; simp; omega
    have h16 : get16.run s = .ok (join16 (s.pbRead s.cur.toNat) (s.pbRead (s.cur.toNat + 1)))
        { s with cur := s.cur + 1 + 1 } := by
      rw [get16, Micro.bind_ok (getByte_ok (by omega)), Micro.bind_ok (getByte_ok (by simp only [hcur]; omega))]
      simp only [hcur, Micro.pure_apply]
      rfl
    rw [getWords, Micro.bind_ok h16, Micro.bind_ok (ih (s := { s with cur := s.cur + 1 + 1 }) (by simp only [hcur2]; omega) hcap)]
    simp only [Micro.pure_apply, hcur2, List.range_succ_eq_map, List.map_cons, List.map_map]
    congr 1
    · simp only [List.cons.injEq, Nat.mul_zero, Nat.add_zero, true_and]
      refine List.map_congr_left fun k _ => ?_
      simp only [Function.comp, State.pbRead]
      rw [show s.cur.toNat + 2 + 2 * k = s.cur.toNat + 2 * k.succ by omega]
    · congr 1; bv_omega

/-! ### ENCODE -/

theorem txFrame_length {c : Cfg} (h : c.hdrTx.length = c.hdrLen) (tc : Byte) (p : List Byte) :
    (txFrame c tc p).length = frameLen c p.length := by
  simp [txFrame, frameBytes, frameLen, h]; omega

theorem rxFrame_length {c : Cfg} (h : c.hdrRx.length = c.hdrLen) (tc : Byte) (p : List Byte) :
    (rxFrame c tc p).length = frameLen c p.length := by
  simp [rxFrame, frameBytes, frameLen, h]; omega

/-- The state `ENCODE` leaves (R165). -/
def State.encoded (s : State) (tc : Byte) (p : List Byte) : State :=
  { s with
    pb := Memory.writeList s.pb 0 (txFrame s.cfg tc p)
    cur := BitVec.ofNat 16 (frameLen s.cfg p.length)
    rem := 0
    txlen := BitVec.ofNat 16 (frameLen s.cfg p.length) }

/-- A frame being assembled: once `as` has been written from index 0 with `len` bytes allowed, a further list that
fits can be written. -/
theorem setBytes_wrote {s : State} {len : Nat} {as bs : List Byte} (hcur : s.cur = 0)
    (hrem : s.rem = BitVec.ofNat 16 len) (hlen : len ≤ s.cfg.pbCap) (hcap : s.cfg.pbCap ≤ 65535)
    (hab : as.length + bs.length ≤ len) : (setBytes bs).run (s.wrote as) = .ok () (s.wrote (as ++ bs)) := by
  have hc : (s.wrote as).cur.toNat = as.length := by
    simp only [State.wrote, hcur, BitVec.toNat_add, BitVec.toNat_ofNat, BitVec.ofNat_eq_ofNat]; omega
  have hr : (s.wrote as).rem.toNat = len - as.length := by
    simp only [State.wrote, hrem, BitVec.toNat_sub, BitVec.toNat_ofNat]; omega
  have h0 : s.cur.toNat = 0 := by rw [hcur]; rfl
  rw [setBytes_ok (s := s.wrote as) (by omega) (by rw [hc]; exact le_trans hab hlen) hcap,
    State.wrote_append as bs (by omega)]

theorem setBytes_singleton (b : Byte) (s : State) : (setBytes [b]).run s = (setByte b).run s := by
  rw [setByte_run]
  split
  · rename_i h
    rw [setBytes, Micro.bind_error (setByte_refused b h)]
  · rename_i h
    rw [not_or] at h
    rw [setBytes, Micro.bind_ok (setByte_ok b h.1 (by omega)), setBytes, Micro.pure_apply]

theorem setCrc_run (start n : Nat) (s : State) :
    (setCrc start n).run s = (setByte (s.crc start n)).run s := by
  simp only [setCrc, EStateM.run]

/-- Sealing writes the checksum of the payload just written (R165). -/
theorem setCrc_wrote {s : State} {len : Nat} {as p : List Byte} (hcur : s.cur = 0)
    (hrem : s.rem = BitVec.ofNat 16 len) (hlen : len ≤ s.cfg.pbCap) (hcap : s.cfg.pbCap ≤ 65535)
    (hab : as.length + p.length + 1 ≤ len) : (setCrc as.length p.length).run (s.wrote (as ++ p)) =
      .ok () (s.wrote (as ++ p ++ [crcBytes s.cfg p])) := by
  have hb : (s.wrote (as ++ p)).pb = Memory.writeList (Memory.writeList s.pb 0 as) as.length p := by
    simp only [State.wrote, hcur, Memory.writeList_append, BitVec.ofNat_eq_ofNat, BitVec.toNat_ofNat, Nat.zero_mod,
      Nat.zero_add]
  have hcrc : (s.wrote (as ++ p)).crc as.length p.length = crcBytes s.cfg p := by
    rw [State.crc, State.pbRange_writeList hb]
    rfl
  rw [setCrc_run, hcrc, ← setBytes_singleton, setBytes_wrote hcur hrem hlen hcap (by simp; omega)]

/-- `ENCODE` of a frame that fits the buffer: the sealed frame from index 0, `CUR = L`, `REM = 0`, no Overrun
(R163, R165). -/
theorem encodeFrame_ok {s : State} (tc : Byte) {p : List Byte} (hw : s.cfg.wf = true)
    (hp : frameLen s.cfg p.length ≤ s.cfg.pbCap) : (encodeFrame tc p).run s = .ok () (s.encoded tc p) := by
  obtain ⟨-, hcap, -, htx, -, -⟩ := Cfg.wf_facts hw
  have hL : frameLen s.cfg p.length = s.cfg.hdrLen + 2 + p.length := rfl
  obtain ⟨s1, hs1⟩ : ∃ s1 : State, s1 = { s with cur := 0, rem := BitVec.ofNat 16 (frameLen s.cfg p.length) } :=
    ⟨_, rfl⟩
  have hcur : s1.cur = 0 := by rw [hs1]
  have hrem : s1.rem = BitVec.ofNat 16 (frameLen s.cfg p.length) := by rw [hs1]
  have hcfg : s1.cfg = s.cfg := by rw [hs1]
  have hlen : frameLen s.cfg p.length ≤ s1.cfg.pbCap := by rw [hcfg]; exact hp
  have hcap1 : s1.cfg.pbCap ≤ 65535 := by rw [hcfg]; exact hcap
  have h1 : (startFrame (frameLen s.cfg p.length)).run s = .ok () s1 := by rw [hs1]; rfl
  have h2 : (setBytes s.cfg.hdrTx).run s1 = .ok () (s1.wrote s.cfg.hdrTx) := by
    have := setBytes_wrote (as := []) (bs := s.cfg.hdrTx) hcur hrem hlen hcap1 (by simp; omega)
    have h0 : s1.wrote [] = s1 := by simp [State.wrote, Memory.writeList]
    rwa [h0] at this
  have h3 : (setByte tc).run (s1.wrote s.cfg.hdrTx) = .ok () (s1.wrote (s.cfg.hdrTx ++ [tc])) := by
    rw [← setBytes_singleton]
    exact setBytes_wrote hcur hrem hlen hcap1 (by simp; omega)
  have h4 : (setBytes p).run (s1.wrote (s.cfg.hdrTx ++ [tc])) = .ok () (s1.wrote (s.cfg.hdrTx ++ [tc] ++ p)) :=
    setBytes_wrote hcur hrem hlen hcap1 (by simp; omega)
  have h5 : (setCrc (s.cfg.hdrLen + 1) p.length).run (s1.wrote (s.cfg.hdrTx ++ [tc] ++ p)) =
      .ok () (s1.wrote (s.cfg.hdrTx ++ [tc] ++ p ++ [crcBytes s.cfg p])) := by
    have := setCrc_wrote (as := s.cfg.hdrTx ++ [tc]) (p := p) hcur hrem hlen hcap1 (by simp; omega)
    simpa [htx, hcfg] using this
  have h6 (t : State) : (setTxlen (frameLen s.cfg p.length)).run t =
      .ok () { t with txlen := BitVec.ofNat 16 (frameLen s.cfg p.length) } := rfl
  have hfr : s.cfg.hdrTx ++ [tc] ++ p ++ [crcBytes s.cfg p] = txFrame s.cfg tc p := by
    simp [txFrame, frameBytes]
  rw [encodeFrame, Micro.get_bind, Micro.bind_ok h1, Micro.bind_ok h2, Micro.bind_ok h3, Micro.bind_ok h4,
    Micro.bind_ok h5, h6, hfr, hs1]
  simp [State.encoded, State.wrote, txFrame_length htx]

/-! ### SEND and RECV -/

/-- `SEND` (R166, R82). -/
theorem sendFrame_eq (s : State) : sendFrame.run s =
    if s.topen then
      .ok (if s.nextAnswer.isOk then .ok else .tfail)
        (s.answered.traced (.tSend (s.pbRange 0 s.txlen.toNat) s.nextAnswer.isOk))
    else .ok .tfail s := by
  have h : sendFrame.run s = if s.topen then
      match (tSend (s.pbRange 0 s.txlen.toNat)).run s with
      | .ok true t => .ok .ok t
      | .ok false t => .ok .tfail t
      | .error e t => .error e t
    else .ok .tfail s := rfl
  have ht : (tSend (s.pbRange 0 s.txlen.toNat)).run s = .ok s.nextAnswer.isOk
      (s.answered.traced (.tSend (s.pbRange 0 s.txlen.toNat) s.nextAnswer.isOk)) := rfl
  rw [h, ht]
  cases s.nextAnswer.isOk <;> rfl

/-- The state once the transport has answered a `T_RECV(len)`. -/
def State.polled (s : State) (len : Nat) : State :=
  s.answered.traced (.tRecv len s.cfg.rxTimeout (s.nextAnswer.received len))

/-- `RECV(len)` (R167, R82). -/
theorem recvFrame_eq (s : State) (len : Nat) : (recvFrame len).run s =
    if s.topen then
      match s.nextAnswer.received len with
      | some bs => .ok .ok ((s.polled len).store bs)
      | none => .ok .tfail (s.polled len)
    else .ok .tfail s := by
  have h : (recvFrame len).run s = if s.topen then
      match (tRecv len).run s with
      | .ok (some bs) t => .ok .ok (t.store bs)
      | .ok none t => .ok .tfail t
      | .error e t => .error e t
    else .ok .tfail s := rfl
  have ht : (tRecv len).run s = .ok (s.nextAnswer.received len) (s.polled len) := rfl
  rw [h, ht]
  cases s.nextAnswer.received len <;> rfl

/-- The transport never returns more bytes than asked for (R80). -/
theorem Answer.received_length {a : Answer} {n : Nat} {bs : List Byte} (h : Answer.received a n = some bs) :
    bs.length ≤ n := by
  cases a with
  | fail => simp [Answer.received] at h
  | ok cs =>
    simp only [Answer.received, Option.some.injEq] at h
    simp [← h]

/-! ### CHECK -/

/-- What `CHECK(tr, len)` tests, as one proposition (R168). -/
def State.Accepts (s : State) (tr : Byte) (len : Nat) : Prop :=
  len ≤ s.rxlen.toNat ∧ s.pbRange 0 s.cfg.hdrLen = s.cfg.hdrRx ∧ s.pbRead s.cfg.hdrLen = tr ∧
    s.crc (s.cfg.hdrLen + 1) (len - s.cfg.hdrLen - 2) = s.pbRead (len - 1)

/-- `CHECK` accepts exactly when its four tests pass, and writes `CUR` only: kept on a short read, one past the first
header byte that differs, else at the payload (R168). -/
theorem checkFrame_spec {s : State} (tr : Byte) {len : Nat} (hw : s.cfg.wf = true)
    (hlen : s.cfg.hdrLen + 2 ≤ len) (hcap : len ≤ s.cfg.pbCap) :
    ∃ b c, (checkFrame tr len).run s = .ok b (s.withCur c) ∧ (b = true ↔ s.Accepts tr len) ∧
      (b = true → c = BitVec.ofNat 16 (s.cfg.hdrLen + 1)) ∧ (s.rxlen.toNat < len → c = s.cur) ∧
      (len ≤ s.rxlen.toNat →
        c = BitVec.ofNat 16 (commonPrefix (s.pbRange 0 s.cfg.hdrLen) s.cfg.hdrRx + 1)) := by
  obtain ⟨-, h16, -, -, hrx, -⟩ := Cfg.wf_facts hw
  unfold checkFrame
  rw [Micro.get_bind]
  by_cases hs : s.rxlen.toNat < len
  · rw [if_pos hs]
    exact ⟨false, s.cur, rfl, by simp [State.Accepts]; omega, by simp, fun _ => rfl, by omega⟩
  · rw [if_neg hs]
    have hrw : rewind.run s = .ok () (s.withCur 0) := rfl
    rw [Micro.bind_ok hrw]
    obtain ⟨b, c, h1, h2, h3, h4⟩ := matchBytes_spec (s := s.withCur 0) (bs := s.cfg.hdrRx)
      (by simp only [State.withCur_cur, State.withCur_cfg, hrx, BitVec.ofNat_eq_ofNat, BitVec.toNat_ofNat]; omega) h16
    rw [State.withCur_withCur] at h1
    rw [Micro.bind_ok h1]
    have hm : (b = true ↔ s.pbRange 0 s.cfg.hdrLen = s.cfg.hdrRx) := by
      rw [h2, hrx]
      exact iff_of_eq (congrArg (· = s.cfg.hdrRx) (State.pbRange_congr fun _ _ => rfl))
    have hpre : (s.withCur 0).pbRange (s.withCur 0).cur.toNat s.cfg.hdrRx.length = s.pbRange 0 s.cfg.hdrLen := by
      rw [hrx]; exact State.pbRange_congr fun _ _ => rfl
    cases b with
    | false =>
      refine ⟨false, c, rfl, ?_, by simp, fun h => absurd h hs, fun _ => ?_⟩
      · simp only [State.Accepts, ← hm]
        simp
      · have := h4 rfl
        rw [hpre, State.withCur_cur, BitVec.ofNat_eq_ofNat, BitVec.toNat_ofNat, Nat.zero_mod, Nat.zero_add] at this
        rw [← this, BitVec.ofNat_toNat, BitVec.setWidth_eq]
    | true =>
      have hall : commonPrefix (s.pbRange 0 s.cfg.hdrLen) s.cfg.hdrRx = s.cfg.hdrLen := by
        rw [hm.1 rfl, commonPrefix_self, hrx]
      have hc : c = BitVec.ofNat 16 s.cfg.hdrLen := by
        apply BitVec.eq_of_toNat_eq
        have := h3 rfl
        simp only [State.withCur_cur, hrx, BitVec.ofNat_eq_ofNat, BitVec.toNat_ofNat] at this ⊢
        omega
      have hcn : c.toNat = s.cfg.hdrLen := by rw [hc, BitVec.toNat_ofNat]; omega
      have hc1 : c + 1 = BitVec.ofNat 16 (s.cfg.hdrLen + 1) := by rw [hc]; bv_omega
      have hg : getByte.run (s.withCur c) = .ok (s.pbRead s.cfg.hdrLen) (s.withCur (c + 1)) := by
        rw [getByte_ok (by simp only [State.withCur_cur, State.withCur_cfg, hcn]; omega)]
        simp only [State.withCur_cur, hcn]
        rfl
      simp only [if_true]
      rw [Micro.bind_ok (t := s.withCur (c + 1)) hg, hc1]
      by_cases ht : s.pbRead s.cfg.hdrLen = tr
      · rw [if_pos ht]
        refine ⟨_, _, rfl, ?_, fun _ => rfl, fun h => absurd h hs, fun _ => by rw [hall]⟩
        simp only [decide_eq_true_eq, State.Accepts, hm.1 rfl, ht, true_and]
        exact ⟨fun h => ⟨by omega, h⟩, fun h => h.2⟩
      · rw [if_neg ht]
        refine ⟨false, _, rfl, ?_, by simp, fun h => absurd h hs, fun _ => by rw [hall]⟩
        simp [State.Accepts, ht]

/-- A string put in the buffer by `RECV` is accepted exactly when it is a whole sealed frame of the expected type,
whatever the buffer held before (R168, R173). -/
theorem accepts_store_iff {s : State} (tr : Byte) {n : Nat} {bs : List Byte} (hw : s.cfg.wf = true)
    (hcap : frameLen s.cfg n ≤ s.cfg.pbCap) (hbs : bs.length ≤ frameLen s.cfg n) :
    (s.store bs).Accepts tr (frameLen s.cfg n) ↔ ∃ p : List Byte, p.length = n ∧ bs = rxFrame s.cfg tr p := by
  obtain ⟨-, h16, -, -, hrx, -⟩ := Cfg.wf_facts hw
  have hL : frameLen s.cfg n = s.cfg.hdrLen + 2 + n := rfl
  have hn : frameLen s.cfg n - s.cfg.hdrLen - 2 = n := by omega
  have hrl : (s.store bs).rxlen.toNat = bs.length := by
    simp only [State.store_rxlen, BitVec.toNat_ofNat]; omega
  have hpb : (s.store bs).pb = Memory.writeList s.pb 0 bs := rfl
  have key : ∀ {p : List Byte} {x y : Byte}, p.length = n → bs = s.cfg.hdrRx ++ x :: (p ++ [y]) →
      (s.store bs).pbRange 0 s.cfg.hdrLen = s.cfg.hdrRx ∧ (s.store bs).pbRead s.cfg.hdrLen = x ∧
      (s.store bs).pbRange (s.cfg.hdrLen + 1) n = p ∧ (s.store bs).pbRead (frameLen s.cfg n - 1) = y := by
    intro p x y hp hb
    have hr : (s.store bs).pbRange 0 bs.length = bs := State.pbRange_writeList hpb
    have hlen : bs.length = s.cfg.hdrLen + (1 + (n + 1)) := by
      rw [hb]; simp only [List.length_append, List.length_cons, List.length_nil, hrx, hp]; omega
    rw [hlen] at hr
    conv at hr => rhs; rw [hb]
    rw [State.pbRange_append, State.pbRange_append, State.pbRange_append] at hr
    obtain ⟨e1, e2⟩ := List.append_inj hr (by simp [hrx])
    simp only [State.pbRange, Nat.zero_add, List.cons_append, List.nil_append, List.cons.injEq] at e2
    obtain ⟨e2, e3⟩ := e2
    obtain ⟨e3, e4⟩ := List.append_inj e3 (by simp [hp])
    refine ⟨e1, e2, e3, ?_⟩
    have : s.cfg.hdrLen + 1 + n = frameLen s.cfg n - 1 := by omega
    simpa [this] using e4
  constructor
  · rintro ⟨h1, h2, h3, h4⟩
    rw [hrl] at h1
    have hlen : bs.length = frameLen s.cfg n := by omega
    obtain ⟨a, rest, rfl, ha⟩ : ∃ a rest, bs = a ++ rest ∧ a.length = s.cfg.hdrLen :=
      ⟨bs.take s.cfg.hdrLen, bs.drop s.cfg.hdrLen, by simp, by simp; omega⟩
    obtain ⟨x, rest, rfl⟩ : ∃ x r, rest = x :: r := by
      cases rest with
      | nil => simp at hlen; omega
      | cons x r => exact ⟨x, r, rfl⟩
    obtain ⟨p, y, rfl⟩ : ∃ p y, rest = p ++ [y] := by
      rcases List.eq_nil_or_concat rest with rfl | ⟨p, y, h⟩
      · simp at hlen; omega
      · exact ⟨p, y, by simpa using h⟩
    have hp : p.length = n := by simp at hlen; omega
    have hhdr : a = s.cfg.hdrRx := by
      have hr : (s.store (a ++ x :: (p ++ [y]))).pbRange 0 (a.length + (1 + (n + 1))) = a ++ x :: (p ++ [y]) := by
        have := State.pbRange_writeList hpb
        rw [hlen] at this
        rw [show a.length + (1 + (n + 1)) = frameLen s.cfg n by omega]
        exact this
      rw [State.pbRange_append] at hr
      have := (List.append_inj hr (by simp)).1
      rw [← this, ha]
      exact h2
    subst hhdr
    obtain ⟨-, k2, k3, k4⟩ := key hp rfl
    refine ⟨p, hp, ?_⟩
    have hx : x = tr := by rw [← k2]; exact h3
    have hy : y = crcBytes s.cfg p := by
      rw [← k4]
      change (s.store _).crc (s.cfg.hdrLen + 1) (frameLen s.cfg n - s.cfg.hdrLen - 2) = _ at h4
      rw [← h4, State.crc, hn, k3]
      rfl
    rw [hx, hy]
    rfl
  · rintro ⟨p, hp, rfl⟩
    obtain ⟨k1, k2, k3, k4⟩ := key hp rfl
    have hlen : (rxFrame s.cfg tr p).length = frameLen s.cfg n := by rw [rxFrame_length hrx, hp]
    refine ⟨by rw [hrl]; omega, k1, k2, ?_⟩
    change (s.store _).crc (s.cfg.hdrLen + 1) (frameLen s.cfg n - s.cfg.hdrLen - 2) = _
    rw [k4, State.crc, hn, k3]
    rfl

/-- `CHECK` of a string that `RECV` has just put in the buffer: accepted exactly when it is a whole sealed frame of
the expected type, with the cursor `checkCursor` gives (R168, R173). -/
theorem checkFrame_store {s : State} (tr : Byte) {n : Nat} {bs : List Byte} (hw : s.cfg.wf = true)
    (hcap : frameLen s.cfg n ≤ s.cfg.pbCap) (hbs : bs.length ≤ frameLen s.cfg n) :
    ∃ b, (checkFrame tr (frameLen s.cfg n)).run (s.store bs) =
        .ok b ((s.store bs).withCur (checkCursor s.cfg (frameLen s.cfg n) s.cur (some bs))) ∧
      (b = true ↔ ∃ p : List Byte, p.length = n ∧ bs = rxFrame s.cfg tr p) := by
  obtain ⟨-, h16, -, -, hrx, -⟩ := Cfg.wf_facts hw
  have hL : frameLen s.cfg n = s.cfg.hdrLen + 2 + n := rfl
  obtain ⟨b, c, h1, h2, -, h4, h5⟩ := checkFrame_spec (s := s.store bs) tr (len := frameLen s.cfg n) hw
    (show s.cfg.hdrLen + 2 ≤ _ by omega) hcap
  refine ⟨b, ?_, h2.trans (accepts_store_iff tr hw hcap hbs)⟩
  have hrl : (s.store bs).rxlen.toNat = bs.length := by
    simp only [State.store_rxlen, BitVec.toNat_ofNat]; omega
  rw [hrl] at h4 h5
  rw [h1]
  congr 2
  by_cases hs : bs.length < frameLen s.cfg n
  · rw [h4 hs, checkCursor, if_pos hs]
    rfl
  · rw [h5 (by omega), checkCursor, if_neg hs, ← commonPrefix_take bs s.cfg.hdrRx (n := s.cfg.hdrLen) (by omega)]
    congr 3
    refine List.ext_getElem (by simp; omega) fun i hi _ => ?_
    have hib : i < bs.length := by simp at hi; omega
    rw [State.pbRange_getElem, List.getElem_take]
    exact State.pbRead_writeList_in (t := s.store bs) rfl hib

/-- The cursor of a rejected or accepted frame whose header is the device's. -/
theorem checkCursor_header {c : Cfg} {len : Nat} (cur : Half) {bs : List Byte} (hlen : len ≤ bs.length)
    (hh : bs.take c.hdrLen = c.hdrRx) (hrx : c.hdrRx.length = c.hdrLen) :
    checkCursor c len cur (some bs) = BitVec.ofNat 16 (c.hdrLen + 1) := by
  rw [checkCursor, if_neg (by omega), ← commonPrefix_take bs c.hdrRx (n := c.hdrLen) (by omega), hh, commonPrefix_self, hrx]

/-- The payload bytes of a frame in the buffer (R106, R110). -/
theorem pbRead_payload {s : State} {tr : Byte} {p : List Byte} (hw : s.cfg.wf = true) {i : Nat} (hi : i < p.length) :
    (s.store (rxFrame s.cfg tr p)).pbRead (s.cfg.hdrLen + 1 + i) = p[i] := by
  obtain ⟨-, -, -, -, hrx, -⟩ := Cfg.wf_facts hw
  have hlt : s.cfg.hdrLen + 1 + i < (rxFrame s.cfg tr p).length := by
    rw [rxFrame_length hrx]; simp only [frameLen]; omega
  have h := State.pbRead_writeList_in (t := s.store (rxFrame s.cfg tr p)) (a := 0) rfl hlt
  rw [Nat.zero_add] at h
  rw [h]
  simp only [rxFrame, frameBytes]
  rw [List.getElem_append_right (by omega)]
  simp only [hrx]
  have : s.cfg.hdrLen + 1 + i - s.cfg.hdrLen = i + 1 := by omega
  simp only [this, List.getElem_cons_succ]
  rw [List.getElem_append_left hi]

end Sys2Proof.Machine
end

