-- ==== Sys2Proof/Laws/Exchange.lean ====
section
/-! SUPPORT. One exchange with the device: what `XACK` answers in each case, and what any exchange may change. -/

namespace Sys2Proof.Machine

/-! ### The frame just encoded, and the state once it has been sent -/

theorem State.encoded_frame {s : State} (tc : Byte) {p : List Byte} (hw : s.cfg.wf = true)
    (hp : frameLen s.cfg p.length ≤ s.cfg.pbCap) :
    (s.encoded tc p).pbRange 0 (s.encoded tc p).txlen.toNat = txFrame s.cfg tc p := by
  obtain ⟨-, hcap, -, htx, -, -⟩ := Cfg.wf_facts hw
  have hlen : (s.encoded tc p).txlen.toNat = (txFrame s.cfg tc p).length := by
    rw [txFrame_length htx]
    simp only [State.encoded, BitVec.toNat_ofNat]
    omega
  rw [hlen]
  exact State.pbRange_writeList (m := s.pb) rfl

/-- The state once the frame has been encoded and its `T_SEND` answered. -/
def State.sent (s : State) (tc : Byte) (p : List Byte) : State :=
  (s.encoded tc p).answered.traced (.tSend (txFrame s.cfg tc p) s.nextAnswer.isOk)

/-- `ENCODE` and `SEND` with the transport held (R165, R166). -/
theorem encode_send {s : State} (tc : Byte) {p : List Byte} (hw : s.cfg.wf = true)
    (hp : frameLen s.cfg p.length ≤ s.cfg.pbCap) (ht : s.topen = true) :
    sendFrame.run (s.encoded tc p) = .ok (if s.nextAnswer.isOk then .ok else .tfail) (s.sent tc p) := by
  have h1 : (s.encoded tc p).topen = true := ht
  rw [sendFrame_eq, if_pos h1, State.encoded_frame tc hw hp]
  rfl

/-- `SEND` without the transport makes no call (R82, R166). -/
theorem encode_send_released {s : State} (tc : Byte) {p : List Byte} (ht : s.topen = false) :
    sendFrame.run (s.encoded tc p) = .ok .tfail (s.encoded tc p) := by
  have h1 : ¬ (s.encoded tc p).topen = true := by
    rw [show (s.encoded tc p).topen = s.topen from rfl, ht]; simp
  rw [sendFrame_eq, if_neg h1]

/-! ### XACK, case by case (R171) -/

theorem frameLen_ack_le {c : Cfg} (hw : c.wf = true) : frameLen c 1 ≤ c.pbCap := by
  have := (Cfg.wf_facts hw).1
  simp only [frameLen]
  omega

/-- Without the transport: the frame is encoded, no call is made, `TFail`. -/
theorem xack_released {s : State} (tc : Byte) {p : List Byte} (hw : s.cfg.wf = true)
    (hp : frameLen s.cfg p.length ≤ s.cfg.pbCap) (ht : s.topen = false) :
    (xack tc p).run s = .ok .tfail (s.encoded tc p) := by
  rw [xack, Micro.bind_ok (encodeFrame_ok tc hw hp), Micro.bind_ok (encode_send_released tc ht)]
  rfl

/-- The send fails: `TFail`, no receive. -/
theorem xack_send_fail {s : State} (tc : Byte) {p : List Byte} (hw : s.cfg.wf = true)
    (hp : frameLen s.cfg p.length ≤ s.cfg.pbCap) (ht : s.topen = true) (ha : s.nextAnswer.isOk = false) :
    (xack tc p).run s = .ok .tfail (s.sent tc p) := by
  rw [xack, Micro.bind_ok (encodeFrame_ok tc hw hp), Micro.bind_ok (encode_send tc hw hp ht), ha]
  rfl

/-- The receive fails: `TFail`. -/
theorem xack_recv_fail {s : State} (tc : Byte) {p : List Byte} (hw : s.cfg.wf = true)
    (hp : frameLen s.cfg p.length ≤ s.cfg.pbCap) (ht : s.topen = true) (ha : s.nextAnswer.isOk = true)
    (hr : (s.sent tc p).nextAnswer = .fail) :
    (xack tc p).run s = .ok .tfail ((s.sent tc p).polled (frameLen s.cfg 1)) := by
  have h1 : (s.sent tc p).topen = true := by simpa [State.sent, State.encoded] using ht
  have h2 : (recvFrame (frameLen s.cfg 1)).run (s.sent tc p) =
      .ok .tfail ((s.sent tc p).polled (frameLen s.cfg 1)) := by
    rw [recvFrame_eq, if_pos h1, hr]
    rfl
  have hcfg : (s.sent tc p).cfg = s.cfg := by simp [State.sent, State.encoded]
  rw [xack, Micro.bind_ok (encodeFrame_ok tc hw hp), Micro.bind_ok (encode_send tc hw hp ht), ha]
  simp only [if_true]
  rw [awaitAck, Micro.get_bind, hcfg]
  exact Micro.bind_ok h2

/-- The bytes of an ACK frame: its echo byte stands at the payload's place. -/
theorem ackFrame_echo {c : Cfg} (hw : c.wf = true) (x : Byte) : (ackFrame c x).getD (c.hdrLen + 1) 0 = x := by
  have hrx := (Cfg.wf_facts hw).2.2.2.2.1
  simp [ackFrame, rxFrame, frameBytes, List.getD_eq_getElem?_getD, hrx]

theorem ackFrame_inj {c : Cfg} {x y : Byte} : ackFrame c x = ackFrame c y ↔ x = y := by
  constructor
  · intro h
    have h' := List.append_cancel_left h
    simp at h'
    exact h'.1
  · rintro rfl; rfl

@[simp] theorem ackCursor_none (c : Cfg) (sent : Nat) : ackCursor c sent none = BitVec.ofNat 16 sent := by
  simp [ackCursor, checkCursor]

theorem ackCursor_ack {c : Cfg} (hw : c.wf = true) (sent : Nat) (x : Byte) :
    ackCursor c sent (some (ackFrame c x)) = BitVec.ofNat 16 (c.hdrLen + 2) := by
  rw [ackCursor, Option.getD_some, ackFrame_echo hw, if_pos rfl]

theorem ackCursor_other {c : Cfg} (sent : Nat) {bs : List Byte} (h : ∀ x, bs ≠ ackFrame c x) :
    ackCursor c sent (some bs) = checkCursor c (frameLen c 1) (BitVec.ofNat 16 sent) (some bs) :=
  if_neg fun hs => h _ (Option.some.inj hs)

/-- The end of `XACK` on a string just received: the echo byte and the acceptance together say that it is the ACK
frame, and the cursor is the one `ackCursor` gives (R109, R168, R171). -/
theorem ackTail_store {u : State} (tc : Byte) {bs : List Byte} {sent : Nat} (hw : u.cfg.wf = true)
    (hbs : bs.length ≤ frameLen u.cfg 1) (hcur : u.cur = BitVec.ofNat 16 sent) :
    (ackTail tc).run (u.store bs) =
      .ok (if bs = ackFrame u.cfg tc then .ok else .reject)
        ((u.store bs).withCur (ackCursor u.cfg sent (some bs))) := by
  obtain ⟨hmin, hcap, -, -, hrx, -⟩ := Cfg.wf_facts hw
  have hL : u.cfg.hdrLen + 3 = frameLen u.cfg 1 := by simp only [frameLen]
  obtain ⟨b, h1, hacc⟩ := checkFrame_store u.cfg.trAck (bs := bs) hw (frameLen_ack_le hw) hbs
  rw [ackTail, Micro.get_bind]
  simp only [State.store_cfg]
  rw [hL, Micro.bind_ok h1]
  cases b with
  | false =>
    have hne : ∀ x, bs ≠ ackFrame u.cfg x := fun x h => by
      have := hacc.2 ⟨[x], rfl, h⟩
      simp at this
    rw [if_neg (hne tc), ackCursor_other sent hne, hcur]
    rfl
  | true =>
    obtain ⟨q, hq, rfl⟩ := hacc.1 rfl
    obtain ⟨x, rfl⟩ := List.length_eq_one_iff.1 hq
    have hlen : (rxFrame u.cfg u.cfg.trAck [x]).length = frameLen u.cfg 1 := rxFrame_length hrx _ _
    have hc := checkCursor_header (c := u.cfg) (len := frameLen u.cfg 1) u.cur
      (bs := rxFrame u.cfg u.cfg.trAck [x]) (by omega) (by simp [rxFrame, frameBytes, ← hrx]) hrx
    rw [hc]
    have hcn : (BitVec.ofNat 16 (u.cfg.hdrLen + 1)).toNat = u.cfg.hdrLen + 1 := by rw [BitVec.toNat_ofNat]; omega
    have hread : (u.store (rxFrame u.cfg u.cfg.trAck [x])).pbRead (u.cfg.hdrLen + 1) = x := by
      have := pbRead_payload (s := u) (tr := u.cfg.trAck) (p := [x]) hw (i := 0) (by simp)
      simpa using this
    have hc2 : BitVec.ofNat 16 (u.cfg.hdrLen + 1) + 1 = BitVec.ofNat 16 (u.cfg.hdrLen + 2) := by bv_omega
    have hg : getByte.run ((u.store (rxFrame u.cfg u.cfg.trAck [x])).withCur (BitVec.ofNat 16 (u.cfg.hdrLen + 1))) =
        .ok x ((u.store (rxFrame u.cfg u.cfg.trAck [x])).withCur (BitVec.ofNat 16 (u.cfg.hdrLen + 2))) := by
      rw [getByte_ok (by rw [State.withCur_cur, hcn]; exact (by omega : u.cfg.hdrLen + 1 < u.cfg.pbCap)),
        State.withCur_cur, State.withCur_pbRead, hcn, hread, hc2]
      rfl
    simp only [if_true]
    rw [Micro.bind_ok hg]
    have hack : rxFrame u.cfg u.cfg.trAck [x] = ackFrame u.cfg x := rfl
    rw [hack, ackCursor_ack hw]
    by_cases hx : x = tc
    · rw [if_pos hx, if_pos (ackFrame_inj.2 hx)]; rfl
    · rw [if_neg hx, if_neg (fun h => hx (ackFrame_inj.1 h))]; rfl

/-- Something is received: `Ok` exactly when it is the ACK frame of `tc`, else `Reject`; the bytes are in the buffer
and counted. -/
theorem xack_recv {s : State} (tc : Byte) {p bs : List Byte} (hw : s.cfg.wf = true)
    (hp : frameLen s.cfg p.length ≤ s.cfg.pbCap) (ht : s.topen = true) (ha : s.nextAnswer.isOk = true)
    (hr : (s.sent tc p).nextAnswer = .ok bs) :
    (xack tc p).run s =
      .ok (if bs.take (frameLen s.cfg 1) = ackFrame s.cfg tc then .ok else .reject)
        ((((s.sent tc p).polled (frameLen s.cfg 1)).store (bs.take (frameLen s.cfg 1))).withCur
          (ackCursor s.cfg (frameLen s.cfg p.length) (some (bs.take (frameLen s.cfg 1))))) := by
  have h1 : (s.sent tc p).topen = true := by simpa [State.sent, State.encoded] using ht
  have hcfg : (s.sent tc p).cfg = s.cfg := by simp [State.sent, State.encoded]
  have hcfg' : ((s.sent tc p).polled (frameLen s.cfg 1)).cfg = s.cfg := by simp [State.polled, hcfg]
  have hcur : ((s.sent tc p).polled (frameLen s.cfg 1)).cur = BitVec.ofNat 16 (frameLen s.cfg p.length) := by
    simp [State.polled, State.sent, State.encoded]
  have h2 : (recvFrame (frameLen s.cfg 1)).run (s.sent tc p) =
      .ok .ok (((s.sent tc p).polled (frameLen s.cfg 1)).store (bs.take (frameLen s.cfg 1))) := by
    rw [recvFrame_eq, if_pos h1, hr]
    rfl
  have h3 := ackTail_store (u := (s.sent tc p).polled (frameLen s.cfg 1)) tc
    (bs := bs.take (frameLen s.cfg 1)) (by rw [hcfg']; exact hw) (by rw [hcfg']; simp) hcur
  rw [hcfg'] at h3
  rw [xack, Micro.bind_ok (encodeFrame_ok tc hw hp), Micro.bind_ok (encode_send tc hw hp ht), ha]
  simp only [if_true]
  rw [awaitAck, Micro.get_bind, hcfg]
  exact (Micro.bind_ok h2).trans h3

/-! ### XACK, whole -/

/-- The environment's next answer depends on nothing an exchange has written. -/
theorem State.sent_nextAnswer (s : State) (tc : Byte) (p : List Byte) :
    (s.sent tc p).nextAnswer = s.answered.nextAnswer := by
  unfold State.sent State.traced State.answered State.encoded State.nextAnswer
  cases s.answers <;> rfl

/-- An answer is taken off whatever the codec and the trace hold. -/
theorem State.answered_update (s : State) (pb : Memory) (cur rem txlen : Half) (trace : List Call) :
    State.answered { s with pb := pb, cur := cur, rem := rem, txlen := txlen, trace := trace } =
      { s.answered with pb := pb, cur := cur, rem := rem, txlen := txlen, trace := trace } := by
  unfold State.answered
  cases s.answers <;> rfl

/-- The state once a frame has been encoded and its send answered, field by field. -/
theorem State.sent_eq (s : State) (tc : Byte) (p : List Byte) : s.sent tc p = { s.answered with
    pb := Memory.writeList s.pb 0 (txFrame s.cfg tc p)
    cur := BitVec.ofNat 16 (frameLen s.cfg p.length)
    rem := 0
    txlen := BitVec.ofNat 16 (frameLen s.cfg p.length)
    trace := s.trace ++ [.tSend (txFrame s.cfg tc p) s.nextAnswer.isOk] } := by
  rw [State.sent, State.traced, State.encoded, State.answered_update]

/-- The same once a receive has been answered too. -/
theorem State.sent_polled (s : State) (tc : Byte) (p : List Byte) (len : Nat) : (s.sent tc p).polled len =
    { s.answered.answered with
      pb := Memory.writeList s.pb 0 (txFrame s.cfg tc p)
      cur := BitVec.ofNat 16 (frameLen s.cfg p.length)
      rem := 0
      txlen := BitVec.ofNat 16 (frameLen s.cfg p.length)
      trace := s.trace ++ [.tSend (txFrame s.cfg tc p) s.nextAnswer.isOk,
        .tRecv len s.cfg.rxTimeout (s.answered.nextAnswer.received len)] } := by
  rw [State.polled, State.traced, State.sent_nextAnswer, State.sent_eq, State.answered_update]
  simp

/-- The buffer an exchange leaves: the frame sent, and over it the string received (R172). -/
def State.exchangePb (s : State) (tc : Byte) (p : List Byte) : Memory :=
  Memory.writeList (Memory.writeList s.pb 0 (txFrame s.cfg tc p)) 0 (s.exchangeReceived.getD [])

/-- One list written from index 0 over another (R172). -/
theorem State.holds_overlay {s t : State} {sent got : List Byte}
    (h : t.pb = Memory.writeList (Memory.writeList s.pb 0 sent) 0 got) (hr : t.resets = s.resets) :
    t.Holds s (overlay got sent) := by
  intro a
  obtain ⟨m, hm⟩ : ∃ m, m = Memory.writeList s.pb 0 sent := ⟨_, rfl⟩
  rw [← hm] at h
  rw [overlay, List.getD_eq_getElem?_getD]
  by_cases ha : a < got.length
  · have := State.pbRead_writeList_in (a := 0) h ha
    rw [Nat.zero_add] at this
    rw [this, List.getElem?_append_left ha, List.getElem?_eq_getElem ha]
    rfl
  · rw [State.pbRead_writeList_out (s := { s with pb := m }) h hr (.inr (by omega)),
      List.getElem?_append_right (by omega), List.getElem?_drop, Nat.add_sub_cancel' (by omega)]
    by_cases hb : a < sent.length
    · have := State.pbRead_writeList_in (t := { s with pb := m }) (a := 0) hm hb
      rw [Nat.zero_add] at this
      rw [this, List.getElem?_eq_getElem hb]
      rfl
    · rw [State.pbRead_writeList_out (s := s) (t := { s with pb := m }) hm rfl (.inr (by omega)),
        List.getElem?_eq_none (by omega)]
      rfl

/-- `XACK`, whatever the environment answers: what it returns and all it leaves (R171, R172). -/
theorem xack_run {s : State} (tc : Byte) {p : List Byte} (hw : s.cfg.wf = true)
    (hp : frameLen s.cfg p.length ≤ s.cfg.pbCap) :
    (xack tc p).run s = .ok (s.reply tc) { s.afterExchange tc p with pb := s.exchangePb tc p } := by
  have key := State.sent_nextAnswer s tc p
  cases ht : s.topen with
  | false =>
    rw [xack_released tc hw hp ht]
    simp [State.reply, State.afterExchange, State.exchangePb, State.exchangeReceived, State.exchangeAnswered,
      State.exchangeCalls, ht, rxlenAfter, State.encoded, Memory.writeList]
  | true =>
    cases ha : s.nextAnswer with
    | fail =>
      rw [xack_send_fail tc hw hp ht (by rw [ha]; rfl), State.sent_eq]
      simp [State.reply, State.afterExchange, State.exchangePb, State.exchangeReceived, State.exchangeAnswered,
        State.exchangeCalls, ht, ha, rxlenAfter, Answer.isOk, Memory.writeList]
    | ok b =>
      cases hr : s.answered.nextAnswer with
      | fail =>
        rw [xack_recv_fail tc hw hp ht (by rw [ha]; rfl) (by rw [key, hr]), State.sent_polled]
        simp [State.reply, State.afterExchange, State.exchangePb, State.exchangeReceived, State.exchangeAnswered,
          State.exchangeCalls, ht, ha, hr, rxlenAfter, Answer.isOk, Answer.received, Memory.writeList]
      | ok bs =>
        rw [xack_recv tc hw hp ht (by rw [ha]; rfl) (by rw [key, hr]), State.sent_polled]
        simp [State.reply, State.afterExchange, State.exchangePb, State.exchangeReceived, State.exchangeAnswered,
          State.exchangeCalls, ht, ha, hr, rxlenAfter, Answer.isOk, Answer.received, State.withCur, State.store]

/-! ### What an exchange may change -/

/-- What any exchange, whole or cut short, may change: the buffer below `bound`, the codec registers, the answers
drawn and the trace. Every call it adds is legal, and it leaves the transport held as it was. -/
structure Exchanged (bound : Nat) (s t : State) : Prop where
  /-- Every other field is unchanged. -/
  same : t = { s with
    pb := t.pb, cur := t.cur, rem := t.rem, rxlen := t.rxlen, txlen := t.txlen, answers := t.answers,
    draws := t.draws, trace := t.trace }
  /-- The buffer stays in canonical form and inside its size. -/
  pb_wf : Memory.wf s.pb = true → Memory.wf t.pb = true
  pb_within : Memory.within s.pb s.cfg.pbCap = true → Memory.within t.pb s.cfg.pbCap = true
  /-- Bytes at and above the bound are unchanged. -/
  pb_above : ∀ a, bound ≤ a → t.pbRead a = s.pbRead a
  rxlen_le : s.rxlen.toNat ≤ s.cfg.pbCap → t.rxlen.toNat ≤ s.cfg.pbCap
  txlen_le : s.txlen.toNat ≤ s.cfg.pbCap → t.txlen.toNat ≤ s.cfg.pbCap
  /-- The calls made. -/
  calls : ∃ cs, t.trace = s.trace ++ cs ∧ cs.length ≤ 2 ∧ cs.all (callOk s.cfg) = true ∧
    (s.topen = false → cs = []) ∧ ∀ r, linkFrom (.held r) cs = some (.held r)

theorem Exchanged.refl (bound : Nat) (s : State) : Exchanged bound s s where
  same := rfl
  pb_wf := id
  pb_within := id
  pb_above _ _ := rfl
  rxlen_le := id
  txlen_le := id
  calls := ⟨[], by simp [linkFrom]⟩

/-- Moving the cursor afterwards is still part of the exchange. -/
theorem Exchanged.setCur {bound : Nat} {s t : State} (h : Exchanged bound s t) (c : Half) :
    Exchanged bound s (t.withCur c) where
  same := by rw [h.same]; rfl
  pb_wf := h.pb_wf
  pb_within := h.pb_within
  pb_above a ha := h.pb_above a ha
  rxlen_le := h.rxlen_le
  txlen_le := h.txlen_le
  calls := h.calls

theorem Exchanged.mono {b b' : Nat} {s t : State} (h : Exchanged b s t) (hb : b ≤ b') : Exchanged b' s t :=
  { h with pb_above := fun a ha => h.pb_above a (le_trans hb ha) }

/-- `ENCODE` alone. -/
theorem Exchanged.encoded {s : State} (tc : Byte) {p : List Byte} (hw : s.cfg.wf = true)
    (hp : frameLen s.cfg p.length ≤ s.cfg.pbCap) :
    Exchanged (frameLen s.cfg p.length) s (s.encoded tc p) := by
  obtain ⟨-, hcap, -, htx, -, -⟩ := Cfg.wf_facts hw
  have hlen := txFrame_length htx tc p
  exact {
    same := rfl
    pb_wf := fun h => Memory.writeList_wf h _ _
    pb_within := fun h => Memory.writeList_within h (by omega)
    pb_above := fun a ha => State.pbRead_writeList_out (s := s) (t := s.encoded tc p) rfl rfl (Or.inr (by omega))
    rxlen_le := id
    txlen_le := fun _ => by simp only [State.encoded, BitVec.toNat_ofNat]; omega
    calls := ⟨[], by simp [State.encoded, linkFrom]⟩ }

/-- `ENCODE` and `SEND` with the transport held. -/
theorem Exchanged.sent {s : State} (tc : Byte) {p : List Byte} (hw : s.cfg.wf = true)
    (hp : frameLen s.cfg p.length ≤ s.cfg.pbCap) (ht : s.topen = true) :
    Exchanged (frameLen s.cfg p.length) s (s.sent tc p) ∧
      (s.sent tc p).trace = s.trace ++ [.tSend (txFrame s.cfg tc p) s.nextAnswer.isOk] := by
  obtain ⟨-, hcap, -, htx, -, -⟩ := Cfg.wf_facts hw
  have hlen := txFrame_length htx tc p
  have e := Exchanged.encoded tc hw hp
  have htr : (s.sent tc p).trace = s.trace ++ [.tSend (txFrame s.cfg tc p) s.nextAnswer.isOk] := by
    simp [State.sent, State.encoded]
  refine ⟨{
    same := ?_
    pb_wf := fun h => by simpa [State.sent] using e.pb_wf h
    pb_within := fun h => by simpa [State.sent] using e.pb_within h
    pb_above := fun a ha => by rw [← e.pb_above a ha]; simp [State.pbRead, State.sent]
    rxlen_le := fun h => by simpa [State.sent] using e.rxlen_le h
    txlen_le := fun h => by simpa [State.sent] using e.txlen_le h
    calls := ⟨_, htr, by simp, ?_, by simp [ht], fun r => rfl⟩ }, htr⟩
  · unfold State.sent State.traced State.answered State.encoded
    cases s.answers <;> rfl
  · have h1 : 1 ≤ (txFrame s.cfg tc p).length := by rw [hlen]; simp only [frameLen]; omega
    have h2 : (txFrame s.cfg tc p).length ≤ s.cfg.pbCap := by rw [hlen]; exact hp
    simp [callOk, h1, h2]

/-- A receive of at most `len` bytes after whatever was sent. -/
theorem Exchanged.received {b len : Nat} {s t u : State} (h : Exchanged b s t) (ht : s.topen = true)
    (hcs : ∃ c, t.trace = s.trace ++ [c] ∨ t.trace = s.trace) (hlen : 1 ≤ len) (hcap : len ≤ s.cfg.pbCap)
    (h16 : s.cfg.pbCap ≤ 65535)
    (hu : u = t.polled len ∨ ∃ bs, t.nextAnswer.received len = some bs ∧ u = (t.polled len).store bs) :
    Exchanged (max b len) s u := by
  have hcfg : t.cfg = s.cfg := by rw [h.same]
  have hpoll : Exchanged b s (t.polled len) := by
    obtain ⟨cs, c1, c2, c3, c4, c5⟩ := h.calls
    have hcs1 : cs.length ≤ 1 := by
      obtain ⟨c, hc | hc⟩ := hcs
      · rw [c1] at hc; simp [List.append_cancel_left hc]
      · rw [c1] at hc; simp at hc; simp [hc]
    exact {
      same := by
        rw [h.same]
        unfold State.polled State.traced State.answered
        cases t.answers <;> rfl
      pb_wf := fun hx => by simpa [State.polled] using h.pb_wf hx
      pb_within := fun hx => by simpa [State.polled] using h.pb_within hx
      pb_above := fun a ha => by rw [← h.pb_above a ha]; simp [State.pbRead, State.polled]
      rxlen_le := fun hx => by simpa [State.polled] using h.rxlen_le hx
      txlen_le := fun hx => by simpa [State.polled] using h.txlen_le hx
      calls := by
        refine ⟨cs ++ [.tRecv len t.cfg.rxTimeout (t.nextAnswer.received len)], ?_, ?_, ?_, ?_, ?_⟩
        · simp [State.polled, c1]
        · simp; omega
        · rw [List.all_append, c3, hcfg]
          cases hrec : t.nextAnswer.received len with
          | none => simp [callOk, hlen, hcap]
          | some bs => simp [callOk, hlen, hcap, Answer.received_length hrec]
        · simp [ht]
        · intro r
          rw [linkFrom, List.foldlM_append]
          have := c5 r
          rw [linkFrom] at this
          rw [this]
          rfl }
  rcases hu with rfl | ⟨bs, hbs, rfl⟩
  · exact hpoll.mono (le_max_left _ _)
  · have hbl := Answer.received_length hbs
    exact {
      same := by rw [hpoll.same]; rfl
      pb_wf := fun hx => Memory.writeList_wf (hpoll.pb_wf hx) _ _
      pb_within := fun hx => Memory.writeList_within (hpoll.pb_within hx) (by omega)
      pb_above := fun a ha => by
        rw [← hpoll.pb_above a (le_trans (le_max_left _ _) ha)]
        exact State.pbRead_writeList_out rfl rfl (Or.inr (by have := le_trans (le_max_right b len) ha; omega))
      rxlen_le := fun _ => by simp only [State.store_rxlen, BitVec.toNat_ofNat]; omega
      txlen_le := fun hx => by simpa using hpoll.txlen_le hx
      calls := by simpa using hpoll.calls }

/-- `XACK` never overruns, and is one exchange that stores below the longer of its two frames (R163, R171, R172). -/
theorem xack_exchanged {s : State} (tc : Byte) {p : List Byte} (hw : s.cfg.wf = true)
    (hp : frameLen s.cfg p.length ≤ s.cfg.pbCap) :
    ∃ r t, (xack tc p).run s = .ok r t ∧ Exchanged (max (frameLen s.cfg p.length) (frameLen s.cfg 1)) s t ∧
      (r ≠ .tfail → s.topen = true) := by
  have h1 := frameLen_ack_le hw
  have h16 := (Cfg.wf_facts hw).2.1
  have hlen : 1 ≤ frameLen s.cfg 1 := by simp only [frameLen]; omega
  cases ht : s.topen with
  | false =>
    exact ⟨_, _, xack_released tc hw hp ht, (Exchanged.encoded tc hw hp).mono (le_max_left _ _), by simp⟩
  | true =>
    obtain ⟨es, htr⟩ := Exchanged.sent tc hw hp ht
    cases ha : s.nextAnswer.isOk with
    | false => exact ⟨_, _, xack_send_fail tc hw hp ht ha, es.mono (le_max_left _ _), by simp⟩
    | true =>
      cases hr : (s.sent tc p).nextAnswer with
      | fail =>
        exact ⟨_, _, xack_recv_fail tc hw hp ht ha hr, es.received ht ⟨_, .inl htr⟩ hlen h1 h16 (.inl rfl), by simp⟩
      | ok bs =>
        refine ⟨_, _, xack_recv tc hw hp ht ha hr,
          Exchanged.setCur (es.received ht ⟨_, .inl htr⟩ hlen h1 h16 (.inr ⟨_, ?_, rfl⟩)) _, by simp⟩
        rw [hr]
        rfl

end Sys2Proof.Machine
end

