-- ==== Sys2Proof/Laws/PerInstr.lean ====
section
/-! SUPPORT. The encoding of each instruction, field by field, one lemma per constructor. -/

namespace Sys2Proof.Laws.Fields

/-- The three fields of the encoded word are the opcode and the two operand fields the instruction is written with
(R100, R103, R115). -/
def Statement (i : Instr) : Prop :=
  opcField (encode i) = i.opcode ∧ aField (encode i) = i.fieldA ∧ bField (encode i) = i.fieldB

/-- The fields of any three values put together. -/
theorem of_append (b : Half) (a : Byte) (o : BitVec 8) :
    opcField (b ++ a ++ o) = o ∧ aField (b ++ a ++ o) = a ∧ bField (b ++ a ++ o) = b := by
  simp only [opcField, aField, bField]
  refine ⟨?_, ?_, ?_⟩ <;> apply BitVec.eq_of_getLsbD_eq <;> intro k hk <;>
    simp only [BitVec.getLsbD_extractLsb', BitVec.getLsbD_append]
  · simp [hk]
  · simp [hk, show 8 + k - 8 = k by omega]
  · simp [hk, show ¬ 16 + k < 8 by omega, show ¬ 16 + k - 8 < 8 by omega, show 16 + k - 8 - 8 = k by omega]

theorem nop : Statement .nop := of_append _ _ _
theorem open_ : Statement .open_ := of_append _ _ _
theorem close : Statement .close := of_append _ _ _
theorem start : Statement .start := of_append _ _ _
theorem stop : Statement .stop := of_append _ _ _
theorem step : Statement .step := of_append _ _ _
theorem reset : Statement .reset := of_append _ _ _
theorem reneg : Statement .reneg := of_append _ _ _
theorem cfgwin : Statement .cfgwin := of_append _ _ _
theorem cset (a : Byte) : Statement (.cset a) := of_append _ _ _
theorem cget : Statement .cget := of_append _ _ _
theorem ccrc (b : Half) : Statement (.ccrc b) := of_append _ _ _

end Sys2Proof.Laws.Fields
end

