-- ==== Sys2Proof/Laws/Sequencer.lean ====
section
/-! SUPPORT. What the sub-sequences of the sequencer can do: every call legal, the link as `TOPEN` and `BAUD_CUR`
claim, which codes they end with. -/

namespace Sys2Proof.Machine

/-! ### Several exchanges and reopenings in a row -/

/-- What a run of at most `n` transport calls may change, the transport reopened at other rates or not. The trace it
adds is legal and ends with the transport as `TOPEN` and `BAUD_CUR` say. -/
structure Session (n bound : Nat) (s t : State) : Prop where
  /-- Every other field is unchanged. -/
  same : t = { s with
    phase := t.phase, topen := t.topen, baudCur := t.baudCur, pb := t.pb, cur := t.cur, rem := t.rem,
    rxlen := t.rxlen, txlen := t.txlen, answers := t.answers, draws := t.draws, trace := t.trace }
  pb_wf : Memory.wf s.pb = true → Memory.wf t.pb = true
  pb_within : Memory.within s.pb s.cfg.pbCap = true → Memory.within t.pb s.cfg.pbCap = true
  pb_above : ∀ a, bound ≤ a → t.pbRead a = s.pbRead a
  rxlen_le : s.rxlen.toNat ≤ s.cfg.pbCap → t.rxlen.toNat ≤ s.cfg.pbCap
  txlen_le : s.txlen.toNat ≤ s.cfg.pbCap → t.txlen.toNat ≤ s.cfg.pbCap
  calls : ∃ cs, t.trace = s.trace ++ cs ∧ cs.length ≤ n ∧ cs.all (callOk s.cfg) = true ∧
    linkFrom s.claimedLink cs = some t.claimedLink

theorem Session.cfg_eq {n b : Nat} {s t : State} (h : Session n b s t) : t.cfg = s.cfg := by rw [h.same]

theorem Session.refl (n b : Nat) (s : State) : Session n b s s where
  same := rfl
  pb_wf := id
  pb_within := id
  pb_above _ _ := rfl
  rxlen_le := id
  txlen_le := id
  calls := ⟨[], by simp [linkFrom]⟩

theorem linkFrom_append {l m : Link} {as bs : List Call} (h : linkFrom l as = some m) :
    linkFrom l (as ++ bs) = linkFrom m bs := by
  rw [linkFrom, List.foldlM_append]
  rw [linkFrom] at h
  rw [h]
  rfl

theorem Session.trans {n m b : Nat} {s t u : State} (h : Session n b s t) (k : Session m b t u) :
    Session (n + m) b s u where
  same := by
    rw [k.same, h.same]
  pb_wf hx := k.pb_wf (h.pb_wf hx)
  pb_within hx := by
    have := k.pb_within
    rw [h.cfg_eq] at this
    exact this (h.pb_within hx)
  pb_above a ha := (k.pb_above a ha).trans (h.pb_above a ha)
  rxlen_le hx := by
    have := k.rxlen_le
    rw [h.cfg_eq] at this
    exact this (h.rxlen_le hx)
  txlen_le hx := by
    have := k.txlen_le
    rw [h.cfg_eq] at this
    exact this (h.txlen_le hx)
  calls := by
    obtain ⟨cs, h1, h2, h3, h4⟩ := h.calls
    obtain ⟨ds, k1, k2, k3, k4⟩ := k.calls
    refine ⟨cs ++ ds, by rw [k1, h1, List.append_assoc], by simp; omega, ?_, ?_⟩
    · rw [h.cfg_eq] at k3
      rw [List.all_append, h3, k3]
      rfl
    · rw [linkFrom_append h4, k4]

theorem Session.mono {n m b c : Nat} {s t : State} (h : Session n b s t) (hn : n ≤ m) (hb : b ≤ c) :
    Session m c s t :=
  { h with
    pb_above := fun a ha => h.pb_above a (le_trans hb ha)
    calls := by
      obtain ⟨cs, h1, h2, h3⟩ := h.calls
      exact ⟨cs, h1, by omega, h3⟩ }

theorem Session.of_exchanged {b : Nat} {s t : State} (h : Exchanged b s t) : Session 2 b s t where
  same := by rw [h.same]
  pb_wf := h.pb_wf
  pb_within := h.pb_within
  pb_above := h.pb_above
  rxlen_le := h.rxlen_le
  txlen_le := h.txlen_le
  calls := by
    obtain ⟨cs, h1, h2, h3, h4, h5⟩ := h.calls
    refine ⟨cs, h1, h2, h3, ?_⟩
    have ht : t.claimedLink = s.claimedLink := by rw [h.same]; rfl
    rw [ht]
    unfold State.claimedLink
    cases htop : s.topen with
    | false => simp [h4 htop, linkFrom]
    | true => simpa using h5 (rate s.baudCur)

/-- A change of `STATE` alone. -/
theorem Session.setPhase {n b : Nat} {s t : State} (h : Session n b s t) (p : Phase) :
    Session n b s { t with phase := p } where
  same := by rw [h.same]
  pb_wf := h.pb_wf
  pb_within := h.pb_within
  pb_above a ha := h.pb_above a ha
  rxlen_le := h.rxlen_le
  txlen_le := h.txlen_le
  calls := h.calls

/-! ### Opening and closing the transport -/

theorem rate_mem (c : BitVec 3) : rate c ∈ baudCodes.map rate := by
  revert c
  decide

/-- `T_CLOSE() ; TOPEN <- 0`, with the transport held. -/
theorem tClose_session {s : State} (ht : s.topen = true) :
    ∃ t, tClose.run s = .ok () t ∧ Session 1 0 s t ∧ t.topen = false ∧ t.phase = s.phase ∧ t.baudCur = s.baudCur :=
  ⟨_, rfl, {
    same := rfl
    pb_wf := id
    pb_within := id
    pb_above := fun _ _ => rfl
    rxlen_le := id
    txlen_le := id
    calls := ⟨[.tClose], rfl, by simp, rfl, by simp [State.claimedLink, ht, linkFrom, Link.after]⟩ },
    rfl, rfl, rfl⟩

/-- The state once a `T_OPEN` at code `c` has been answered. -/
def State.opened (s : State) (c : BitVec 3) : State :=
  s.answered.traced (.tOpen s.cfg.deviceId (rate c) s.nextAnswer.isOk)

/-- `T_OPEN` (R80). -/
theorem tOpen_run (c : BitVec 3) (s : State) : (tOpen c).run s = .ok s.nextAnswer.isOk (s.opened c) := rfl

/-- A `T_OPEN` that fails leaves the transport released. -/
theorem opened_fail {s : State} (c : BitVec 3) (ht : s.topen = false) (ha : s.nextAnswer.isOk = false) :
    Session 1 0 s (s.opened c) where
  same := by
    unfold State.opened State.traced State.answered
    cases s.answers <;> rfl
  pb_wf := by simp [State.opened]
  pb_within := by simp [State.opened]
  pb_above a _ := by simp [State.pbRead, State.opened]
  rxlen_le := by simp [State.opened]
  txlen_le := by simp [State.opened]
  calls := by
    refine ⟨[.tOpen s.cfg.deviceId (rate c) s.nextAnswer.isOk], by simp [State.opened], by simp, ?_, ?_⟩
    · simp only [List.all_cons, callOk, rate_mem, decide_true, Bool.and_self, List.all_nil]
    · simp [State.claimedLink, ht, ha, linkFrom, Link.after, State.opened]

/-- A `T_OPEN` that succeeds, followed by the bookkeeping of `TOPEN` and `BAUD_CUR` (R26, R32). -/
theorem opened_ok {s : State} (c : BitVec 3) (ht : s.topen = false) (ha : s.nextAnswer.isOk = true) :
    Session 1 0 s { s.opened c with topen := true, baudCur := c } where
  same := by
    unfold State.opened State.traced State.answered
    cases s.answers <;> rfl
  pb_wf := by simp [State.opened]
  pb_within := by simp [State.opened]
  pb_above a _ := by simp [State.pbRead, State.opened]
  rxlen_le := by simp [State.opened]
  txlen_le := by simp [State.opened]
  calls := by
    refine ⟨[.tOpen s.cfg.deviceId (rate c) s.nextAnswer.isOk], by simp [State.opened], by simp, ?_, ?_⟩
    · simp only [List.all_cons, callOk, rate_mem, decide_true, Bool.and_self, List.all_nil]
    · simp [State.claimedLink, ht, ha, linkFrom, Link.after]

theorem State.opened_phase (s : State) (c : BitVec 3) : (s.opened c).phase = s.phase := by simp [State.opened]
theorem State.opened_topen (s : State) (c : BitVec 3) : (s.opened c).topen = s.topen := by simp [State.opened]
theorem State.opened_cfg (s : State) (c : BitVec 3) : (s.opened c).cfg = s.cfg := by simp [State.opened]

/-! ### The probe exchange -/

theorem frameLen_zero_le {c : Cfg} (hw : c.wf = true) : frameLen c 0 ≤ c.pbCap := by
  have := (Cfg.wf_facts hw).1
  simp only [frameLen]
  omega

/-- An exchange of a frame with at most eight payload bytes, as a session. -/
theorem xack_session {s : State} (tc : Byte) {p : List Byte} (hw : s.cfg.wf = true)
    (hp : frameLen s.cfg p.length ≤ s.cfg.pbCap) (hp8 : p.length ≤ 8) :
    ∃ r t, (xack tc p).run s = .ok r t ∧ Session 2 (frameLen s.cfg 8) s t ∧ t.phase = s.phase ∧
      t.topen = s.topen ∧ t.baudCur = s.baudCur ∧ (r ≠ .tfail → s.topen = true) := by
  obtain ⟨r, t, h1, h2, h3⟩ := xack_exchanged tc hw hp
  refine ⟨r, t, h1, (Session.of_exchanged h2).mono le_rfl ?_, by rw [h2.same], by rw [h2.same], by rw [h2.same], h3⟩
  simp only [frameLen]
  omega

/-! ### DETECT (R193) -/

/-- The detection loop ends with success, TransportError or, all rates tried, ProtocolError; it makes at most four
calls a rate; only a failed `T_OPEN` leaves the transport released. -/
theorem detectLoop_session (cs : List (BitVec 3)) {s : State} (hw : s.cfg.wf = true) (ht : s.topen = true) :
    ∃ e t, (detectLoop cs).run s = .ok e t ∧ Session (4 * cs.length) (frameLen s.cfg 8) s t ∧ t.phase = s.phase ∧
      (e = .noError ∨ e = .transport ∨ e = .protocol) ∧ (e ≠ .transport → t.topen = true) := by
  induction cs generalizing s with
  | nil => exact ⟨.protocol, s, rfl, Session.refl _ _ _, rfl, by simp, fun _ => ht⟩
  | cons c cs ih =>
    obtain ⟨s1, h1, k1, ht1, hp1, -⟩ := tClose_session ht
    have hc1 := k1.cfg_eq
    rw [detectLoop, Micro.bind_ok h1, Micro.bind_ok (tOpen_run c s1)]
    have k1' : Session 1 (frameLen s.cfg 8) s s1 := k1.mono le_rfl (Nat.zero_le _)
    cases ha : s1.nextAnswer.isOk with
    | false =>
      simp only [Bool.false_eq_true, if_false]
      refine ⟨.transport, _, rfl, ?_, ?_, by simp, by simp⟩
      · exact (k1'.trans ((opened_fail c ht1 ha).mono le_rfl (Nat.zero_le _))).mono
          (by simp only [List.length_cons]; omega) le_rfl
      · rw [State.opened_phase, hp1]
    | true =>
      simp only [if_true]
      obtain ⟨s2, hs2⟩ : ∃ s2, s2 = { s1.opened c with topen := true, baudCur := c } := ⟨_, rfl⟩
      have k2 : Session 1 0 s1 s2 := by rw [hs2]; exact opened_ok c ht1 ha
      have hrun : holdTransport.run (s1.opened c) = .ok () { s1.opened c with topen := true } := rfl
      have hrun2 : (setBaudCur c).run { s1.opened c with topen := true } = .ok () s2 := by rw [hs2]; rfl
      have hc2 : s2.cfg = s.cfg := by rw [k2.cfg_eq, hc1]
      have ht2 : s2.topen = true := by rw [hs2]
      have hp2 : s2.phase = s.phase := by rw [hs2]; exact (State.opened_phase s1 c).trans hp1
      rw [Micro.bind_ok hrun, Micro.bind_ok hrun2, Micro.get_bind]
      have k12 : Session 2 (frameLen s.cfg 8) s s2 := k1'.trans (k2.mono le_rfl (Nat.zero_le _))
      obtain ⟨r, s3, h3, k3, hp3, ht3, -, -⟩ := xack_session (s := s2) s2.cfg.tcProbe (p := []) (by rw [hc2]; exact hw)
        (frameLen_zero_le (by rw [hc2]; exact hw)) (by simp)
      rw [hc2] at k3
      have k123 := k12.trans k3
      rw [Micro.bind_ok h3]
      cases r with
      | tfail =>
        exact ⟨.transport, s3, rfl, k123.mono (by simp only [List.length_cons]; omega) le_rfl, by rw [hp3, hp2],
          by simp, by simp⟩
      | ok =>
        exact ⟨.noError, s3, rfl, k123.mono (by simp only [List.length_cons]; omega) le_rfl, by rw [hp3, hp2],
          by simp, fun _ => by rw [ht3, ht2]⟩
      | reject =>
        obtain ⟨e, t, h4, k4, hp4, he, htop⟩ := ih (s := s3) (by rw [k123.cfg_eq]; exact hw) (by rw [ht3, ht2])
        rw [k123.cfg_eq] at k4
        exact ⟨e, t, h4, (k123.trans k4).mono (by simp only [List.length_cons]; omega) le_rfl,
          by rw [hp4, hp3, hp2], he, htop⟩

/-- `DETECT` makes at most eight PROBE exchanges: thirty calls (R193, R320). -/
theorem detect_session {s : State} (hw : s.cfg.wf = true) (ht : s.topen = true) :
    ∃ e t, detect.run s = .ok e t ∧ Session 30 (frameLen s.cfg 8) s t ∧ t.phase = s.phase ∧
      (e = .noError ∨ e = .transport ∨ e = .protocol) ∧ (e ≠ .transport → t.topen = true) := by
  obtain ⟨r, s1, h1, k1, hp1, ht1, hb1, -⟩ := xack_session (s := s) s.cfg.tcProbe (p := []) hw (frameLen_zero_le hw)
    (by simp)
  rw [detect, Micro.get_bind, Micro.bind_ok h1]
  cases r with
  | tfail => exact ⟨.transport, s1, rfl, k1.mono (by omega) le_rfl, hp1, by simp, by simp⟩
  | ok => exact ⟨.noError, s1, rfl, k1.mono (by omega) le_rfl, hp1, by simp, fun _ => by rw [ht1, ht]⟩
  | reject =>
    have h7 : ∀ b : BitVec 3, (baudCodes.filter fun c => c ≠ b).length = 7 := by decide
    obtain ⟨e, t, h2, k2, hp2, he, htop⟩ := detectLoop_session (baudCodes.filter fun c => c ≠ s.baudCur) (s := s1)
      (by rw [k1.cfg_eq]; exact hw) (by rw [ht1, ht])
    rw [k1.cfg_eq, h7] at k2
    exact ⟨e, t, h2, k1.trans k2, by rw [hp2, hp1], he, htop⟩

/-! ### AUTH (R194) -/

theorem State.password_length (s : State) : s.password.length = s.pwLen.toNat := by simp [State.password]

/-- The end of `AUTH` on a string just received: success exactly when it is the sealed echo of the password, else
AuthenticationError, and the cursor is the one `echoCursor` gives (R168, R194). -/
theorem checkEcho_store {u : State} {pw bs : List Byte} (hw : u.cfg.wf = true) (hpw : pw.length = u.pwLen.toNat)
    (hlen : frameLen u.cfg pw.length ≤ u.cfg.pbCap) (hbs : bs.length ≤ frameLen u.cfg pw.length)
    (hcur : u.cur = BitVec.ofNat 16 (frameLen u.cfg pw.length)) :
    (checkEcho pw).run (u.store bs) =
      .ok (if bs = rxFrame u.cfg u.cfg.tcPasswd pw then .noError else .authentication)
        ((u.store bs).withCur (echoCursor u.cfg pw bs)) := by
  obtain ⟨-, hcap, -, -, hrx, -⟩ := Cfg.wf_facts hw
  obtain ⟨b, h1, hacc⟩ := checkFrame_store u.cfg.tcPasswd (bs := bs) hw hlen hbs
  rw [checkEcho, Micro.get_bind]
  simp only [State.store_cfg, State.store_pwLen, ← hpw]
  rw [Micro.bind_ok h1]
  cases b with
  | false =>
    have hne : ∀ p : List Byte, p.length = pw.length → bs ≠ rxFrame u.cfg u.cfg.tcPasswd p := fun p hp h => by
      have := hacc.2 ⟨p, hp, h⟩
      simp at this
    have hpay : bs ≠ rxFrame u.cfg u.cfg.tcPasswd ((bs.drop (u.cfg.hdrLen + 1)).take pw.length) := by
      intro h
      have hl := congrArg List.length h
      rw [rxFrame_length hrx] at hl
      simp only [List.length_take, List.length_drop, frameLen] at hl
      exact hne _ (by rw [List.length_take, List.length_drop]; omega) h
    rw [if_neg (hne pw rfl), echoCursor, if_neg hpay, hcur]
    rfl
  | true =>
    obtain ⟨p, hp, rfl⟩ := hacc.1 rfl
    have hfl : (rxFrame u.cfg u.cfg.tcPasswd p).length = frameLen u.cfg pw.length := by rw [rxFrame_length hrx, hp]
    rw [checkCursor_header (len := frameLen u.cfg pw.length) u.cur (by omega)
      (by simp [rxFrame, frameBytes, ← hrx]) hrx]
    have hpay : ((rxFrame u.cfg u.cfg.tcPasswd p).drop (u.cfg.hdrLen + 1)).take pw.length = p := by
      rw [rxFrame, frameBytes, List.drop_append, List.drop_eq_nil_of_le (by omega), ← hp, hrx]
      simp
    simp only [frameLen] at hlen
    have hcn : (BitVec.ofNat 16 (u.cfg.hdrLen + 1)).toNat = u.cfg.hdrLen + 1 := by rw [BitVec.toNat_ofNat]; omega
    obtain ⟨b, c, h4, h5, h6, h7⟩ := matchBytes_spec
      (s := (u.store (rxFrame u.cfg u.cfg.tcPasswd p)).withCur (BitVec.ofNat 16 (u.cfg.hdrLen + 1))) (bs := pw)
      (by simp only [State.withCur_cur, State.withCur_cfg, State.store_cfg, hcn]; omega) hcap
    simp only [State.withCur_cur, hcn] at h5 h6 h7
    have hread : State.pbRange ((u.store (rxFrame u.cfg u.cfg.tcPasswd p)).withCur
        (BitVec.ofNat 16 (u.cfg.hdrLen + 1))) (u.cfg.hdrLen + 1) pw.length = p := by
      rw [← hp, State.pbRange_eq_iff]
      exact fun i hi => pbRead_payload hw hi
    rw [hread] at h5 h7
    have hiff : rxFrame u.cfg u.cfg.tcPasswd p = rxFrame u.cfg u.cfg.tcPasswd pw ↔ p = pw := by
      constructor
      · intro h
        have h' := List.append_cancel_left h
        simp only [List.cons.injEq, true_and] at h'
        exact (List.append_inj h' hp).1
      · rintro rfl; rfl
    have hc : c = echoCursor u.cfg pw (rxFrame u.cfg u.cfg.tcPasswd p) := by
      rw [echoCursor, hpay, if_pos rfl]
      apply BitVec.eq_of_toNat_eq
      rw [BitVec.toNat_ofNat]
      cases b with
      | false =>
        have := commonPrefix_lt hp (fun h => by simpa using h5.2 h)
        rw [h7 rfl, Nat.min_eq_left (by omega)]
        omega
      | true =>
        rw [h6 rfl, h5.1 rfl, commonPrefix_self, Nat.min_eq_right (by omega)]
        omega
    simp only [if_true]
    rw [Micro.bind_ok h4, State.withCur_withCur, hc]
    cases b with
    | false =>
      have hne : rxFrame u.cfg u.cfg.tcPasswd p ≠ rxFrame u.cfg u.cfg.tcPasswd pw := fun h => by
        simpa using h5.2 (hiff.1 h)
      rw [if_neg hne]
      rfl
    | true => rw [if_pos (hiff.2 (h5.1 rfl))]; rfl

/-- `AUTH` is one exchange; it ends with success, TransportError or AuthenticationError. -/
theorem auth_session {s : State} (hw : s.cfg.wf = true) (hlen : s.pwLen.toNat ≤ 8) :
    ∃ e t, auth.run s = .ok e t ∧ Session 2 (frameLen s.cfg 8) s t ∧ t.phase = s.phase ∧ t.topen = s.topen ∧
      (e = .noError ∨ e = .transport ∨ e = .authentication) := by
  obtain ⟨hmin, h16, -, -, -, -⟩ := Cfg.wf_facts hw
  have hL : frameLen s.cfg s.pwLen.toNat = s.cfg.hdrLen + 2 + s.pwLen.toNat := rfl
  have hL8 : frameLen s.cfg 8 = s.cfg.hdrLen + 2 + 8 := rfl
  have hcap : frameLen s.cfg s.pwLen.toNat ≤ s.cfg.pbCap := by omega
  have hp : frameLen s.cfg s.password.length ≤ s.cfg.pbCap := by rw [State.password_length]; exact hcap
  have hb : frameLen s.cfg s.password.length ≤ frameLen s.cfg 8 := by rw [State.password_length]; omega
  rw [auth, Micro.get_bind, Micro.bind_ok (encodeFrame_ok _ hw hp)]
  cases ht : s.topen with
  | false =>
    have e0 := (Exchanged.encoded s.cfg.tcPasswd hw hp).mono hb
    rw [Micro.bind_ok (encode_send_released _ ht)]
    exact ⟨.transport, _, rfl, Session.of_exchanged e0, rfl, ht, by simp⟩
  | true =>
    obtain ⟨es, htr⟩ := Exchanged.sent s.cfg.tcPasswd hw hp ht
    rw [Micro.bind_ok (encode_send _ hw hp ht)]
    have hfld : (s.sent s.cfg.tcPasswd s.password).cfg = s.cfg ∧
        (s.sent s.cfg.tcPasswd s.password).pwLen = s.pwLen ∧
        (s.sent s.cfg.tcPasswd s.password).topen = true := by rw [es.same]; exact ⟨rfl, rfl, ht⟩
    obtain ⟨hc, hpl, htop⟩ := hfld
    have phase_of : ∀ {b u}, Exchanged b s u → u.phase = s.phase ∧ u.topen = true := fun h => by
      rw [h.same]; exact ⟨rfl, ht⟩
    cases ha : s.nextAnswer.isOk with
    | false =>
      exact ⟨.transport, _, rfl, Session.of_exchanged (es.mono hb), (phase_of es).1, (phase_of es).2, by simp⟩
    | true =>
      simp only [if_true]
      rw [awaitEcho, Micro.get_bind, hc, hpl]
      have hrun := recvFrame_eq (s.sent s.cfg.tcPasswd s.password) (frameLen s.cfg s.pwLen.toNat)
      rw [if_pos htop] at hrun
      have recv := fun u => es.received (len := frameLen s.cfg s.pwLen.toNat) (u := u) ht ⟨_, .inl htr⟩ (by omega) hcap h16
      have hmax : max (frameLen s.cfg s.password.length) (frameLen s.cfg s.pwLen.toNat) ≤ frameLen s.cfg 8 :=
        max_le hb (by omega)
      cases hr : (s.sent s.cfg.tcPasswd s.password).nextAnswer.received (frameLen s.cfg s.pwLen.toNat) with
      | none =>
        rw [hr] at hrun
        rw [Micro.bind_ok hrun]
        have hx := recv _ (.inl rfl)
        exact ⟨.transport, _, rfl, Session.of_exchanged (hx.mono hmax), (phase_of hx).1, (phase_of hx).2, by simp⟩
      | some bs =>
        rw [hr] at hrun
        rw [Micro.bind_ok hrun]
        have hx := recv _ (.inr ⟨bs, hr, rfl⟩)
        obtain ⟨u, hu⟩ : ∃ u, u = (s.sent s.cfg.tcPasswd s.password).polled (frameLen s.cfg s.pwLen.toNat) := ⟨_, rfl⟩
        rw [← hu] at hx ⊢
        have hcu : u.cfg = s.cfg := by rw [hu, State.sent_polled]; simp
        have hpu : u.pwLen = s.pwLen := by rw [hu, State.sent_polled]; simp
        have hcur : u.cur = BitVec.ofNat 16 (frameLen s.cfg s.password.length) := by rw [hu, State.sent_polled]
        have h1 := checkEcho_store (u := u) (pw := s.password) (bs := bs) (by rw [hcu]; exact hw)
          (by rw [State.password_length, hpu]) (by rw [hcu]; exact hp)
          (by rw [hcu, State.password_length]; exact Answer.received_length hr) (by rw [hcu]; exact hcur)
        exact ⟨_, _, h1, Session.of_exchanged ((hx.setCur _).mono hmax), (phase_of hx).1, (phase_of hx).2,
          by split <;> simp⟩

/-! ### RENEG_SUB and CFGWIN_SUB (R198, R200) -/

/-- The revert reopens at the old rate and is a ConfigurationError, or fails and is a TransportError (R198). -/
theorem revert_session {s : State} (old : BitVec 3) (ht : s.topen = false) :
    ∃ e t, (revert old).run s = .ok e t ∧ Session 1 0 s t ∧ t.phase = s.phase ∧ t.baudCur = old ∧
      (e = .configuration ∧ t.topen = true ∨ e = .transport ∧ t.topen = false) := by
  obtain ⟨s1, hs1⟩ : ∃ s1, s1 = { s with baudCur := old } := ⟨_, rfl⟩
  have hrun : (setBaudCur old).run s = .ok () s1 := by rw [hs1]; rfl
  have ht1 : s1.topen = false := by rw [hs1]; exact ht
  have hp1 : s1.phase = s.phase := by rw [hs1]
  have back : ∀ {t}, Session 1 0 s1 t → Session 1 0 s t := fun h => by
    have hl : s1.claimedLink = s.claimedLink := by simp [State.claimedLink, ht1, ht]
    exact {
      same := by rw [h.same, hs1]
      pb_wf := by simpa [hs1] using h.pb_wf
      pb_within := by simpa [hs1] using h.pb_within
      pb_above := fun a ha => by rw [h.pb_above a ha, hs1]; rfl
      rxlen_le := by simpa [hs1] using h.rxlen_le
      txlen_le := by simpa [hs1] using h.txlen_le
      calls := by
        have := h.calls
        rw [hl] at this
        simpa [hs1] using this }
  rw [revert, Micro.bind_ok hrun, Micro.bind_ok (tOpen_run old s1)]
  cases ha : s1.nextAnswer.isOk with
  | false =>
    refine ⟨.transport, _, rfl, back (opened_fail old ht1 ha), ?_, ?_, .inr ⟨rfl, ?_⟩⟩
    · rw [State.opened_phase, hp1]
    · simp [State.opened, hs1]
    · rw [State.opened_topen, ht1]
  | true =>
    have h2 : ({ s1.opened old with topen := true } : State) = { s1.opened old with topen := true, baudCur := old } := by
      have : (s1.opened old).baudCur = old := by simp [State.opened, hs1]
      obtain ⟨u, hu⟩ : ∃ u, u = s1.opened old := ⟨_, rfl⟩
      rw [← hu] at this ⊢
      rw [← this]
    have k := opened_ok old ht1 ha
    rw [← h2] at k
    refine ⟨.configuration, { s1.opened old with topen := true }, rfl, back k, ?_, ?_, .inl ⟨rfl, rfl⟩⟩
    · exact (State.opened_phase s1 old).trans hp1
    · simp [State.opened, hs1]

/-- The verification exchange (R198). -/
theorem verify_session {s : State} (old : BitVec 3) (hw : s.cfg.wf = true) (ht : s.topen = true) :
    ∃ e t, (verify old).run s = .ok e t ∧ Session 4 (frameLen s.cfg 8) s t ∧ t.phase = s.phase ∧
      (e = .noError ∧ t.topen = true ∧ t.baudCur = s.baudCur ∨
        t.baudCur = old ∧ (e = .configuration ∧ t.topen = true ∨ e = .transport ∧ t.topen = false)) := by
  obtain ⟨r, s1, h1, k1, hp1, ht1, hb1, -⟩ := xack_session (s := s) s.cfg.tcProbe (p := []) hw (frameLen_zero_le hw)
    (by simp)
  rw [verify, Micro.get_bind, Micro.bind_ok h1]
  have fail : ∃ e t, (do tClose; revert old : Micro ErrCode).run s1 = .ok e t ∧ Session 2 0 s1 t ∧
      t.phase = s1.phase ∧ t.baudCur = old ∧
      (e = .configuration ∧ t.topen = true ∨ e = .transport ∧ t.topen = false) := by
    obtain ⟨s2, h2, k2, ht2, hp2, -⟩ := tClose_session (s := s1) (by rw [ht1, ht])
    obtain ⟨e, t, h3, k3, hp3, hb3, he⟩ := revert_session (s := s2) old ht2
    exact ⟨e, t, by rw [Micro.bind_ok h2, h3], k2.trans k3, by rw [hp3, hp2], hb3, he⟩
  obtain ⟨e, t, h4, k4, hp4, hb4, he⟩ := fail
  have k14 := k1.trans (k4.mono le_rfl (Nat.zero_le (frameLen s.cfg 8)))
  cases r with
  | ok => exact ⟨.noError, s1, rfl, k1.mono (by omega) le_rfl, hp1, .inl ⟨rfl, by rw [ht1, ht], hb1⟩⟩
  | tfail => exact ⟨e, t, h4, k14, by rw [hp4, hp1], .inr ⟨hb4, he⟩⟩
  | reject => exact ⟨e, t, h4, k14, by rw [hp4, hp1], .inr ⟨hb4, he⟩⟩

/-- The block's own move to the new rate (R198). -/
theorem reconfigure_session {s : State} (old new : BitVec 3) (hw : s.cfg.wf = true) (ht : s.topen = true) :
    ∃ e t, (reconfigure old new).run s = .ok e t ∧ Session 6 (frameLen s.cfg 8) s t ∧ t.phase = s.phase ∧
      (e = .noError ∧ t.topen = true ∧ t.baudCur = new ∨
        t.baudCur = old ∧ (e = .configuration ∧ t.topen = true ∨ e = .transport ∧ t.topen = false)) := by
  obtain ⟨s1, h1, k1, ht1, hp1, -⟩ := tClose_session ht
  have k1' : Session 1 (frameLen s.cfg 8) s s1 := k1.mono le_rfl (Nat.zero_le _)
  rw [reconfigure, Micro.bind_ok h1, Micro.bind_ok (tOpen_run new s1)]
  cases ha : s1.nextAnswer.isOk with
  | false =>
    obtain ⟨e, t, h2, k2, hp2, hb2, he⟩ := revert_session (s := s1.opened new) old
      (by rw [State.opened_topen, ht1])
    refine ⟨e, t, h2, ?_, by rw [hp2, State.opened_phase, hp1], .inr ⟨hb2, he⟩⟩
    exact ((k1'.trans ((opened_fail new ht1 ha).mono le_rfl (Nat.zero_le _))).trans
      (k2.mono le_rfl (Nat.zero_le _))).mono (by omega) le_rfl
  | true =>
    simp only [if_true]
    obtain ⟨s2, hs2⟩ : ∃ s2, s2 = { s1.opened new with topen := true, baudCur := new } := ⟨_, rfl⟩
    have k2 : Session 1 0 s1 s2 := by rw [hs2]; exact opened_ok new ht1 ha
    have hrun : holdTransport.run (s1.opened new) = .ok () { s1.opened new with topen := true } := rfl
    have hrun2 : (setBaudCur new).run { s1.opened new with topen := true } = .ok () s2 := by rw [hs2]; rfl
    have hc2 : s2.cfg = s.cfg := by rw [k2.cfg_eq, k1.cfg_eq]
    have hp2 : s2.phase = s.phase := by rw [hs2]; exact (State.opened_phase s1 new).trans hp1
    rw [Micro.bind_ok hrun, Micro.bind_ok hrun2]
    obtain ⟨e, t, h3, k3, hp3, he⟩ := verify_session (s := s2) old (by rw [hc2]; exact hw) (by rw [hs2])
    rw [hc2] at k3
    have hb2 : s2.baudCur = new := by rw [hs2]
    rw [hb2] at he
    exact ⟨e, t, h3, (k1'.trans (k2.mono le_rfl (Nat.zero_le _))).trans k3, by rw [hp3, hp2], he⟩

/-- `RENEG_SUB`: at most eight calls; success with `BAUD_CUR = BAUD_DES`; a refused or failed change command, or a
failed verification, leaves `BAUD_CUR` as it was; the transport is lost only with a TransportError (R198). -/
theorem renegSub_session {s : State} (hw : s.cfg.wf = true) :
    ∃ e t, renegSub.run s = .ok e t ∧ Session 8 (frameLen s.cfg 8) s t ∧ t.phase = s.phase ∧
      (e = .noError ∧ t.topen = s.topen ∧ t.baudCur = s.baudDes ∨
        t.baudCur = s.baudCur ∧
          (e = .transport ∨ (e = .protocol ∨ e = .configuration) ∧ t.topen = true ∧ s.topen = true)) := by
  rw [renegSub, Micro.get_bind]
  by_cases hd : s.baudDes = s.baudCur
  · rw [if_pos hd]
    exact ⟨.noError, s, rfl, Session.refl _ _ _, rfl, .inl ⟨rfl, rfl, hd.symm⟩⟩
  · rw [if_neg hd]
    obtain ⟨r, s1, h1, k1, hp1, ht1, hb1, hr⟩ := xack_session (s := s) s.cfg.tcBaud (p := baudPayload s.baudDes) hw
      (frameLen_ack_le hw) (by simp [baudPayload])
    rw [Micro.bind_ok h1]
    cases r with
    | tfail => exact ⟨.transport, s1, rfl, k1.mono (by omega) le_rfl, hp1, .inr ⟨hb1, .inl rfl⟩⟩
    | reject =>
      have := hr (by simp)
      exact ⟨.protocol, s1, rfl, k1.mono (by omega) le_rfl, hp1, .inr ⟨hb1, .inr ⟨.inl rfl, by rw [ht1, this], this⟩⟩⟩
    | ok =>
      have hts := hr (by simp)
      obtain ⟨e, t, h2, k2, hp2, he⟩ := reconfigure_session (s := s1) s.baudCur s.baudDes
        (by rw [k1.cfg_eq]; exact hw) (by rw [ht1, hts])
      rw [k1.cfg_eq] at k2
      refine ⟨e, t, h2, k1.trans k2, by rw [hp2, hp1], ?_⟩
      rcases he with ⟨rfl, h3, h4⟩ | ⟨h3, ⟨rfl, h4⟩ | ⟨rfl, -⟩⟩
      · exact .inl ⟨rfl, by rw [h3, hts], h4⟩
      · exact .inr ⟨h3, .inr ⟨.inr rfl, h4, hts⟩⟩
      · exact .inr ⟨h3, .inl rfl⟩

/-- `CFGWIN_SUB`: one exchange, none for an invalid window (R200). -/
theorem cfgwinSub_session {s : State} (hw : s.cfg.wf = true) :
    ∃ e t, cfgwinSub.run s = .ok e t ∧ Session 2 (frameLen s.cfg 8) s t ∧ t.phase = s.phase ∧ t.topen = s.topen ∧
      t.baudCur = s.baudCur ∧ (s.winValid = false → e = .configuration ∧ t = s) ∧
      (s.winValid = true → e = .noError ∨ e = .transport ∨ e = .protocol) ∧
      (e = .noError ∨ e = .protocol → s.topen = true) := by
  rw [cfgwinSub, Micro.get_bind]
  cases hv : s.winValid with
  | false =>
    exact ⟨.configuration, s, rfl, Session.refl _ _ _, rfl, rfl, rfl, fun _ => ⟨rfl, rfl⟩, by simp, by simp⟩
  | true =>
    have hL : frameLen s.cfg s.windowPayload.length ≤ s.cfg.pbCap := by
      have := (Cfg.wf_facts hw).1
      simp only [State.windowPayload, frameLen, List.length_cons, List.length_nil]
      omega
    obtain ⟨r, s1, h1, k1, hp1, ht1, hb1, hr⟩ := xack_session (s := s) s.cfg.tcWindow (p := s.windowPayload) hw hL
      (by simp [State.windowPayload])
    simp only [if_true]
    rw [Micro.bind_ok h1]
    refine ⟨_, s1, rfl, k1, hp1, ht1, hb1, by simp, fun _ => by cases r <;> simp [Reply.toErr], ?_⟩
    cases r with
    | tfail => simp [Reply.toErr]
    | ok => exact fun _ => hr (by simp)
    | reject => exact fun _ => hr (by simp)

end Sys2Proof.Machine
end

