-- ==== Sys2Proof/Laws/Scan.lean ====
section
/-! SUPPORT. Samples and scan frames: the byte split and join, the payload of a scan, and what `STEP`'s receive does. -/

namespace Sys2Proof.Machine

/-! ### Bytes of a 16-bit field (R72, R112) -/

/-- `GET16` is `h * 256 + l` (R164). -/
theorem join16_toNat (h l : Byte) : (join16 h l).toNat = h.toNat * 256 + l.toNat := by
  rw [join16, BitVec.toNat_append, Nat.shiftLeft_eq, Nat.mul_comm, ← Nat.two_pow_add_eq_or_of_lt l.isLt]

@[simp] theorem join16_split (v : Half) : join16 (hi8 v) (lo8 v) = v := by
  simp only [join16, hi8, lo8]
  rw [BitVec.extractLsb'_append_extractLsb'_eq_extractLsb' (by rfl)]
  simp

@[simp] theorem hi8_join16 (h l : Byte) : hi8 (join16 h l) = h := by
  apply BitVec.eq_of_toNat_eq
  have hl := l.isLt
  rw [hi8, BitVec.extractLsb'_toNat, join16_toNat, Nat.shiftRight_eq_div_pow]
  have hh := h.isLt
  omega

@[simp] theorem lo8_join16 (h l : Byte) : lo8 (join16 h l) = l := by
  apply BitVec.eq_of_toNat_eq
  have hl := l.isLt
  rw [lo8, BitVec.extractLsb'_toNat, join16_toNat, Nat.shiftRight_eq_div_pow]
  omega

/-! ### The payload of a scan (R109, R110) -/

theorem scanPayload_length (f : Byte) (ws : List Half) : (scanPayload f ws).length = 1 + 2 * ws.length := by
  induction ws with
  | nil => rfl
  | cons w ws ih =>
    simp only [scanPayload, List.length_cons, List.flatMap_cons, List.length_append, List.length_nil] at ih ⊢
    omega

/-- Every byte list of that length is the payload of one flags byte and samples. -/
theorem exists_scanPayload : ∀ (n : Nat) (p : List Byte), p.length = 1 + 2 * n →
    ∃ f ws, ws.length = n ∧ p = scanPayload f ws
  | 0, [f], _ => ⟨f, [], rfl, rfl⟩
  | n + 1, f :: x :: y :: p, h => by
    obtain ⟨g, ws, h1, h2⟩ := exists_scanPayload n (f :: p) (by simp at h ⊢; omega)
    simp only [scanPayload, List.cons.injEq] at h2
    exact ⟨f, join16 x y :: ws, by simp [h1], by simp [scanPayload, h2.2]⟩
  | _, [], h => by simp at h; omega
  | 0, _ :: _ :: _, h => by simp at h
  | n + 1, [_], h => by simp at h
  | n + 1, [_, _], h => by simp at h; omega

/-- The two bytes of sample `k`. -/
theorem scanPayload_getElem (f : Byte) (ws : List Half) {k : Nat} (hk : k < ws.length) :
    (scanPayload f ws)[1 + 2 * k]? = some (hi8 ws[k]) ∧ (scanPayload f ws)[2 + 2 * k]? = some (lo8 ws[k]) := by
  induction ws generalizing k f with
  | nil => simp at hk
  | cons w ws ih =>
    cases k with
    | zero => simp [scanPayload]
    | succ k =>
      have := ih (lo8 w) (k := k) (by simpa using hk)
      simp only [scanPayload, List.flatMap_cons, List.cons_append, List.nil_append] at this ⊢
      rw [show 1 + 2 * (k + 1) = (1 + 2 * k) + 1 + 1 by omega, show 2 + 2 * (k + 1) = (2 + 2 * k) + 1 + 1 by omega]
      simpa using this

/-! ### The receiving half of STEP (R240) -/

theorem acquire_released {s : State} (n : Nat) (ht : s.topen = false) :
    (acquire n).run s = .ok .transport s := by
  have h := recvFrame_eq s (s.cfg.hdrLen + 3 + 2 * n)
  rw [if_neg (by simp [ht])] at h
  rw [acquire, Micro.get_bind, Micro.bind_ok h]
  rfl

theorem acquire_fail {s : State} (n : Nat) (ht : s.topen = true) (ha : s.nextAnswer = .fail) :
    (acquire n).run s = .ok .transport (s.polled (s.cfg.hdrLen + 3 + 2 * n)) := by
  have h := recvFrame_eq s (s.cfg.hdrLen + 3 + 2 * n)
  rw [if_pos ht, ha] at h
  rw [acquire, Micro.get_bind, Micro.bind_ok h]
  rfl

/-- The state once a receive of `len` has returned `bs`, with the cursor at `c`. -/
def State.gotAt (s : State) (len : Nat) (bs : List Byte) (c : Half) : State :=
  ((s.polled len).store (bs.take len)).withCur c

/-- Reading an accepted scan: the flags byte and the samples are the frame's, and nothing else is committed. -/
theorem readScan_store {u : State} {f : Byte} {ws : List Half} (hw : u.cfg.wf = true)
    (hcap : u.cfg.hdrLen + 3 + 2 * ws.length ≤ u.cfg.pbCap) :
    (readScan ws.length).run
        ((u.store (rxFrame u.cfg u.cfg.trScan (scanPayload f ws))).withCur (BitVec.ofNat 16 (u.cfg.hdrLen + 1))) =
      .ok .noError (((u.store (rxFrame u.cfg u.cfg.trScan (scanPayload f ws))).withCur
        (BitVec.ofNat 16 (u.cfg.hdrLen + 2 + 2 * ws.length))).commitScan f ws) := by
  obtain ⟨hmin, h16, -, -, -, -⟩ := Cfg.wf_facts hw
  obtain ⟨v, hv⟩ : ∃ v, v = u.store (rxFrame u.cfg u.cfg.trScan (scanPayload f ws)) := ⟨_, rfl⟩
  have hread : ∀ i (hi : i < (scanPayload f ws).length), v.pbRead (u.cfg.hdrLen + 1 + i) = (scanPayload f ws)[i] := by
    intro i hi
    rw [hv]
    exact pbRead_payload hw hi
  have hcfg : v.cfg = u.cfg := by rw [hv]; rfl
  rw [← hv]
  have hn1 : (BitVec.ofNat 16 (u.cfg.hdrLen + 1)).toNat = u.cfg.hdrLen + 1 := by rw [BitVec.toNat_ofNat]; omega
  have hlen := scanPayload_length f ws
  have hg : getByte.run (v.withCur (BitVec.ofNat 16 (u.cfg.hdrLen + 1))) =
      .ok f (v.withCur (BitVec.ofNat 16 (u.cfg.hdrLen + 2))) := by
    rw [getByte_ok (by rw [State.withCur_cur, State.withCur_cfg, hn1, hcfg]; omega), State.withCur_cur,
      State.withCur_pbRead, hn1]
    have h0 := hread 0 (by omega)
    rw [Nat.add_zero] at h0
    rw [h0]
    have hc1 : BitVec.ofNat 16 (u.cfg.hdrLen + 1) + 1 = BitVec.ofNat 16 (u.cfg.hdrLen + 2) := by bv_omega
    simp only [scanPayload, List.getElem_cons_zero, hc1]
    rfl
  have hn2 : (BitVec.ofNat 16 (u.cfg.hdrLen + 2)).toNat = u.cfg.hdrLen + 2 := by rw [BitVec.toNat_ofNat]; omega
  have hws : ((List.range ws.length).map fun k =>
      join16 ((v.withCur (BitVec.ofNat 16 (u.cfg.hdrLen + 2))).pbRead (u.cfg.hdrLen + 2 + 2 * k))
        ((v.withCur (BitVec.ofNat 16 (u.cfg.hdrLen + 2))).pbRead (u.cfg.hdrLen + 2 + 2 * k + 1))) = ws := by
    refine List.ext_getElem (by simp) fun k h1 h2 => ?_
    obtain ⟨e1, e2⟩ := scanPayload_getElem f ws h2
    simp only [List.getElem_map, List.getElem_range, State.withCur_pbRead]
    rw [show u.cfg.hdrLen + 2 + 2 * k + 1 = u.cfg.hdrLen + 1 + (2 + 2 * k) by omega,
      show u.cfg.hdrLen + 2 + 2 * k = u.cfg.hdrLen + 1 + (1 + 2 * k) by omega, hread _ (by omega), hread _ (by omega)]
    rw [List.getElem?_eq_getElem (by omega)] at e1 e2
    rw [Option.some.inj e1, Option.some.inj e2, join16_split]
  have hgw := getWords_ok (s := v.withCur (BitVec.ofNat 16 (u.cfg.hdrLen + 2))) (n := ws.length)
    (by rw [State.withCur_cur, State.withCur_cfg, hn2, hcfg]; omega) (by rw [State.withCur_cfg, hcfg]; exact h16)
  rw [State.withCur_cur, hn2, hws] at hgw
  rw [readScan, Micro.bind_ok hg, Micro.bind_ok hgw]
  have hc2 : BitVec.ofNat 16 (u.cfg.hdrLen + 2) + BitVec.ofNat 16 (2 * ws.length) =
      BitVec.ofNat 16 (u.cfg.hdrLen + 2 + 2 * ws.length) := by rw [← BitVec.ofNat_add]
  rw [hc2]
  rfl

/-- A received string that is a whole sealed scan frame of `n` samples is committed; any other is rejected with
ProtocolError and nothing committed, the cursor where `CHECK` leaves it (R168, R240, R242). -/
theorem acquire_received {s : State} (n : Nat) {bs : List Byte} (hw : s.cfg.wf = true)
    (hcap : s.cfg.hdrLen + 3 + 2 * n ≤ s.cfg.pbCap) (ht : s.topen = true) (ha : s.nextAnswer = .ok bs) :
    (∃ f ws, ws.length = n ∧ bs.take (s.cfg.hdrLen + 3 + 2 * n) = rxFrame s.cfg s.cfg.trScan (scanPayload f ws) ∧
        (acquire n).run s = .ok .noError
          ((s.gotAt (s.cfg.hdrLen + 3 + 2 * n) bs (BitVec.ofNat 16 (s.cfg.hdrLen + 2 + 2 * n))).commitScan f ws)) ∨
      ((¬ ∃ f ws, ws.length = n ∧
          bs.take (s.cfg.hdrLen + 3 + 2 * n) = rxFrame s.cfg s.cfg.trScan (scanPayload f ws)) ∧
        (acquire n).run s = .ok .protocol (s.gotAt (s.cfg.hdrLen + 3 + 2 * n) bs
          (checkCursor s.cfg (s.cfg.hdrLen + 3 + 2 * n) s.cur (some (bs.take (s.cfg.hdrLen + 3 + 2 * n)))))) := by
  obtain ⟨hmin, h16, -, -, hrx, -⟩ := Cfg.wf_facts hw
  have hL : s.cfg.hdrLen + 3 + 2 * n = frameLen s.cfg (1 + 2 * n) := by simp only [frameLen]; omega
  have h := recvFrame_eq s (s.cfg.hdrLen + 3 + 2 * n)
  rw [if_pos ht, ha] at h
  obtain ⟨u, hu⟩ : ∃ u, u = s.polled (s.cfg.hdrLen + 3 + 2 * n) := ⟨_, rfl⟩
  have hcfg : u.cfg = s.cfg := by rw [hu]; simp [State.polled]
  have hwu : u.cfg.wf = true := by rw [hcfg]; exact hw
  have hcur : u.cur = s.cur := by rw [hu]; simp [State.polled]
  obtain ⟨b, h1, h2⟩ := checkFrame_store (s := u) u.cfg.trScan (n := 1 + 2 * n)
    (bs := bs.take (s.cfg.hdrLen + 3 + 2 * n)) hwu (by rw [hcfg, ← hL]; exact hcap) (by rw [hcfg, ← hL]; simp)
  rw [hcfg, hcur, ← hL] at h1
  have hacc : b = true ↔ ∃ p : List Byte, p.length = 1 + 2 * n ∧
      bs.take (s.cfg.hdrLen + 3 + 2 * n) = rxFrame s.cfg s.cfg.trScan p := by
    rw [h2, hcfg]
  rw [acquire, Micro.get_bind]
  have hrun : (recvFrame (s.cfg.hdrLen + 3 + 2 * n)).run s =
      .ok .ok (u.store (bs.take (s.cfg.hdrLen + 3 + 2 * n))) := by rw [h, hu]; rfl
  rw [Micro.bind_ok hrun]
  simp only
  rw [Micro.bind_ok h1]
  cases b with
  | false =>
    refine .inr ⟨fun ⟨f, ws, e1, e2⟩ => ?_, by rw [State.gotAt, ← hu]; rfl⟩
    have := hacc.2 ⟨_, by rw [scanPayload_length, e1], e2⟩
    simp at this
  | true =>
    obtain ⟨p, hp, hbs⟩ := hacc.1 rfl
    obtain ⟨f, ws, rfl, rfl⟩ := exists_scanPayload n p hp
    refine .inl ⟨f, ws, rfl, hbs, ?_⟩
    have hlen : (bs.take (s.cfg.hdrLen + 3 + 2 * ws.length)).length = s.cfg.hdrLen + 3 + 2 * ws.length := by
      rw [hbs, rxFrame_length hrx, hp, ← hL]
    have hc := checkCursor_header (len := s.cfg.hdrLen + 3 + 2 * ws.length) s.cur (by rw [hlen])
      (by rw [hbs]; simp [rxFrame, frameBytes, ← hrx]) hrx
    have hr := readScan_store (u := u) (f := f) (ws := ws) hwu (by rw [hcfg]; exact hcap)
    rw [hcfg] at hr
    simp only [if_true]
    rw [State.gotAt, ← hu, hc, hbs]
    exact hr

end Sys2Proof.Machine
end

