-- ==== Sys2Proof/Tests/Slice0.lean ====
section
/-! SUPPORT. Tests: ill-formed configurations refused, words written out from R100 and R103, single steps from the
vectors of `95_test_vectors.md`, and for each statement with hypotheses a concrete state that meets them. -/

namespace Sys2Proof.Tests

open Sys2Proof Sys2Proof.Machine

set_option maxRecDepth 4000

/-! ### WellFormed: one ill-formed term for each check (the constraint column of R6) -/

theorem smoke_ref : Cfg.ref.wf = true := by decide
theorem smoke_cap_small : Cfg.capOk { Cfg.ref with pbCap := 11 } = false := by decide
theorem smoke_cap_large : Cfg.capOk { Cfg.ref with pbCap := 65536 } = false := by decide
theorem smoke_hdr_zero : Cfg.hdrOk { Cfg.ref with hdrLen := 0, hdrTx := [], hdrRx := [] } = false := by decide
theorem smoke_hdr_tx : Cfg.hdrOk { Cfg.ref with hdrTx := [0x02] } = false := by decide
theorem smoke_hdr_rx : Cfg.hdrOk { Cfg.ref with hdrRx := [0x02, 0x81, 0x00] } = false := by decide
theorem smoke_types : Cfg.typesOk { Cfg.ref with tcPoll := 0x01 } = false := by decide
theorem smoke_replies : Cfg.repliesOk { Cfg.ref with trScan := 0x02 } = false := by decide
theorem smoke_poly_even : Cfg.polyOk { Cfg.ref with crcPoly := 0x06 } = false := by decide
theorem smoke_poly_one : Cfg.polyOk { Cfg.ref with crcPoly := 0x01 } = false := by decide
theorem smoke_password : Cfg.pwOk { Cfg.ref with pwLenReq := 9 } = false := by decide
theorem smoke_scale : Cfg.scaleOk { Cfg.ref with scaleNum := 0 } = false := by decide
theorem smoke_range : Cfg.rangeOk { Cfg.ref with rangeMin := 2, rangeMax := 1 } = false := by decide
theorem smoke_angle : Cfg.angleOk { Cfg.ref with angleLsb := 65536 } = false := by decide
theorem smoke_whole : Cfg.wf { Cfg.ref with crcPoly := 0x06 } = false := by decide
theorem smoke_instr : Instr.wf (.cset 0xFF) = true ∧ Instr.wf (.ccrc 0xFFFF) = true := by decide

/-! ### Decode: every constructor, from words written out by R100, R103, R115 -/

theorem word_nop : decode 0x00000000 = .ok .nop := by decide
theorem word_nop_ignores : decode 0xABCDEF00 = .ok .nop := by decide
theorem word_open : decode 0xFFFF0001 = .ok .open_ := by decide
theorem word_close : decode 0x00000002 = .ok .close := by decide
theorem word_start : decode 0x00000003 = .ok .start := by decide
theorem word_stop : decode 0x00000004 = .ok .stop := by decide
theorem word_step : decode 0x00000005 = .ok .step := by decide
theorem word_reset : decode 0x00000006 = .ok .reset := by decide
theorem word_reneg : decode 0x00000007 = .ok .reneg := by decide
theorem word_cfgwin : decode 0x00000008 = .ok .cfgwin := by decide
theorem word_cset : decode 0xFFFF3110 = .ok (.cset 0x31) := by decide
theorem word_cget : decode 0x00000011 = .ok .cget := by decide
theorem word_ccrc : decode 0x00030012 = .ok (.ccrc 3) := by decide
theorem word_illegal_low : decode 0x00000009 = .error (.illegalOpcode 0x09) := by decide
theorem word_illegal_high : decode 0xFFFFFFFF = .error (.illegalOpcode 0xFF) := by decide
theorem word_table : decodeTableWord 32 0x00003110 = some (.cset 0x31) := by decide
theorem word_encode : encode (.cset 0x31) = 0x00003110 ∧ encode (.ccrc 3) = 0x00030012 := by decide

/-! ### One step each, expected values from the vectors -/

/-- The state a command leaves. -/
def after (o : Host.Outcome State Fault Refusal) : State :=
  match o with
  | .next t => t
  | _ => State.reset

/-- `CFG_REF`, after `HRESET`, with the window 10, 20, 5, 1 and a password of eight bytes. -/
def ready : State :=
  { State.reset with
    pwLen := 8, pw0 := 0x34444F52, pw1 := 0x3231454C
    winStart := 10, winStop := 20, winStep := 5, winType := 1 }

/-- That state in a phase, with the transport held at the initial rate and the trace that says so. -/
def held (p : Phase) : State :=
  { ready with
    phase := p, topen := true
    trace := [.tOpen Cfg.ref.deviceId 57600 true] }

/-- A started block: locked, in `Running` or `Stopped`. -/
def started (p : Phase) : State := { held p with cfgLock := true }

/-- The ACK frame of type byte `tc` in `CFG_REF`, with its checksum written out (V3.18 to V3.21). -/
def ack (tc sum : Byte) : List Byte := [0x02, 0x81, 0x10, tc, sum]

/-- A scan frame (V3.25). -/
def scan : List Byte := [0x02, 0x81, 0x20, 0x01, 0x00, 0x64, 0x00, 0xC8, 0x01, 0x2C, 0xF1]

/-- V5.5. -/
theorem test_nop : exec .nop { ready with err := .protocol } = .next { ready with err := .noError } := by rfl

/-- V5.9: CLOSE from Running sends no frame. -/
theorem test_close : (after (exec .close (started .running))).trace =
    [.tOpen Cfg.ref.deviceId 57600 true, .tClose] := by decide

/-- Program P8: an invalid window ends `OPEN` with ConfigurationError in Authenticated. -/
theorem test_open_invalid_window : (after (exec .open_ { ready with
    cfg := { Cfg.ref with pwLenReq := 6 }, pwLen := 6, winStart := 0, winStop := 528, winStep := 1, answers :=
      [.ok [], .ok [], .ok (ack 0x01 0x07), .ok [],
        .ok [0x02, 0x81, 0x02, 0x52, 0x4F, 0x44, 0x34, 0x4C, 0x45, 0xB0]] })).statusWord = 0x0B ∧
    (after (exec .open_ { ready with
    cfg := { Cfg.ref with pwLenReq := 6 }, pwLen := 6, winStart := 0, winStop := 528, winStep := 1, answers :=
      [.ok [], .ok [], .ok (ack 0x01 0x07), .ok [],
        .ok [0x02, 0x81, 0x02, 0x52, 0x4F, 0x44, 0x34, 0x4C, 0x45, 0xB0]] })).cur = 9 := by decide +kernel

/-- Program P2: found at the third rate tried, renegotiated, the window pushed. -/
theorem test_open_succeeds : (after (exec .open_ { ready with baudDes := 5, answers :=
    [.ok [], .ok [], .ok [], .ok [], .ok [], .ok [0xFF, 0x00, 0x13], .ok [], .ok [], .ok (ack 0x01 0x07), .ok [],
      .ok [0x02, 0x81, 0x02, 0x52, 0x4F, 0x44, 0x34, 0x4C, 0x45, 0x31, 0x32, 0x3D], .ok [], .ok (ack 0x03 0x09),
      .ok [], .ok [], .ok (ack 0x01 0x07), .ok [], .ok (ack 0x04 0x1C)] })).trace =
    [.tOpen ⟨1⟩ 57600 true, .tSend [0x02, 0x01, 0x01, 0x00] true, .tRecv 5 ⟨0⟩ (some []), .tClose,
      .tOpen ⟨1⟩ 4800 true, .tSend [0x02, 0x01, 0x01, 0x00] true, .tRecv 5 ⟨0⟩ (some [0xFF, 0x00, 0x13]), .tClose,
      .tOpen ⟨1⟩ 9600 true, .tSend [0x02, 0x01, 0x01, 0x00] true, .tRecv 5 ⟨0⟩ (some (ack 0x01 0x07)),
      .tSend [0x02, 0x01, 0x02, 0x52, 0x4F, 0x44, 0x34, 0x4C, 0x45, 0x31, 0x32, 0x3D] true,
      .tRecv 12 ⟨0⟩ (some [0x02, 0x81, 0x02, 0x52, 0x4F, 0x44, 0x34, 0x4C, 0x45, 0x31, 0x32, 0x3D]),
      .tSend [0x02, 0x01, 0x03, 0x05, 0x1B] true, .tRecv 5 ⟨0⟩ (some (ack 0x03 0x09)), .tClose,
      .tOpen ⟨1⟩ 115200 true, .tSend [0x02, 0x01, 0x01, 0x00] true, .tRecv 5 ⟨0⟩ (some (ack 0x01 0x07)),
      .tSend [0x02, 0x01, 0x04, 0x00, 0x0A, 0x00, 0x14, 0x00, 0x05, 0x00, 0x01, 0x29] true,
      .tRecv 5 ⟨0⟩ (some (ack 0x04 0x1C))] := by decide +kernel

/-- V3.20 and the example of R203. -/
theorem test_start : (after (exec .start { held .authenticated with answers := [.ok [], .ok (ack 0x05 0x1B)] })).trace =
    [.tOpen Cfg.ref.deviceId 57600 true, .tSend [0x02, 0x01, 0x05, 0x00] true,
      .tRecv 5 ⟨0⟩ (some [0x02, 0x81, 0x10, 0x05, 0x1B])] := by decide +kernel

/-- V5.17: the ACK of another command. -/
theorem test_start_other_ack : (after (exec .start { held .authenticated with answers :=
    [.ok [], .ok (ack 0x06 0x12)] })).err = .protocol := by decide +kernel

/-- The example of R204. -/
theorem test_stop : (after (exec .stop { started .running with answers := [.ok [], .ok (ack 0x06 0x12)] })).phase =
    .stopped := by decide +kernel

/-- The example of R240. -/
theorem test_step : (after (exec .step { started .running with answers := [.ok scan] })).raw = [100, 200, 300] ∧
    (after (exec .step { started .running with answers := [.ok scan] })).flags = 0x01 := by decide +kernel

/-- V3.31, scenario C: a flipped checksum bit leaves the scan and reports ProtocolError. -/
theorem test_step_bad_checksum : (after (exec .step { started .running with
    raw := [7, 8, 9], answers := [.ok (scan.set 10 0xF0)] })).raw = [7, 8, 9] ∧
    (after (exec .step { started .running with answers := [.ok (scan.set 10 0xF0)] })).err = .protocol := by decide +kernel

/-- `CUR` after `CHECK(0x20, 11)` of a received string, 3 before it. -/
def cursorAfter (bs : List Byte) : Half :=
  match (checkFrame 0x20 11).run { ready.store bs with cur := 3 } with
  | .ok _ t => t.cur
  | .error _ _ => 0

/-- V3.31 to V3.36: a wrong checksum, a short string, either header byte wrong, a wrong type. -/
theorem test_check_cursor :
    cursorAfter [0x02, 0x81, 0x20, 0x1F, 0x00, 0x07, 0x00, 0x08, 0x00, 0x09, 0x6C] = 3 ∧
    cursorAfter [0x02, 0x81, 0x20, 0x1F, 0x00, 0x07, 0x00, 0x08, 0x00] = 3 ∧
    cursorAfter [0x02, 0x80, 0x20, 0x1F, 0x00, 0x07, 0x00, 0x08, 0x00, 0x09, 0x6D] = 2 ∧
    cursorAfter [0x03, 0x81, 0x20, 0x1F, 0x00, 0x07, 0x00, 0x08, 0x00, 0x09, 0x6D] = 1 ∧
    cursorAfter [0x02, 0x81, 0x10, 0x1F, 0x00, 0x07, 0x00, 0x08, 0x00, 0x09, 0x6D] = 3 := by decide +kernel

/-- V5.11: the send of the RESET frame fails. -/
theorem test_reset : (after (exec .reset { started .running with answers := [.fail] })).trace =
    [.tOpen Cfg.ref.deviceId 57600 true, .tSend [0x02, 0x01, 0x07, 0x00] false, .tClose] := by decide +kernel

/-- V5.20: verification fails by a failed send, and the old rate is reopened. -/
theorem test_reneg_reverts : (after (exec .reneg { held .authenticated with
    baudCur := 5, baudDes := 7, answers := [.ok [], .ok (ack 0x03 0x09), .ok [], .fail, .ok []] })).trace.drop 1 =
    [.tSend [0x02, 0x01, 0x03, 0x07, 0x15] true, .tRecv 5 ⟨0⟩ (some (ack 0x03 0x09)), .tClose,
      .tOpen ⟨1⟩ 625000 true, .tSend [0x02, 0x01, 0x01, 0x00] false, .tClose, .tOpen ⟨1⟩ 115200 true] := by decide +kernel

/-- The example of R201. -/
theorem test_cfgwin : (after (exec .cfgwin { held .authenticated with answers := [.fail] })).trace.drop 1 =
    [.tSend [0x02, 0x01, 0x04, 0x00, 0x0A, 0x00, 0x14, 0x00, 0x05, 0x00, 0x01, 0x29] false] := by decide +kernel

/-- V4.1. -/
theorem test_cset : (after (exec (.cset 0x31) { ready with rem := 3 })).pb = [(0, 0x31)] ∧
    (after (exec (.cset 0x31) { ready with rem := 3 })).cur = 1 ∧
    (after (exec (.cset 0x31) { ready with rem := 3 })).rem = 2 := by decide

/-- V4.5. -/
theorem test_cset_refused : (after (exec (.cset 0x00) { ready with cur := 70, rem := 1 })).ovr = true := by decide

/-- V4.8. -/
theorem test_cget : (after (exec .cget { ready with cur := 63, pb := [(63, 0xAA)] })).data = 0xAA := by decide

/-- V4.10: no wrap. -/
theorem test_cget_refused : (after (exec .cget { ready with cur := 0xFFFF })).cur = 0xFFFF := by decide

/-- The example of R148. -/
theorem test_ccrc : (after (exec (.ccrc 3) { ready with pb := [(0, 0x31), (1, 0x32), (2, 0x33)] })).crcout = 0xC0 := by
  decide

/-- V6.24: the largest product. -/
theorem test_dist : (readReg .dist { ready with
    cfg := { Cfg.ref with scaleNum := 65535 }, scanValid := true, raw := [0xFFFF] }).1 = 0xFFFE0001 := by decide

/-- V6.25: the sum wraps. -/
theorem test_angle : angleOf { Cfg.ref with angleOrigin := 0x7FFFFFFF } 1 = 0x80000000 := by decide

/-! ### Witnesses: the hypotheses of each statement met together, each clause at its boundary -/

/-- `CFG_REF` for a polled device. -/
def polled : Cfg := { Cfg.ref with polling := true }

/-- The host is about to make the access `h`. -/
def asked (s : State) (h : HostOp) : State := { s with hostq := [h] }

theorem witness_DecodeTotal :
    (([0x00, 0x08, 0x10, 0x12] : List Word).all fun w => decide ((opcField w).toNat ≤ 0x08 ∨
      (0x10 ≤ (opcField w).toNat ∧ (opcField w).toNat ≤ 0x12))) = true ∧
    (([0x09, 0x0F, 0x13, 0xFF] : List Word).all fun w => decide (¬ ((opcField w).toNat ≤ 0x08 ∨
      (0x10 ≤ (opcField w).toNat ∧ (opcField w).toNat ≤ 0x12)))) = true := by decide

theorem witness_OperandsRead :
    opcField 0xFFFFFF10 = 0x10 ∧ opcField 0xFFFFFF12 = 0x12 ∧
    (opcField 0x00003110 = opcField 0xFFFF3110 ∧
      (0x00003110 : Word).extractLsb' 8 8 = (0xFFFF3110 : Word).extractLsb' 8 8) ∧
    (opcField 0xFFFF0012 = opcField 0xFFFFAA12 ∧
      (0xFFFF0012 : Word).extractLsb' 16 16 = (0xFFFFAA12 : Word).extractLsb' 16 16) ∧
    opcField 0xFFFF0001 = opcField 0x00000001 := by decide

theorem witness_StepRunsDecoded :
    (asked ready (.regWrite 0 0x00003110)).hostq = [.regWrite 0 0x00003110] ∧
    decode 0x00003110 = .ok (.cset 0x31) ∧ decodeTableWord 32 0x00003110 = some (.cset 0x31) := by decide

theorem witness_IllegalCommand :
    (asked ready (.regWrite 0 0x09)).hostq = [.regWrite 0 0x09] ∧
    (([0x09, 0x0F] : List Word).all fun w =>
      decide (0x09 ≤ (opcField w).toNat ∧ (opcField w).toNat ≤ 0x0F)) = true ∧
    (([0x13, 0xFF] : List Word).all fun w => decide (0x13 ≤ (opcField w).toNat)) = true := by decide

theorem witness_IdleHolds : State.reset.hostq = [] := by rfl

theorem witness_CommandsComplete : ready.cfg.wf = true := by decide

theorem witness_HresetValues : (asked (started .running) .hreset).hostq = [.hreset] := by rfl

theorem witness_ResetInv : polled.wf = true := by decide

/-- A held, Authenticated block meets the invariant, and its next step has a next state. -/
theorem witness_StepKeepsInv : (asked (held .authenticated) (.regWrite 0 0)).Inv ∧
    step (asked (held .authenticated) (.regWrite 0 0)) = .next (held .authenticated) := by
  refine ⟨⟨by decide, by decide, by decide, by decide, by decide, by decide, by decide, by decide, by decide,
    by decide, by decide, by decide, by decide, by decide, by decide⟩, rfl⟩

/-- A started block that has stored a scan meets it too, and `HRESET` and `STEP` are steps of it. -/
theorem witness_StepKeepsInv_started :
    (asked { started .running with scanValid := true, raw := [1, 2, 3] } (.regWrite 0 5)).Inv :=
  ⟨by decide, by decide, by decide, by decide, by decide, by decide, by decide, by decide, by decide,
    by decide, by decide, by decide, by decide, by decide, by decide⟩

/-- A command, a faulting read, `HRESET`, and a read of `ESTICKY`. -/
theorem witness_StickyErrors :
    step (asked ready (.regWrite 0 0x11)) = .next (after (exec .cget ready)) ∧
    (∀ w q, (asked ready (.regRead 0x10)).hostq ≠ .regWrite 0 w :: q) ∧
    (∀ q, (asked ready (.regRead 0x10)).hostq ≠ .hreset :: q) ∧
    step (asked ready (.regRead 0x10)) =
      .next { ready with reads := [(0x10, 0)], err := .precondition, esticky := 0b100000 } ∧
    step (asked ready .hreset) = .next (hreset ready) ∧
    (asked ready (.regRead 0x03)).hostq = [.regRead 0x03] := by
  refine ⟨rfl, fun w q h => by simp [asked] at h, fun q h => by simp [asked] at h, rfl, rfl, rfl⟩

theorem witness_OneWayBits : ready.cfg.wf = true ∧
    step (asked ready .hreset) = .next (hreset ready) ∧
    step (asked ready (.regWrite 0 0x00000011)) = .next (after (exec .cget ready)) ∧
    step (asked ready (.regRead 0)) = .next { ready with reads := [(0, 0)] } := ⟨by decide, rfl, rfl, rfl⟩

theorem witness_IgnoredAccesses :
    (∀ n ∈ ([0x00, 0x1B, 0xFF] : List (BitVec 8)),
      (asked ready (.regRead n)).hostq = [.regRead n] ∧ (n = 0 ∨ 0x1B ≤ n.toNat)) ∧
    (∀ n ∈ ([0x01, 0x0D, 0x15, 0x1A, 0x1B, 0xFF] : List (BitVec 8)),
      (asked ready (.regWrite n 7)).hostq = [.regWrite n 7] ∧ (0x1B ≤ n.toNat ∨
        n ∈ ([0x01, 0x02, 0x03, 0x0D, 0x0E, 0x10, 0x11, 0x12, 0x13, 0x14, 0x15, 0x18, 0x19, 0x1A] :
          List (BitVec 8)))) := by decide

theorem witness_StatusRead : (asked ready (.regRead 0x01)).hostq = [.regRead 0x01] := by rfl

theorem witness_PlainReads : (asked ready (.regRead 0x09)).hostq = [.regRead 0x09] ∧
    ((0x09 : BitVec 8), (10 : Word)) = (0x09, ready.winStart.setWidth 32) ∧
    ({ ready with err := .precondition }.err, (5 : Word)) ∈ ([(.noError, 0), (.transport, 1), (.protocol, 2),
      (.authentication, 3), (.configuration, 4), (.precondition, 5)] : List (ErrCode × Word)) ∧
    ((0x1A : BitVec 8), (0 : Word)) = (0x1A, ready.rxlen.setWidth 32) := by decide

/-- V6.26, V6.27, V6.32: one write for each clause. -/
theorem witness_WritesKeepListedBits :
    (asked (started .running) (.regWrite 0x05 0xFFFFFFFD)).hostq = [.regWrite 0x05 0xFFFFFFFD] ∧
    ((0xFFFFFFFD : Word).setWidth 3 : BitVec 3) = 5 ∧
    (asked ready (.regWrite 0x09 0x0001FFFF)).hostq = [.regWrite 0x09 0x0001FFFF] ∧ ready.cfgLock = false ∧
    ((0x0001FFFF : Word).setWidth 16 : Half) = 0xFFFF ∧
    (asked ready (.regWrite 0x04 9)).hostq = [.regWrite 0x04 9] ∧ ready.phase = .closed ∧
    ((9 : Word).setWidth 3 : BitVec 3) = 1 := by decide

/-- V6.29, V6.31, V6.33: each clause, the first at both ends of its range. -/
theorem witness_LockedWrites :
    (∀ n ∈ ([0x06, 0x0C] : List (BitVec 8)),
      (asked (started .stopped) (.regWrite n 1)).hostq = [.regWrite n 1] ∧
      (started .stopped).cfgLock = true ∧ 0x06 ≤ n.toNat ∧ n.toNat ≤ 0x0C) ∧
    (asked (held .authenticated) (.regWrite 0x04 1)).hostq = [.regWrite 0x04 1] ∧
    (held .authenticated).phase ≠ .closed ∧ { ready with cfgLock := true }.cfgLock = true := by decide

/-- V6.17, V6.18, V6.14: the last valid index, the first invalid one, and no scan. -/
theorem witness_DistRead : ready.cfg.wf = true ∧ (asked ready (.regRead 0x10)).hostq = [.regRead 0x10] ∧
    ({ ready with scanValid := true, idx := 2 }.scanValid = true ∧
      { ready with scanValid := true, idx := 2 }.idx.toNat < { ready with scanValid := true, idx := 2 }.dcount) ∧
    ¬ ({ ready with scanValid := true, idx := 3 }.idx.toNat < { ready with scanValid := true, idx := 3 }.dcount) ∧
    ready.scanValid = false := by decide

theorem witness_LimitReads : (asked ready (.regRead 0x11)).hostq = [.regRead 0x11] ∧
    (asked ready (.regRead 0x12)).hostq = [.regRead 0x12] ∧
    { ready with idx := 2 }.idx.toNat < { ready with idx := 2 }.dcount ∧
    ¬ ({ ready with idx := 3 }.idx.toNat < { ready with idx := 3 }.dcount) := by decide

theorem witness_AngleReads : ready.cfg.wf = true ∧
    ∀ n ∈ ([0x13, 0x14, 0x15] : List (BitVec 8)),
      (asked ready (.regRead n)).hostq = [.regRead n] ∧ (n = 0x13 ∨ n = 0x14 ∨ n = 0x15) := by decide

/-- V6.2, V6.3, V6.4, V6.7, V6.13: both sides of the validity test. -/
theorem witness_WindowCount : ready.winValid = true ∧ ready.dcount = 3 ∧
    { ready with winStart := 0, winStop := 28, winStep := 1 }.winValid = true ∧
    { ready with winStart := 0, winStop := 29, winStep := 1 }.winValid = false ∧
    { ready with winStep := 0 }.winValid = false ∧ State.reset.winValid = false := by decide

/-- V3.35: a payload byte of a scan changed; the first and the last position. -/
theorem witness_CrcDetectsOneByte : Cfg.ref.crcPoly.getLsbD 0 = true ∧
    0 < [0x31, 0x32].length ∧ ([0x31, 0x32] : List Byte)[0]? ≠ some 0x30 ∧
    1 < [0x31, 0x32].length ∧ ([0x31, 0x32] : List Byte)[1]? ≠ some 0x30 ∧
    { Cfg.ref with crcPoly := 0x06 }.crcPoly.getLsbD 0 = false := by decide

theorem witness_CrcOrderDependent : { Cfg.ref with crcPoly := 0x01 }.crcPoly = 0x01 ∧
    Cfg.ref.crcPoly.getLsbD 0 = true ∧ Cfg.ref.crcPoly ≠ 0x01 := by decide

theorem witness_CrcAffine : ([1, 2] : List Byte).length = ([3, 4] : List Byte).length := by rfl

/-- The same two bytes at two places of two buffers. -/
theorem witness_CrcOfRange : ready.cfg = State.reset.cfg ∧
    ∀ i, i < 2 → { ready with pb := [(0, 5), (1, 6)] }.pbRead (0 + i) =
      { State.reset with pb := [(3, 5), (4, 6)] }.pbRead (3 + i) := by
  refine ⟨rfl, fun i hi => ?_⟩
  obtain rfl | rfl : i = 0 ∨ i = 1 := by omega
  all_goals rfl

theorem witness_FramesRoundTrip : ([1, 2] : List Byte).length = ([1, 2] : List Byte).length ∧
    frameBytes Cfg.ref [2, 1] 5 [1, 2] = frameBytes Cfg.ref [2, 1] 5 [1, 2] ∧
    scanPayload 1 [2, 3] = scanPayload 1 [2, 3] ∧
    ready.windowPayload = (held .running).windowPayload ∧ baudPayload 3 = baudPayload 3 := by decide

/-- V3.31 to V3.34, V3.37: short by one and empty, each header byte wrong, the header right, and the first and the
last byte of a sealed frame changed. -/
theorem witness_CheckAcceptsSealed : ready.cfg.wf = true ∧ frameLen ready.cfg 7 ≤ ready.cfg.pbCap ∧
    (scan.take 10).length < frameLen ready.cfg 7 ∧ ([] : List Byte).length < frameLen ready.cfg 7 ∧
    (scan.set 0 0x03).length = frameLen ready.cfg 7 ∧
    (0 < ready.cfg.hdrLen ∧ (scan.set 0 0x03).take 0 = ready.cfg.hdrRx.take 0 ∧
      (scan.set 0 0x03)[0]? ≠ ready.cfg.hdrRx[0]?) ∧
    (1 < ready.cfg.hdrLen ∧ (scan.set 1 0x80).take 1 = ready.cfg.hdrRx.take 1 ∧
      (scan.set 1 0x80)[1]? ≠ ready.cfg.hdrRx[1]?) ∧
    (scan.set 2 0x10).take ready.cfg.hdrLen = ready.cfg.hdrRx ∧
    rxFrame ready.cfg 0x20 [0x01, 0x00, 0x64, 0x00, 0xC8, 0x01, 0x2C] = scan ∧
    0 < frameLen ready.cfg 7 ∧ scan[0]? ≠ some 0x03 ∧ 10 < frameLen ready.cfg 7 ∧ scan[10]? ≠ some 0xF0 := by decide

/-- V4.3, V4.2, V4.4: the last byte of the buffer, `REM = 0`, and the cursor at the end. -/
theorem witness_CsetWrites : ready.cfg.wf = true ∧
    ({ ready with cur := 63, rem := 1 }.rem ≠ 0 ∧
      { ready with cur := 63, rem := 1 }.cur.toNat < { ready with cur := 63, rem := 1 }.cfg.pbCap) ∧
    { ready with cur := 3 }.rem = 0 ∧
    { ready with cur := 64, rem := 4 }.cfg.pbCap ≤ { ready with cur := 64, rem := 4 }.cur.toNat := by decide

theorem witness_CgetReads : ready.cfg.wf = true ∧
    { ready with cur := 63 }.cur.toNat < { ready with cur := 63 }.cfg.pbCap ∧
    { ready with cur := 64 }.cfg.pbCap ≤ { ready with cur := 64 }.cur.toNat := by decide

/-- R148: `CUR + B = PB_CAP` exactly, `B = 0` at the end, and one byte too many. -/
theorem witness_CcrcComputes :
    { ready with cur := 60 }.cur.toNat + (4 : Half).toNat ≤ ready.cfg.pbCap ∧
    { ready with cur := 64 }.cur.toNat + (0 : Half).toNat ≤ ready.cfg.pbCap ∧
    ready.cfg.pbCap < { ready with cur := 60 }.cur.toNat + (5 : Half).toNat := by decide

/-- V5.1, V5.2, V5.3. -/
theorem witness_WrongState : ready.phase ∉ validFrom .start ∧ ready.phase ∉ validFrom .step ∧
    (started .running).phase ∉ validFrom .open_ ∧ (started .stopped).phase ∉ validFrom .reneg := by decide

theorem witness_StateTable : ready.cfg.wf = true ∧ ready.phase ∈ validFrom .open_ ∧
    (started .stopped).phase ∈ validFrom .start ∧ (held .opening).phase ∈ validFrom .reset := by decide

theorem witness_CommandFrame : ready.cfg.wf = true ∧ exec .nop ready = .next ready ∧
    exec .close (held .opening) = .next (after (exec .close (held .opening))) := ⟨by decide, rfl, rfl⟩

theorem witness_BufferFrame : ready.cfg.wf = true ∧
    exec (.cset 1) { ready with rem := 1 } = .next (after (exec (.cset 1) { ready with rem := 1 })) ∧
    exec .start ready = .next (after (exec .start ready)) ∧ storeBound .start ready = 5 := ⟨by decide, rfl, rfl, rfl⟩

theorem witness_CallBounds : ready.cfg.wf = true ∧
    exec .open_ State.reset =
      .next { State.reset with err := .configuration, esticky := 0b010000 } := ⟨by decide, rfl⟩

theorem witness_HostCannotDisturb : Instr.isSequencer .start = true ∧ (held .authenticated).cfg.wf = true ∧
    { held .authenticated with pb := [(0, 9)], cur := 7, rem := 3 } =
      { held .authenticated with
        pb := [(0, 9)], cur := 7, rem := 3, rxlen := 0, txlen := 0, data := 0, crcout := 0 } := by decide

/-- Lanes past `PW_LEN` for `OPEN`, and any lanes for another command. -/
theorem witness_PasswordOnlyInOpen :
    { ready with pwLen := 6, pw1 := 0x0000454C }.password = { ready with pwLen := 6, pw1 := 0xFFFF454C }.password ∧
    Instr.start ≠ Instr.open_ := by decide

theorem witness_ResetCommand : ready.cfg.wf = true ∧ ready.topen = false ∧
    (held .running).cfg.wf = true ∧ (held .running).topen = true := by decide

/-- V5.6. -/
theorem witness_OpenChecksPasswordLength : State.reset.phase = .closed ∧
    State.reset.pwLen.toNat ≠ State.reset.cfg.pwLenReq := by decide

theorem witness_OpenRests : ready.cfg.wf = true ∧ ready.phase = .closed ∧ ready.topen = false := by decide

/-- The script of `test_open_succeeds`, and the same device found at the assumed rate with an invalid window. -/
theorem witness_OpenSucceeds : ready.cfg.wf = true ∧ ready.phase = .closed ∧
    ready.pwLen.toNat = ready.cfg.pwLenReq ∧
    (∀ x ∈ ([[], [0xFF, 0x00, 0x13]] : List (List Byte)),
      x.take (frameLen ready.cfg 1) ≠ ackFrame ready.cfg ready.cfg.tcProbe) ∧
    ([] : List Byte) :: [[0xFF, 0x00, 0x13], ack 0x01 0x07] =
      [[], [0xFF, 0x00, 0x13]] ++ [ackFrame ready.cfg ready.cfg.tcProbe] ∧
    (ready.baudCur :: otherCodes ready.baudCur)[2]? = some 1 ∧
    { ready with baudDes := 5 }.baudDes ≠ 1 ∧ ready.winValid = true ∧
    (Answer.ok [] :: .ok [] :: .ok [] :: ([[0xFF, 0x00, 0x13], ack 0x01 0x07] : List (List Byte)).flatMap missAnswers) ++
      .ok [] :: .ok [0x02, 0x81, 0x02, 0x52, 0x4F, 0x44, 0x34, 0x4C, 0x45, 0x31, 0x32, 0x3D] ::
        ([.ok [], .ok (ack 0x03 0x09), .ok [], .ok [], .ok (ack 0x01 0x07)] ++ [.ok [], .ok (ack 0x04 0x1C)] ++ []) =
      [.ok [], .ok [], .ok [], .ok [], .ok [], .ok [0xFF, 0x00, 0x13], .ok [], .ok [], .ok (ack 0x01 0x07), .ok [],
        .ok (rxFrame ready.cfg ready.cfg.tcPasswd ready.password), .ok [], .ok (ackFrame ready.cfg ready.cfg.tcBaud),
        .ok [], .ok [], .ok (ackFrame ready.cfg ready.cfg.tcProbe), .ok [],
        .ok (ackFrame ready.cfg ready.cfg.tcWindow)] ∧
    (ready.baudCur :: otherCodes ready.baudCur)[0]? = some ready.baudDes ∧
    { ready with winStart := 0, winStop := 528, winStep := 1 }.winValid = false := by decide

/-- Found at the first other rate and at the last one. -/
theorem witness_OpenFindsRate : ready.cfg.wf = true ∧ ready.phase = .closed ∧
    ready.pwLen.toNat = ready.cfg.pwLenReq ∧
    (∀ x ∈ ([] : List Byte) :: List.replicate 6 [0x02],
      x.take (frameLen ready.cfg 1) ≠ ackFrame ready.cfg ready.cfg.tcProbe) ∧
    (otherCodes ready.baudCur)[0]? = some 0 ∧ (otherCodes ready.baudCur)[6]? = some 7 := by decide

theorem witness_OpenFindsNoRate : ready.cfg.wf = true ∧ ready.phase = .closed ∧
    ready.pwLen.toNat = ready.cfg.pwLenReq ∧ (List.replicate 7 ([] : List Byte)).length = 7 ∧
    ∀ x ∈ ([] : List Byte) :: List.replicate 7 [],
      x.take (frameLen ready.cfg 1) ≠ ackFrame ready.cfg ready.cfg.tcProbe := by decide

/-- P1g: right bytes, wrong checksum. -/
theorem witness_WrongEchoRejected : ready.cfg.wf = true ∧ ready.phase = .closed ∧
    ready.pwLen.toNat = ready.cfg.pwLenReq ∧
    List.take (frameLen ready.cfg ready.pwLen.toNat)
      [0x02, 0x81, 0x02, 0x52, 0x4F, 0x44, 0x34, 0x4C, 0x45, 0x31, 0x32, 0x3C] ≠
      rxFrame ready.cfg ready.cfg.tcPasswd ready.password := by decide

theorem witness_RenegNoChange : (held .authenticated).phase = .authenticated ∧
    (held .authenticated).baudDes = (held .authenticated).baudCur := by decide

theorem witness_RenegSucceeds : (held .authenticated).cfg.wf = true ∧ (held .authenticated).topen = true ∧
    { held .authenticated with baudDes := 5 }.baudDes ≠ { held .authenticated with baudDes := 5 }.baudCur ∧
    [Answer.ok (ack 0x03 0x09), .ok (ack 0x01 0x07)] =
      [.ok (ackFrame Cfg.ref Cfg.ref.tcBaud), .ok (ackFrame Cfg.ref Cfg.ref.tcProbe)] := by decide

/-- The two outcomes that are not `Ok`: V5.19, and a rejected answer. -/
theorem witness_RenegNotAcknowledged : (held .authenticated).cfg.wf = true ∧
    (held .authenticated).phase = .authenticated ∧
    { held .authenticated with baudDes := 5 }.baudDes ≠ { held .authenticated with baudDes := 5 }.baudCur ∧
    { held .authenticated with baudDes := 5, answers := [.ok [], .fail] }.reply 0x03 = .tfail ∧
    { held .authenticated with baudDes := 5, answers := [.ok [], .ok [0x02]] }.reply 0x03 = .reject := by decide

/-- An answer that is not the ACK of PROBE: none, and another one. -/
theorem witness_RenegReverts : (held .authenticated).cfg.wf = true ∧ (held .authenticated).phase = .authenticated ∧
    (held .authenticated).topen = true ∧
    { held .authenticated with baudDes := 5 }.baudDes ≠ { held .authenticated with baudDes := 5 }.baudCur ∧
    Answer.received .fail (frameLen Cfg.ref 1) ≠ some (ackFrame Cfg.ref Cfg.ref.tcProbe) ∧
    Answer.received (.ok (ack 0x03 0x09)) (frameLen Cfg.ref 1) ≠ some (ackFrame Cfg.ref Cfg.ref.tcProbe) := by decide

/-- V5.15, and a valid window. -/
theorem witness_CfgwinPushes : (held .authenticated).cfg.wf = true ∧ (held .authenticated).phase = .authenticated ∧
    { held .authenticated with winStart := 0, winStop := 528, winStep := 1 }.winValid = false ∧
    (held .authenticated).winValid = true ∧ (started .running).phase ≠ .authenticated := by decide

/-- V5.14, and a valid window in either state. -/
theorem witness_StartRuns : (held .authenticated).cfg.wf = true ∧ (held .authenticated).phase = .authenticated ∧
    { held .authenticated with winStart := 0, winStop := 528, winStep := 1 }.winValid = false ∧
    (started .stopped).phase = .stopped ∧ (started .stopped).winValid = true := by decide

theorem witness_StopHalts : (started .running).cfg.wf = true ∧ (started .running).phase = .running ∧
    (started .stopped).phase ≠ .running := by decide

/-- V3.19, V3.20, V3.21: one acknowledged command of each kind. -/
theorem witness_AcknowledgedCommands : (held .authenticated).cfg.wf = true ∧ (held .authenticated).topen = true ∧
    (held .authenticated).winValid = true ∧ (held .authenticated).phase = .authenticated ∧
    (started .stopped).phase = .stopped ∧ (started .running).phase = .running ∧
    ack 0x04 0x1C = ackFrame Cfg.ref Cfg.ref.tcWindow ∧ ack 0x05 0x1B = ackFrame Cfg.ref Cfg.ref.tcStart ∧
    ack 0x06 0x12 = ackFrame Cfg.ref Cfg.ref.tcStop := by decide

/-- A scan received with and without polling. -/
theorem witness_StepStoresScan : (started .running).cfg.wf = true ∧ polled.wf = true ∧
    (started .running).phase = .running ∧ (started .running).topen = true ∧
    ([100, 200, 300] : List Half).length = (started .running).dcount ∧
    ([100, 200, 300] : List Half).length = { started .running with cfg := polled }.dcount ∧
    scan = rxFrame Cfg.ref Cfg.ref.trScan (scanPayload 0x01 [100, 200, 300]) := by decide

/-- A short read (ProtocolError), a transport failure, and a poll that cannot be sent. -/
theorem witness_FailedStepKeepsScan : (started .running).cfg.wf = true ∧ (started .running).phase = .running ∧
    (after (exec .step { started .running with answers := [.ok []] })).err = .protocol ∧
    (after (exec .step { started .running with answers := [.fail] })).err = .transport ∧
    (after (exec .step { started .running with cfg := polled, answers := [.fail] })).err = .transport := by decide +kernel

/-- Polled and not: the answer that the receive takes. -/
theorem witness_StepAcceptsExactly : (started .running).cfg.wf = true ∧ (started .running).phase = .running ∧
    { started .running with answers := [.ok scan] }.nextAnswer = .ok scan ∧ polled.wf = true ∧ polled.polling = true ∧
    { started .running with cfg := polled, answers := [.ok [], .ok scan] }.answered.nextAnswer = .ok scan := by decide

end Sys2Proof.Tests
end

section
/-! The invariant at reset (R6, R26, R52). -/

namespace Sys2Proof.Machine

/-- The reference column of R6 meets the constraint column. -/
theorem cfgRef_wf : Cfg.ref.wf = true := by decide

/-- The reset values meet the invariant under any transport history that R82 allows and that left the transport
released, as `HRESET` leaves it (R300); the inputs and the free-value counters play no part. -/
theorem State.resetOf_inv_of_released {c : Cfg} (hc : c.wf = true) {calls : List Call}
    (hlink : linkFrom .released calls = some .released) (hcalls : calls.all (callOk c) = true)
    (q : List HostOp) (as : List Answer) (d r : Nat) (rs : List (BitVec 8 × Word)) :
    { State.resetOf c with
      trace := calls, hostq := q, answers := as, draws := d, resets := r, reads := rs }.Inv where
  cfg_wf := hc
  -- nothing is stored yet, so every bound and order is about an empty array
  pb_wf := rfl
  pb_within := rfl
  raw_le := Nat.zero_le _
  rxlen_le := Nat.zero_le _
  txlen_le := Nat.zero_le _
  -- Closed, with the transport not held and every one-bit register 0
  closed_released _ := rfl
  started_locked := by
    rintro (hrunning | hstopped)
    · cases hrunning
    · cases hstopped
  locked_window hlock := Bool.noConfusion hlock
  scan_stored hscan := Bool.noConfusion hscan
  -- no error yet, and no sticky bit
  err_sticky := BitVec.and_zero
  sticky_zero := BitVec.getLsbD_zero
  ovr_sticky hovr := Bool.noConfusion hovr
  link_claimed := hlink
  calls_ok := hcalls

/-- Right after reset no call has been made, so the transport is released. -/
theorem State.resetOf_inv {c : Cfg} (hc : c.wf = true) : (State.resetOf c).Inv :=
  State.resetOf_inv_of_released hc (calls := []) rfl rfl [] [] 0 0 []

/-- Settles O11: `State.reset` is the reset state of `CFG_REF`, which is admissible. -/
theorem resetInv : Obligations.ResetInv :=
  ⟨State.resetOf_inv cfgRef_wf, fun _ hc => State.resetOf_inv hc⟩

end Sys2Proof.Machine
end

section
/-! The window's sample count is the number of its active indices (R38). -/

namespace Sys2Proof.Machine

/-- The conditions of `WIN_VALID`. -/
theorem State.winValid_iff (s : State) : s.winValid = true ↔ 1 ≤ s.winStep.toNat ∧
    s.winStart.toNat ≤ s.winStop.toNat ∧ s.winCount ≤ s.cfg.nMax := by
  simp only [State.winValid, Bool.and_eq_true, decide_eq_true_eq, and_assoc]

/-- The terms of `start, start + step, ...` up to `stop` are those of the first `(stop - start) / step + 1`. -/
theorem activeIndices_ncard {start stop step : Nat} (hstep : 1 ≤ step) (hle : start ≤ stop) :
    Set.ncard { i : Nat | i ≤ stop ∧ ∃ k, i = start + k * step } = (stop - start) / step + 1 := by
  have hinj : Function.Injective fun k => start + k * step := fun j k h =>
    Nat.eq_of_mul_eq_mul_right hstep (Nat.add_left_cancel h)
  have himage : { i : Nat | i ≤ stop ∧ ∃ k, i = start + k * step } =
      ((Finset.range ((stop - start) / step + 1)).image fun k => start + k * step : Finset Nat) := by
    have mem (k : Nat) : start + k * step ≤ stop ↔ k < (stop - start) / step + 1 := by
      rw [Nat.lt_succ_iff, Nat.le_div_iff_mul_le hstep]
      omega
    ext i
    simp only [Set.mem_ofPred_eq, Finset.coe_image, Finset.coe_range, Set.mem_image, Set.mem_Iio]
    constructor
    · rintro ⟨hi, k, rfl⟩
      exact ⟨k, (mem k).1 hi, rfl⟩
    · rintro ⟨k, hk, rfl⟩
      exact ⟨(mem k).2 hk, k, rfl⟩
  rw [himage, Set.ncard_coe_finset, Finset.card_image_of_injective _ hinj, Finset.card_range]

/-- Settles O23: the active indices are the terms of an arithmetic progression up to `WIN_STOP`. -/
theorem windowCount : Obligations.WindowCount := by
  refine fun s => ⟨s.winValid_iff, fun hv => ?_, fun hv => by simp [State.dcount, hv]⟩
  obtain ⟨hstep, hle, -⟩ := s.winValid_iff.1 hv
  have hcount : s.dcount = (s.winStop.toNat - s.winStart.toNat) / s.winStep.toNat + 1 := if_pos hv
  exact ⟨hcount, hcount.trans (activeIndices_ncard hstep hle).symm⟩

end Sys2Proof.Machine
end

section
/-! What keeps the invariant: the named updates of the state, the host's registers, and a run of transport calls. -/

namespace Sys2Proof.Machine

/-! ### Ending a command -/

theorem ErrCode.stickyMask_zero (e : ErrCode) : e.stickyMask.getLsbD 0 = false := by
  cases e <;> rfl

/-- `done` sets the sticky bit of the code it writes (R272). -/
theorem State.Inv.done {s : State} (h : s.Inv) (e : ErrCode) : (s.done e).Inv :=
  { h with
    err_sticky := by
      simp only [State.done_esticky, State.done_err, BitVec.and_comm _ e.stickyMask, BitVec.and_or_distrib_left,
        BitVec.and_self]
      apply BitVec.eq_of_getLsbD_eq
      intro k _
      simp only [BitVec.getLsbD_or, BitVec.getLsbD_and]
      cases e.stickyMask.getLsbD k <;> simp
    sticky_zero := by rw [State.done_esticky, BitVec.getLsbD_or, h.sticky_zero, e.stickyMask_zero]; rfl
    ovr_sticky := fun ho => by simp [h.ovr_sticky ho] }

/-- An Overrun sets `OVR` with the sticky bit of PreconditionError (R163). -/
theorem State.Inv.overrun {s : State} (h : s.Inv) : s.overrun.Inv :=
  { h.done .precondition with
    ovr_sticky := fun _ => by simp }

/-! ### The host's registers -/

/-- The inputs still to come and the values read are no part of it. -/
theorem State.Inv.withHost {s : State} (h : s.Inv) (q : List HostOp) (rs : List (BitVec 8 × Word)) :
    { s with hostq := q, reads := rs }.Inv := { h with }

/-- A guarded write faults, or is the write (R51). -/
theorem State.Inv.guarded {ok : Bool} {s written : State} (h : s.Inv) (hw : ok = true → written.Inv) :
    (guarded ok s written).Inv := by
  cases ok with
  | false => exact h.done .precondition
  | true => exact hw rfl

/-- While unlocked no scan is stored and nothing is asked of the window, so it may change (R51, R203). -/
theorem State.Inv.withWindow {s : State} (h : s.Inv) (hu : s.cfgLock = false) (a b c d : Half) :
    { s with winStart := a, winStop := b, winStep := c, winType := d }.Inv :=
  { h with
    locked_window := fun hl => absurd hl (by simp [hu])
    scan_stored := fun hs => absurd (h.scan_stored hs).1 (by simp [hu]) }

/-- A register write keeps the invariant (R50, R51). -/
theorem writeReg_inv {s : State} (h : s.Inv) (r : Reg) (v : Word) : (writeReg r v s).Inv := by
  have unlocked : (!s.cfgLock) = true → s.cfgLock = false := by simp
  cases r with
  | baudCur =>
    refine h.guarded fun hok => { h with link_claimed := ?_ }
    have hc : s.phase = .closed := by simp_all
    have ht := h.closed_released hc
    have hl := h.link_claimed
    simp only [State.claimedLink, ht] at hl ⊢
    exact hl
  | baudDes => exact { h with }
  | pwLen => exact h.guarded fun _ => { h with }
  | pw0 => exact h.guarded fun _ => { h with }
  | pw1 => exact h.guarded fun _ => { h with }
  | winStart => exact h.guarded fun hok => h.withWindow (unlocked hok) _ _ _ _
  | winStop => exact h.guarded fun hok => h.withWindow (unlocked hok) _ _ _ _
  | winStep => exact h.guarded fun hok => h.withWindow (unlocked hok) _ _ _ _
  | winType => exact h.guarded fun hok => h.withWindow (unlocked hok) _ _ _ _
  | idx => exact { h with }
  | cur => exact { h with }
  | rem => exact { h with }
  | cmd | status | err | esticky | flags | dcount | dist | dmin | dmax | resol | angStart | angStop
  | data | crcout | rxlen => exact h

theorem regWrite_inv {s : State} (h : s.Inv) (n : BitVec 8) (v : Word) : (regWrite n v s).Inv := by
  unfold regWrite
  split
  · exact writeReg_inv h _ v
  · exact h

/-- A register read changes nothing, or is a PreconditionError (R74, R246, R247). -/
theorem readReg_state (r : Reg) (s : State) : (readReg r s).2 = s ∨ (readReg r s).2 = s.done .precondition := by
  have limit : ∀ l, (readLimit l s).2 = s ∨ (readLimit l s).2 = s.done .precondition := by
    intro l
    unfold readLimit
    split
    · exact .inl rfl
    · exact .inr rfl
  cases r with
  | dist =>
    change (readDist s).2 = s ∨ (readDist s).2 = s.done .precondition
    unfold readDist
    split
    · exact .inl rfl
    · exact .inr rfl
  | dmin | dmax => exact limit _
  | _ => exact .inl rfl

theorem regRead_state (n : BitVec 8) (s : State) :
    (regRead n s).2 = s ∨ (regRead n s).2 = s.done .precondition := by
  unfold regRead
  split
  · exact readReg_state _ s
  · exact .inl rfl

theorem regRead_inv {s : State} (h : s.Inv) (n : BitVec 8) : (regRead n s).2.Inv := by
  rcases regRead_state n s with hs | hs
  · rw [hs]
    exact h
  · rw [hs]
    exact h.done .precondition

/-- `HRESET` releases a held transport by a legal call (R300). -/
theorem hreset_inv {s : State} (h : s.Inv) : (hreset s).Inv := by
  have hl : linkFrom .released s.trace = some s.claimedLink := h.link_claimed
  refine State.resetOf_inv_of_released h.cfg_wf (calls := (hreset s).trace) ?_ ?_ _ _ _ _ _
  · rw [State.hreset_trace]
    cases ht : s.topen with
    | false => simpa [State.claimedLink, ht] using hl
    | true =>
      rw [if_pos rfl, linkFrom_append hl]
      simp [State.claimedLink, ht, linkFrom, Link.after]
  · rw [State.hreset_trace]
    split
    · rw [List.all_append, h.calls_ok]
      rfl
    · exact h.calls_ok

/-! ### Runs of transport calls -/

/-- A run of transport calls keeps the invariant if the state it ends in agrees with the transport and the lock. -/
theorem Session.inv {n b : Nat} {s t : State} (h : Session n b s t) (hi : s.Inv)
    (hclosed : t.phase = .closed → t.topen = false)
    (hstarted : t.phase = .running ∨ t.phase = .stopped → s.cfgLock = true) : t.Inv where
  cfg_wf := by rw [h.same]; exact hi.cfg_wf
  pb_wf := h.pb_wf hi.pb_wf
  pb_within := by rw [h.cfg_eq]; exact h.pb_within hi.pb_within
  raw_le := by rw [h.same]; exact hi.raw_le
  rxlen_le := by rw [h.cfg_eq]; exact h.rxlen_le hi.rxlen_le
  txlen_le := by rw [h.cfg_eq]; exact h.txlen_le hi.txlen_le
  closed_released := hclosed
  started_locked hp := by rw [h.same]; exact hstarted hp
  locked_window := by rw [h.same]; exact hi.locked_window
  scan_stored := by rw [h.same]; exact hi.scan_stored
  err_sticky := by rw [h.same]; exact hi.err_sticky
  sticky_zero := by rw [h.same]; exact hi.sticky_zero
  ovr_sticky := by rw [h.same]; exact hi.ovr_sticky
  link_claimed := by
    obtain ⟨cs, htr, -, -, hlink⟩ := h.calls
    have hl : linkFrom .released s.trace = some s.claimedLink := hi.link_claimed
    rw [State.link, htr, linkFrom_append hl, hlink]
  calls_ok := by
    obtain ⟨cs, htr, -, hok, -⟩ := h.calls
    rw [h.cfg_eq, htr, List.all_append, hi.calls_ok, hok]
    rfl

/-- One exchange changes neither the state nor who holds the transport. -/
theorem Exchanged.inv {b : Nat} {s t : State} (h : Exchanged b s t) (hi : s.Inv) : t.Inv := by
  have hphase : t.phase = s.phase := by rw [h.same]
  have htopen : t.topen = s.topen := by rw [h.same]
  exact (Session.of_exchanged h).inv hi (by rw [hphase, htopen]; exact hi.closed_released)
    (by rw [hphase]; exact hi.started_locked)

/-! ### Starting, stopping and storing a scan -/

/-- `START` locks a valid window (R203). -/
theorem State.Inv.lockRunning {s : State} (h : s.Inv) (hv : s.winValid = true) :
    { s with phase := .running, cfgLock := true }.Inv :=
  { h with
    closed_released := fun hp => by cases hp
    started_locked := fun _ => rfl
    locked_window := fun _ => hv
    scan_stored := fun hs => ⟨rfl, (h.scan_stored hs).2⟩ }

/-- `STOP` leaves the lock as it is (R204). -/
theorem State.Inv.stopped {s : State} (h : s.Inv) (hp : s.phase = .running) : { s with phase := .stopped }.Inv :=
  { h with
    closed_released := fun hc => by cases hc
    started_locked := fun _ => h.started_locked (.inl hp) }

/-- The number of samples is within the array (R38, R41). -/
theorem State.dcount_le (s : State) : s.dcount ≤ s.cfg.nMax := by
  unfold State.dcount
  split
  · rename_i hv
    obtain ⟨-, -, hcount⟩ := s.winValid_iff.1 hv
    exact hcount
  · exact Nat.zero_le _

/-- A whole scan, stored while Running, fills the active part of `RAW` (R29, R240). -/
theorem State.Inv.commitScan {s : State} (h : s.Inv) (hp : s.phase = .running) (f : Byte) {ws : List Half}
    (hn : ws.length = s.dcount) : (s.commitScan f ws).Inv :=
  have hlen : (rawStore s.raw ws).length = max s.raw.length s.dcount := by rw [rawStore_length, hn]
  { h with
    raw_le := by rw [State.commitScan_raw, hlen]; exact max_le h.raw_le s.dcount_le
    scan_stored := fun _ => ⟨h.started_locked (.inl hp), by
      rw [State.commitScan_raw, hlen]
      exact le_max_right _ _⟩ }

end Sys2Proof.Machine
end

section
/-! What each command of an admissible block does, said once: the body of a sequencer command by `Ended`, a cursor
command by `cursor_cases`. Frames, transitions and the invariant are read off these. -/

namespace Sys2Proof.Machine

/-! ### The sequencer commands -/

/-- What a sequencer command that ends with code `e` has made of `s` before `done` writes that code. -/
structure Ended (i : Instr) (s : State) (e : ErrCode) (t : State) : Prop where
  /-- Every other field is unchanged. -/
  same : t = { s with
    phase := t.phase, topen := t.topen, baudCur := t.baudCur, cfgLock := t.cfgLock, flags := t.flags, raw := t.raw,
    scanValid := t.scanValid, pb := t.pb, cur := t.cur, rem := t.rem, rxlen := t.rxlen, txlen := t.txlen,
    answers := t.answers, draws := t.draws, trace := t.trace }
  phase_eq : i ∉ [.open_, .close, .start, .stop, .reset] → t.phase = s.phase
  topen_eq : i ∉ [.open_, .close, .reset, .reneg] → t.topen = s.topen
  baudCur_eq : i ∉ [.open_, .reneg] → t.baudCur = s.baudCur
  scan_eq : i ≠ .step → t.flags = s.flags ∧ t.raw = s.raw
  /-- `CFG_LOCK` is set by a successful `START` (R30). -/
  cfgLock_iff : t.cfgLock = true ↔ s.cfgLock = true ∨ (i = .start ∧ e = .noError)
  /-- `SCAN_VALID` is set by a successful `STEP` (R29). -/
  scanValid_iff : t.scanValid = true ↔ s.scanValid = true ∨ (i = .step ∧ e = .noError)
  /-- The row of R190. -/
  ends : s.phase ∈ validFrom i → t.phase ∈ endsIn i s.phase (decide (e = .noError))
  inv : s.Inv → t.Inv

/-- A command that has neither locked the configuration nor stored a scan. -/
theorem Ended.of_link {i : Instr} {s t : State} {e : ErrCode}
    (same : t = { s with
      phase := t.phase, topen := t.topen, baudCur := t.baudCur, pb := t.pb, cur := t.cur, rem := t.rem,
      rxlen := t.rxlen, txlen := t.txlen, answers := t.answers, draws := t.draws, trace := t.trace })
    (hphase : i ∉ [.open_, .close, .start, .stop, .reset] → t.phase = s.phase)
    (htopen : i ∉ [.open_, .close, .reset, .reneg] → t.topen = s.topen)
    (hbaud : i ∉ [.open_, .reneg] → t.baudCur = s.baudCur)
    (hkeeps : i = .start ∨ i = .step → e ≠ .noError)
    (hends : s.phase ∈ validFrom i → t.phase ∈ endsIn i s.phase (decide (e = .noError)))
    (hinv : s.Inv → t.Inv) : Ended i s e t where
  same := by rw [same]
  phase_eq := hphase
  topen_eq := htopen
  baudCur_eq := hbaud
  scan_eq _ := by rw [same]; exact ⟨rfl, rfl⟩
  cfgLock_iff := by
    rw [same, or_iff_left]
    exact fun ⟨hi, he⟩ => hkeeps (.inl hi) he
  scanValid_iff := by
    rw [same, or_iff_left]
    exact fun ⟨hi, he⟩ => hkeeps (.inr hi) he
  ends := hends
  inv := hinv

/-- A command that has made one exchange at most and changed nothing else, as it does when it fails. -/
theorem Ended.of_exchanged {i : Instr} {b : Nat} {s t : State} {e : ErrCode} (h : Exchanged b s t)
    (hkeeps : i = .start ∨ i = .step → e ≠ .noError)
    (hends : s.phase ∈ validFrom i → s.phase ∈ endsIn i s.phase (decide (e = .noError))) : Ended i s e t :=
  have hphase : t.phase = s.phase := by rw [h.same]
  .of_link (by rw [h.same]) (fun _ => hphase) (fun _ => by rw [h.same]) (fun _ => by rw [h.same]) hkeeps
    (by rw [hphase]; exact hends) h.inv

/-- A command refused without any effect. -/
theorem Ended.refused {i : Instr} {s : State} {e : ErrCode} (he : e ≠ .noError)
    (hends : s.phase ∈ validFrom i → s.phase ∈ endsIn i s.phase false) : Ended i s e s :=
  .of_exchanged (Exchanged.refl 0 s) (fun _ => he) (by simpa [he] using hends)

/-! ### NOP, CLOSE, RESET -/

theorem nop_ended (s : State) : Ended .nop s .noError s :=
  .of_exchanged (Exchanged.refl 0 s) (by simp) (by simp [endsIn])

/-- The transport is released by one call, or was not held. -/
theorem releaseTransport_run (s : State) : releaseTransport.run s =
    .ok () { s with topen := false, trace := if s.topen then s.trace ++ [.tClose] else s.trace } := by
  rw [releaseTransport, Micro.get_bind]
  cases ht : s.topen with
  | false =>
    have : s = { s with topen := false } := by rw [← ht]
    exact congrArg _ this
  | true => rfl

/-- The body of `CLOSE` (R207). -/
theorem closeBody_run (s : State) : closeBody.run s = .ok .noError { s with
    phase := .closed, topen := false, trace := if s.topen then s.trace ++ [.tClose] else s.trace } := by
  rw [closeBody, Micro.bind_ok (releaseTransport_run s)]
  rfl

/-- Closed with the transport released, after a run of transport calls. -/
theorem Session.inv_closed {n b : Nat} {s t : State} (h : Session n b s t) (ht : t.topen = false) (hi : s.Inv) :
    { t with phase := .closed }.Inv :=
  (h.setPhase .closed).inv hi (fun _ => ht) (by simp)

theorem close_ended (s : State) : Ended .close s .noError { s with
    phase := .closed, topen := false, trace := if s.topen then s.trace ++ [.tClose] else s.trace } := by
  refine .of_link rfl (by simp) (by simp) (fun _ => rfl) (by simp) (fun _ => by simp [endsIn]) fun hi => ?_
  cases ht : s.topen with
  | false =>
    have := (Session.refl 0 0 s).inv_closed ht hi
    rwa [show ({ s with phase := .closed } : State) = { s with phase := .closed, topen := false } by rw [← ht]] at this
  | true =>
    obtain ⟨t, hrun, hk, htop, -⟩ := tClose_session ht
    cases hrun
    exact hk.inv_closed htop hi

theorem resetBody_ended {s : State} (hw : s.cfg.wf = true) :
    ∃ e t, resetBody.run s = .ok e t ∧ Ended .reset s e t := by
  cases ht : s.topen with
  | false =>
    have hsend : sendReset.run s = .ok .noError s := by
      rw [sendReset, Micro.get_bind, if_neg (by simp [ht])]
      rfl
    refine ⟨.noError, { s with phase := .closed }, by rw [resetBody, Micro.bind_ok hsend]; rfl, ?_⟩
    exact .of_link rfl (by simp) (by simp) (fun _ => rfl) (by simp) (fun _ => by simp [endsIn])
      ((Session.refl 0 0 s).inv_closed ht)
  | true =>
    have hcap := frameLen_zero_le hw
    obtain ⟨hx, -⟩ := Exchanged.sent s.cfg.tcReset (p := []) hw hcap ht
    have htop : (s.sent s.cfg.tcReset []).topen = true := by rw [hx.same]; exact ht
    obtain ⟨t, hrun, hk, htt, -, hbaud⟩ := tClose_session htop
    have hsend : ∃ e, sendReset.run s = .ok e t := by
      rw [sendReset, Micro.get_bind, if_pos ht, Micro.bind_ok (encodeFrame_ok (p := []) _ hw hcap),
        Micro.bind_ok (encode_send (p := []) _ hw hcap ht), Micro.bind_ok hrun]
      exact ⟨_, rfl⟩
    obtain ⟨e, he⟩ := hsend
    have hs : Session 3 (frameLen s.cfg 0) s t :=
      (Session.of_exchanged hx).trans (hk.mono le_rfl (Nat.zero_le _))
    refine ⟨e, { t with phase := .closed }, by rw [resetBody, Micro.bind_ok he]; rfl, ?_⟩
    refine .of_link (by rw [hs.same]) (by simp) (by simp) (fun _ => ?_) (by simp) (fun _ => by simp [endsIn])
      (hs.inv_closed htt)
    exact hbaud.trans (by rw [hx.same])

/-! ### START, STOP -/

/-- A reply that is not `Ok` is an error (R271). -/
theorem Reply.toErr_ne {r : Reply} (h : r ≠ .ok) : r.toErr ≠ .noError := by
  cases r <;> simp [Reply.toErr] at h ⊢

theorem startBody_ended {s : State} (hw : s.cfg.wf = true) :
    ∃ e t, startBody.run s = .ok e t ∧ Ended .start s e t := by
  rw [startBody, Micro.get_bind]
  have fails : s.phase ∈ endsIn .start s.phase false := by simp [endsIn]
  by_cases hp : s.phase ≠ .authenticated ∧ s.phase ≠ .stopped
  · rw [if_pos hp]
    exact ⟨_, _, rfl, .refused (by simp) fun _ => fails⟩
  · rw [if_neg hp]
    cases hv : s.winValid with
    | false => exact ⟨_, _, rfl, .refused (by simp) fun _ => fails⟩
    | true =>
      obtain ⟨r, u, hrun, hx, -⟩ := xack_exchanged s.cfg.tcStart (p := []) hw (frameLen_zero_le hw)
      rw [if_pos rfl, Micro.bind_ok hrun]
      have failed : r ≠ .ok → Ended .start s r.toErr u := fun hr =>
        .of_exchanged hx (fun _ => Reply.toErr_ne hr) (by simpa [Reply.toErr_ne hr] using fun _ => fails)
      cases r with
      | tfail => exact ⟨_, u, rfl, failed (by simp)⟩
      | reject => exact ⟨_, u, rfl, failed (by simp)⟩
      | ok =>
        refine ⟨.noError, { u with phase := .running, cfgLock := true }, rfl, ?_⟩
        exact {
          same := by rw [hx.same]
          phase_eq := by simp
          topen_eq := fun _ => by rw [hx.same]
          baudCur_eq := fun _ => by rw [hx.same]
          scan_eq := fun _ => by rw [hx.same]; exact ⟨rfl, rfl⟩
          cfgLock_iff := by simp
          scanValid_iff := by rw [hx.same]; simp
          ends := fun _ => by simp [endsIn]
          inv := fun hi => (hx.inv hi).lockRunning (by rw [hx.same]; exact hv) }

theorem stopBody_ended {s : State} (hw : s.cfg.wf = true) :
    ∃ e t, stopBody.run s = .ok e t ∧ Ended .stop s e t := by
  rw [stopBody, Micro.get_bind]
  have fails : s.phase ∈ endsIn .stop s.phase false := by simp [endsIn]
  by_cases hp : s.phase ≠ .running
  · rw [if_pos hp]
    exact ⟨_, _, rfl, .refused (by simp) fun _ => fails⟩
  · obtain ⟨r, u, hrun, hx, -⟩ := xack_exchanged s.cfg.tcStop (p := []) hw (frameLen_zero_le hw)
    rw [if_neg hp, Micro.bind_ok hrun]
    have failed : r ≠ .ok → Ended .stop s r.toErr u := fun hr =>
      .of_exchanged hx (by simp) (by simpa [Reply.toErr_ne hr] using fun _ => fails)
    cases r with
    | tfail => exact ⟨_, u, rfl, failed (by simp)⟩
    | reject => exact ⟨_, u, rfl, failed (by simp)⟩
    | ok =>
      have hrunning : u.phase = .running := by rw [hx.same]; simpa using hp
      exact ⟨.noError, { u with phase := .stopped }, rfl,
        .of_link (by rw [hx.same]) (by simp) (fun _ => by rw [hx.same]) (fun _ => by rw [hx.same]) (by simp)
          (fun _ => by simp [endsIn]) fun hi => (hx.inv hi).stopped hrunning⟩

/-! ### RENEG, CFGWIN -/

theorem renegBody_ended {s : State} (hw : s.cfg.wf = true) :
    ∃ e t, renegBody.run s = .ok e t ∧ Ended .reneg s e t := by
  rw [renegBody, Micro.get_bind]
  by_cases hp : s.phase ≠ .authenticated
  · rw [if_pos hp]
    exact ⟨_, _, rfl, .refused (by simp) fun _ => by simp [endsIn]⟩
  · obtain ⟨e, t, hrun, hk, hphase, -⟩ := renegSub_session hw
    rw [if_neg hp, hrun]
    have hauth : t.phase = .authenticated := by rw [hphase]; simpa using hp
    exact ⟨e, t, rfl, .of_link hk.same (fun _ => hphase) (by simp) (by simp) (by simp)
      (fun _ => by simp [endsIn, hphase]) fun hi => hk.inv hi (by simp [hauth]) (by simp [hauth])⟩

theorem cfgwinBody_ended {s : State} (hw : s.cfg.wf = true) :
    ∃ e t, cfgwinBody.run s = .ok e t ∧ Ended .cfgwin s e t := by
  rw [cfgwinBody, Micro.get_bind]
  by_cases hp : s.phase ≠ .authenticated
  · rw [if_pos hp]
    exact ⟨_, _, rfl, .refused (by simp) fun _ => by simp [endsIn]⟩
  · obtain ⟨e, t, hrun, hk, hphase, htopen, hbaud, -⟩ := cfgwinSub_session hw
    rw [if_neg hp, hrun]
    have hauth : t.phase = .authenticated := by rw [hphase]; simpa using hp
    exact ⟨e, t, rfl, .of_link hk.same (fun _ => hphase) (fun _ => htopen) (fun _ => hbaud) (by simp)
      (fun _ => by simp [endsIn, hphase]) fun hi => hk.inv hi (by simp [hauth]) (by simp [hauth])⟩

/-! ### STEP -/

/-- The scan frame fits the buffer whatever the window (R38, R241). -/
theorem State.scanLen_le (s : State) (hw : s.cfg.wf = true) : s.cfg.hdrLen + 3 + 2 * s.dcount ≤ s.cfg.pbCap := by
  have hmin := (Cfg.wf_facts hw).1
  have hn := s.dcount_le
  simp only [Cfg.nMax] at hn
  omega

/-- The receiving half of `STEP`, after what was sent: a failure changes no more than an exchange does, a success
stores one scan on top (R240, R242). -/
theorem acquire_exchanged {b : Nat} {s t : State} (hx : Exchanged b s t) (hw : s.cfg.wf = true)
    (hone : ∃ c, t.trace = s.trace ++ [c] ∨ t.trace = s.trace) :
    ∃ e u, (acquire s.dcount).run t = .ok e u ∧ ∃ v, Exchanged (max b s.scanLen) s v ∧
      (e ≠ .noError ∧ u = v ∨ e = .noError ∧ ∃ f ws, ws.length = s.dcount ∧ u = v.commitScan f ws) := by
  have hcap := s.scanLen_le hw
  have hcfg : t.cfg = s.cfg := by rw [hx.same]
  have htopen : t.topen = s.topen := by rw [hx.same]
  cases ht : s.topen with
  | false =>
    exact ⟨_, _, acquire_released _ (htopen.trans ht), t, hx.mono (le_max_left _ _), .inl ⟨by simp, rfl⟩⟩
  | true =>
    have recv := fun u => hx.received (len := s.scanLen) (u := u) ht hone (by simp only [State.scanLen]; omega)
      hcap (Cfg.wf_facts hw).2.1
    cases ha : t.nextAnswer with
    | fail =>
      refine ⟨_, _, acquire_fail _ (htopen.trans ht) ha, _, recv _ (.inl rfl), .inl ⟨by simp, ?_⟩⟩
      rw [hcfg, State.scanLen]
    | ok bs =>
      have hgot (c : Half) : Exchanged (max b s.scanLen) s (t.gotAt s.scanLen bs c) :=
        (recv _ (.inr ⟨bs.take s.scanLen, by rw [ha]; rfl, rfl⟩)).setCur c
      have hlen : t.cfg.hdrLen + 3 + 2 * s.dcount = s.scanLen := by rw [hcfg, State.scanLen]
      rcases acquire_received s.dcount (s := t) (by rw [hcfg]; exact hw) (by rw [hcfg]; exact hcap)
        (htopen.trans ht) ha with ⟨f, ws, hws, -, hrun⟩ | ⟨-, hrun⟩
      · rw [hlen] at hrun
        exact ⟨_, _, hrun, _, hgot _, .inr ⟨rfl, f, ws, hws, rfl⟩⟩
      · rw [hlen] at hrun
        exact ⟨_, _, hrun, _, hgot _, .inl ⟨by simp, rfl⟩⟩

theorem stepBody_ended {s : State} (hw : s.cfg.wf = true) :
    ∃ e t, stepBody.run s = .ok e t ∧ Ended .step s e t := by
  have fails : s.phase ∈ endsIn .step s.phase false := by simp [endsIn]
  rw [stepBody, Micro.get_bind]
  by_cases hp : s.phase ≠ .running
  · rw [if_pos hp]
    exact ⟨_, _, rfl, .refused (by simp) fun _ => fails⟩
  have hrunning : s.phase = .running := by simpa using hp
  rw [if_neg hp]
  have acquired {b : Nat} {t : State} (hx : Exchanged b s t)
      (hone : ∃ c, t.trace = s.trace ++ [c] ∨ t.trace = s.trace) :
      ∃ e u, (acquire s.dcount).run t = .ok e u ∧ Ended .step s e u := by
    obtain ⟨e, u, hrun, v, hv, ⟨he, rfl⟩ | ⟨rfl, f, ws, hn, rfl⟩⟩ := acquire_exchanged hx hw hone
    · exact ⟨e, u, hrun, .of_exchanged hv (fun _ => he) (by simpa [he] using fun _ => fails)⟩
    · have hphase : v.phase = s.phase := by rw [hv.same]
      refine ⟨_, _, hrun, ?_⟩
      exact {
        same := by rw [hv.same]; rfl
        phase_eq := fun _ => hphase
        topen_eq := fun _ => by rw [hv.same]; rfl
        baudCur_eq := fun _ => by rw [hv.same]; rfl
        scan_eq := by simp
        cfgLock_iff := by rw [hv.same]; simp
        scanValid_iff := by simp
        ends := fun _ => by simp [endsIn, hphase]
        inv := fun hi => (hv.inv hi).commitScan (hphase.trans hrunning) f (by rw [hn, hv.same]; rfl) }
  cases hpoll : s.cfg.polling with
  | false => exact acquired (Exchanged.refl 0 s) ⟨.tClose, .inr rfl⟩
  | true =>
    have hcap := frameLen_zero_le hw
    rw [if_pos rfl, Micro.bind_ok (encodeFrame_ok (p := []) _ hw hcap)]
    have transportError {b : Nat} {t : State} (hx : Exchanged b s t) : Ended .step s .transport t :=
      .of_exchanged hx (by simp) fun _ => fails
    cases ht : s.topen with
    | false =>
      rw [Micro.bind_ok (encode_send_released _ ht)]
      exact ⟨_, _, rfl, transportError (Exchanged.encoded _ hw hcap)⟩
    | true =>
      obtain ⟨hx, htr⟩ := Exchanged.sent s.cfg.tcPoll (p := []) hw hcap ht
      rw [Micro.bind_ok (encode_send (p := []) _ hw hcap ht)]
      cases s.nextAnswer.isOk with
      | false => exact ⟨_, _, rfl, transportError hx⟩
      | true => exact acquired hx ⟨_, .inl htr⟩

/-! ### OPEN -/

theorem orElseDone_ok {m rest : Micro ErrCode} {s t : State} (h : m.run s = .ok .noError t) :
    (orElseDone m rest).run s = rest.run t := by
  rw [orElseDone, Micro.bind_ok h]

theorem orElseDone_err {m rest : Micro ErrCode} {s t : State} {e : ErrCode} (h : m.run s = .ok e t)
    (he : e ≠ .noError) : (orElseDone m rest).run s = .ok e t := by
  rw [orElseDone, Micro.bind_ok h]
  cases e with
  | noError => exact absurd rfl he
  | _ => rfl

/-- `STATE <- p` after a run of transport calls. -/
theorem Session.setPhase_run {n b : Nat} {s t : State} (h : Session n b s t) (p : Phase) :
    ∃ u, (Machine.setPhase p).run t = .ok () u ∧ Session n b s u ∧ u.phase = p :=
  ⟨_, rfl, h.setPhase p, rfl⟩

/-- A session of `OPEN` that has begun in Opening with the transport held: one run of transport calls, resting in
Opening, Negotiating or Authenticated, the last on success (R190, R191). -/
theorem openSession_session {s : State} (hw : s.cfg.wf = true) (ht : s.topen = true) (hp : s.phase = .opening)
    (hpw : s.pwLen.toNat ≤ 8) :
    ∃ e t, openSession.run s = .ok e t ∧ Session 42 (frameLen s.cfg 8) s t ∧
      t.phase ∈ [.opening, .negotiating, .authenticated] ∧ (e = .noError → t.phase = .authenticated) := by
  obtain ⟨e1, s1, h1, k1, hp1, -⟩ := detect_session hw ht
  by_cases he1 : e1 = .noError
  swap
  · exact ⟨e1, s1, orElseDone_err h1 he1, k1.mono (by omega) le_rfl, by simp [hp1, hp], fun h => absurd h he1⟩
  obtain ⟨u1, hrun1, m1, hq1⟩ := k1.setPhase_run .negotiating
  obtain ⟨e2, s2, h2, k2, hp2, -⟩ := auth_session (s := u1) (by rw [m1.cfg_eq]; exact hw) (by rw [m1.same]; exact hpw)
  rw [m1.cfg_eq] at k2
  have k12 := m1.trans k2
  rw [openSession, orElseDone_ok (he1 ▸ h1), Micro.bind_ok hrun1]
  by_cases he2 : e2 = .noError
  swap
  · exact ⟨e2, s2, orElseDone_err h2 he2, k12.mono (by omega) le_rfl, by simp [hp2, hq1], fun h => absurd h he2⟩
  obtain ⟨u2, hrun2, m2, hq2⟩ := k12.setPhase_run .authenticated
  obtain ⟨e3, s3, h3, k3, hp3, -⟩ := renegSub_session (s := u2) (by rw [m2.cfg_eq]; exact hw)
  rw [m2.cfg_eq] at k3
  have k123 := m2.trans k3
  rw [orElseDone_ok (he2 ▸ h2), Micro.bind_ok hrun2]
  by_cases he3 : e3 = .noError
  swap
  · exact ⟨e3, s3, orElseDone_err h3 he3, k123.mono (by omega) le_rfl, by simp [hp3, hq2], fun h => absurd h he3⟩
  obtain ⟨e4, s4, h4, k4, hp4, -⟩ := cfgwinSub_session (s := s3) (by rw [k123.cfg_eq]; exact hw)
  rw [k123.cfg_eq] at k4
  rw [orElseDone_ok (he3 ▸ h3)]
  exact ⟨e4, s4, h4, k123.trans k4, by simp [hp4, hp3, hq2], fun _ => by rw [hp4, hp3, hq2]⟩

/-- A first `T_OPEN` takes an answer and is traced; nothing else changes. -/
theorem State.opened_same (s : State) (c : BitVec 3) : s.opened c =
    { s with answers := (s.opened c).answers, draws := (s.opened c).draws, trace := (s.opened c).trace } := by
  unfold State.opened State.traced State.answered
  cases s.answers <;> rfl

/-- The transport opened at `BAUD_CUR` itself (R26, R191). -/
theorem opened_held {s : State} (ht : s.topen = false) (ha : s.nextAnswer.isOk = true) :
    Session 1 0 s { s.opened s.baudCur with topen := true } := by
  have h : ({ s.opened s.baudCur with topen := true } : State) =
      { s.opened s.baudCur with topen := true, baudCur := s.baudCur } := by rw [State.opened_same]
  rw [h]
  exact opened_ok s.baudCur ht ha

theorem openBody_ended {s : State} (hw : s.cfg.wf = true) :
    ∃ e t, openBody.run s = .ok e t ∧ Ended .open_ s e t := by
  have fails : s.phase ∈ validFrom .open_ → s.phase ∈ endsIn .open_ s.phase false := by
    simp only [validFrom, List.mem_singleton]
    rintro h
    simp [endsIn, h]
  rw [openBody, Micro.get_bind]
  by_cases hp : s.phase ≠ .closed
  · rw [if_pos hp]
    exact ⟨_, _, rfl, .refused (by simp) fails⟩
  rw [if_neg hp]
  by_cases hpw : s.pwLen.toNat ≠ s.cfg.pwLenReq
  · rw [if_pos hpw]
    exact ⟨_, _, rfl, .refused (by simp) fails⟩
  rw [if_neg hpw, Micro.bind_ok (tOpen_run s.baudCur s)]
  have hclosed : s.phase = .closed := by simpa using hp
  cases ha : s.nextAnswer.isOk with
  | false =>
    refine ⟨.transport, s.opened s.baudCur, rfl, .of_link ?_ (by simp) (by simp) (by simp) (by simp) ?_ ?_⟩
    · rw [State.opened_same]
    · rw [State.opened_phase]
      exact fails
    · intro hi
      have ht := hi.closed_released hclosed
      exact (opened_fail s.baudCur ht ha).inv hi (fun _ => by rw [State.opened_topen, ht])
        (by simp [State.opened_phase, hclosed])
  | true =>
    obtain ⟨s1, hs1⟩ : ∃ s1, s1 = { s.opened s.baudCur with topen := true, phase := .opening } := ⟨_, rfl⟩
    have hcfg : s1.cfg = s.cfg := by rw [hs1]; exact State.opened_cfg s s.baudCur
    have hlen : s1.pwLen = s.pwLen := by rw [hs1, State.opened_same]
    have hlen8 : s1.pwLen.toNat ≤ 8 := by
      have := (Cfg.wf_facts hw).2.2.2.2.2
      rw [hlen]
      omega
    obtain ⟨e, t, hrun, hk, hphase, hok⟩ := openSession_session (s := s1) (by rw [hcfg]; exact hw)
      (by rw [hs1]) (by rw [hs1]) hlen8
    have hhold : holdTransport.run (s.opened s.baudCur) = .ok () { s.opened s.baudCur with topen := true } := rfl
    have hset : (setPhase .opening).run { s.opened s.baudCur with topen := true } = .ok () s1 := by rw [hs1]; rfl
    refine ⟨e, t, by rw [if_pos rfl, Micro.bind_ok hhold, Micro.bind_ok hset, hrun], ?_⟩
    refine .of_link ?_ (by simp) (by simp) (by simp) (by simp) (fun _ => ?_) fun hi => ?_
    · rw [hk.same, hs1, State.opened_same]
    · by_cases he : e = .noError
      · simp [he, endsIn, hok he]
      · simp only [he, decide_false, endsIn]
        exact List.mem_cons_of_mem _ hphase
    · have k1 : Session 1 (frameLen s1.cfg 8) s s1 := by
        rw [hs1]
        exact ((opened_held (hi.closed_released hclosed) ha).mono le_rfl (Nat.zero_le _)).setPhase .opening
      refine (k1.trans hk).inv hi ?_ ?_
      · rintro hc
        simp [hc] at hphase
      · rintro (hc | hc) <;> simp [hc] at hphase

/-- Every sequencer command of an admissible block ends with one `done`, never with an Overrun (R163, R273). -/
theorem exec_sequencer {i : Instr} (hi : i.isSequencer = true) {s : State} (hw : s.cfg.wf = true) :
    ∃ e t, exec i s = .next (t.done e) ∧ Ended i s e t := by
  have run {body : Micro ErrCode} (h : ∃ e t, body.run s = .ok e t ∧ Ended i s e t) :
      ∃ e t, runCommand body s = .next (t.done e) ∧ Ended i s e t :=
    let ⟨e, t, hrun, hend⟩ := h
    ⟨e, t, runCommand_ok hrun, hend⟩
  cases i with
  | nop => exact ⟨_, _, rfl, nop_ended s⟩
  | open_ => exact run (openBody_ended hw)
  | close => exact run ⟨_, _, closeBody_run s, close_ended s⟩
  | start => exact run (startBody_ended hw)
  | stop => exact run (stopBody_ended hw)
  | step => exact run (stepBody_ended hw)
  | reset => exact run (resetBody_ended hw)
  | reneg => exact run (renegBody_ended hw)
  | cfgwin => exact run (cfgwinBody_ended hw)
  | cset a => cases hi
  | cget => cases hi
  | ccrc b => cases hi

/-! ### The cursor commands -/

/-- What a cursor command has made of `s` when its bounds check passes, before `done` writes code 0. -/
structure CursorMoved (i : Instr) (s t : State) : Prop where
  /-- Every other field is unchanged. -/
  same : t = { s with pb := t.pb, cur := t.cur, rem := t.rem, data := t.data, crcout := t.crcout }
  data_eq : i ≠ .cget → t.data = s.data
  crcout_eq : (∀ b, i ≠ .ccrc b) → t.crcout = s.crcout
  cursor_eq : (∃ b, i = .ccrc b) → t.cur = s.cur ∧ t.rem = s.rem
  inv : s.Inv → t.Inv

/-- A cursor command is refused as a whole, or passes its bounds check (R148, R163, R174, R175). -/
theorem exec_cursor {i : Instr} (hi : i.isSequencer = false) (s : State) :
    exec i s = .next s.overrun ∨ ∃ t, exec i s = .next (t.done .noError) ∧ CursorMoved i s t := by
  cases i with
  | cset a =>
    by_cases h : s.rem = 0 ∨ s.cfg.pbCap ≤ s.cur.toNat
    · exact .inl (runCommand_overrun (Micro.bind_error (setByte_refused a h)))
    · rw [not_or, Nat.not_le] at h
      refine .inr ⟨_, runCommand_ok (Micro.bind_ok (setByte_ok a h.1 h.2)), rfl, fun _ => rfl, fun _ => rfl,
        by simp, fun hs => ?_⟩
      exact { hs with
        pb_wf := Memory.write_wf hs.pb_wf _ _
        pb_within := Memory.write_within hs.pb_within a h.2 }
  | cget =>
    by_cases h : s.cfg.pbCap ≤ s.cur.toNat
    · exact .inl (runCommand_overrun (Micro.bind_error (getByte_refused h)))
    · exact .inr ⟨_, runCommand_ok (Micro.bind_ok (getByte_ok (Nat.not_le.1 h))), rfl, by simp, fun _ => rfl,
        by simp, fun hs => { hs with }⟩
  | ccrc b =>
    have hrun : (crcRange b).run s = if s.cfg.pbCap < s.cur.toNat + b.toNat then .error .overrun s
      else .ok () { s with crcout := s.crc s.cur.toNat b.toNat } := rfl
    split at hrun
    · exact .inl (runCommand_overrun (Micro.bind_error hrun))
    · exact .inr ⟨_, runCommand_ok (Micro.bind_ok hrun), rfl, fun _ => rfl, by simp, fun _ => ⟨rfl, rfl⟩,
        fun hs => { hs with }⟩
  | nop | open_ | close | start | stop | step | reset | reneg | cfgwin => cases hi

end Sys2Proof.Machine
end

section
/-! What one step is for each host access (R8, R20), and the register accesses read off it. -/

namespace Sys2Proof.Machine

/-! ### One step for each access -/

theorem step_idle {s : State} (h : s.hostq = []) : step s = .next s := by
  simp only [step, fetchAccess, h]

theorem step_regRead {s : State} {n : BitVec 8} {q : List HostOp} (h : s.hostq = .regRead n :: q) :
    step s = .next { (regRead n { s with hostq := q }).2 with
      reads := (regRead n { s with hostq := q }).2.reads ++ [(n, (regRead n { s with hostq := q }).1)] } := by
  simp only [step, fetchAccess, h]

theorem step_regWrite {s : State} {n : BitVec 8} {v : Word} {q : List HostOp} (h : s.hostq = .regWrite n v :: q)
    (hn : n ≠ 0) : step s = .next (regWrite n v { s with hostq := q }) := by
  simp only [step, fetchAccess, h, if_neg hn]

theorem step_command {s : State} {w : Word} {q : List HostOp} {i : Instr} (h : s.hostq = .regWrite 0 w :: q)
    (hd : decode w = .ok i) : step s = exec i { s with hostq := q } := by
  simp only [step, fetchAccess, h, if_true, hd]

theorem step_illegal {s : State} {w : Word} {q : List HostOp} {r : DecodeReject} (h : s.hostq = .regWrite 0 w :: q)
    (hd : decode w = .error r) : step s = .next (State.done { s with hostq := q } .precondition) := by
  simp only [step, fetchAccess, h, if_true, hd, illegalCommand]

theorem step_hreset {s : State} {q : List HostOp} (h : s.hostq = .hreset :: q) :
    step s = .next (hreset { s with hostq := q }) := by
  simp only [step, fetchAccess, h]

/-! ### Accesses by register -/

/-- The numbers from `0x1B` on are reserved (R21). -/
theorem regOf_reserved {n : BitVec 8} (h : 0x1B ≤ n.toNat) : regOf n = none := by
  grind [regOf]

theorem step_reserved_read {s : State} {n : BitVec 8} {q : List HostOp} (h : s.hostq = .regRead n :: q)
    (hn : 0x1B ≤ n.toNat) : step s = .next { s with hostq := q, reads := s.reads ++ [(n, 0)] } := by
  simp only [step_regRead h, regRead, regOf_reserved hn]

theorem step_reserved_write {s : State} {n : BitVec 8} {v : Word} {q : List HostOp}
    (h : s.hostq = .regWrite n v :: q) (hn : 0x1B ≤ n.toNat) : step s = .next { s with hostq := q } := by
  have h0 : n ≠ 0 := by
    rintro rfl
    simp at hn
  simp only [step_regWrite h h0, regWrite, regOf_reserved hn]

/-- A write that its lock allows (R50). -/
theorem guarded_allowed {ok : Bool} {s written : State} (h : ok = true) : guarded ok s written = written := by
  rw [guarded, if_pos h]

/-- A write that its lock refuses (R51). -/
theorem guarded_refused {ok : Bool} {s written : State} (h : ok = false) :
    guarded ok s written = s.done .precondition := by
  rw [guarded, h]
  rfl

/-! ### The statements -/

/-- Settles O5: the next access is taken off the list, and a word placed by `withFetchWord` is that access. -/
theorem stepRunsDecoded : Obligations.StepRunsDecoded := by
  refine ⟨fun s w q i h hd => step_command h hd, fun s nbits w i hd => ?_⟩
  have hok : decode (tableWord nbits w) = .ok i := by
    unfold decodeTableWord at hd
    split at hd
    · rename_i j hj
      rw [hj, Option.some.inj hd]
    · cases hd
  exact step_command (s := s.withFetchWord nbits w) (q := s.hostq) rfl hok

/-- Settles O9: `hreset` is the reset state but for the configuration, the inputs, the outputs and the count. -/
theorem hresetValues : Obligations.HresetValues := fun _ _ h => step_hreset h

/-- Settles O10: every register by its value of R52; the window's step of 0 makes it invalid (R38). -/
theorem resetTable : Obligations.ResetTable := by
  intro c
  have hstep : (State.resetOf c).winStep.toNat = 0 := rfl
  have hinvalid : (State.resetOf c).winValid = false := by simp [State.winValid, hstep]
  have hcount : (State.resetOf c).dcount = 0 := by simp [State.dcount, hinvalid]
  have hstatus : (State.resetOf c).statusWord = 0 := by
    simp [State.statusWord, State.resetOf, Phase.code]
  exact ⟨rfl, rfl, rfl, rfl, hstatus, rfl, rfl, rfl, rfl, rfl, rfl, rfl, rfl, rfl, hinvalid, hcount, rfl, rfl, rfl, rfl,
    rfl, rfl, rfl, rfl⟩

/-- Settles O15: a reserved number names no register, and the read-only registers have no write (R21, R22). -/
theorem ignoredAccesses : Obligations.IgnoredAccesses := by
  intro s n v q
  constructor
  · rintro h (rfl | hn)
    · exact step_regRead h
    · exact step_reserved_read h hn
  · rintro h (hn | hn)
    · exact step_reserved_write h hn
    · simp only [List.mem_cons, List.not_mem_nil, or_false] at hn
      rcases hn with rfl | rfl | rfl | rfl | rfl | rfl | rfl | rfl | rfl | rfl | rfl | rfl | rfl | rfl <;>
        exact step_regWrite h (by decide)

/-- The low three bits of `STATUS` are the code of `STATE`, and nothing stands above bit 6 (R24). -/
theorem State.statusWord_toNat (s : State) :
    s.statusWord.toNat % 8 = s.phase.code.toNat ∧ s.statusWord.toNat < 2 ^ 7 := by
  obtain ⟨bits, hbits⟩ : ∃ bits : BitVec 4, s.statusWord = (bits ++ s.phase.code).setWidth 32 := ⟨_, rfl⟩
  have hcode := s.phase.code.isLt
  have hb := bits.isLt
  have hval : (bits ++ s.phase.code).toNat = bits.toNat * 8 + s.phase.code.toNat := by
    rw [BitVec.toNat_append, ← Nat.shiftLeft_add_eq_or_of_lt hcode, Nat.shiftLeft_eq]
  rw [hbits, BitVec.toNat_setWidth, hval]
  omega

/-- Settles O16: the view of R24 field by field. -/
theorem statusRead : Obligations.StatusRead := by
  intro s q h
  refine ⟨s.statusWord, step_regRead h, ?_, ?_, ?_, ?_, ?_, s.statusWord_toNat.2⟩
  · rw [s.statusWord_toNat.1]
    cases s.phase <;> simp [Phase.code]
  all_goals
    simp only [State.statusWord, BitVec.getLsbD_setWidth, BitVec.getLsbD_append]
    simp

/-- Settles O17: each number names its register, whose read has no side effect (R21, R74). -/
theorem plainReads : Obligations.PlainReads := by
  intro s n v q h hv
  rcases hv with ⟨rfl, hv⟩ | hv
  · have hcode : v = s.err.code.setWidth 32 := by
      cases he : s.err <;> simp_all [ErrCode.code]
    rw [hcode]
    exact step_regRead h
  · simp only [List.mem_cons, Prod.mk.injEq, List.not_mem_nil, or_false] at hv
    rcases hv with ⟨rfl, rfl⟩ | ⟨rfl, rfl⟩ | ⟨rfl, rfl⟩ | ⟨rfl, rfl⟩ | ⟨rfl, rfl⟩ | ⟨rfl, rfl⟩ | ⟨rfl, rfl⟩ |
      ⟨rfl, rfl⟩ | ⟨rfl, rfl⟩ | ⟨rfl, rfl⟩ | ⟨rfl, rfl⟩ | ⟨rfl, rfl⟩ | ⟨rfl, rfl⟩ | ⟨rfl, rfl⟩ | ⟨rfl, rfl⟩ |
      ⟨rfl, rfl⟩ | ⟨rfl, rfl⟩ | ⟨rfl, rfl⟩ <;>
      exact step_regRead h

/-- Settles O18: the registers writable at any time, those writable while unlocked, and `BAUD_CUR` (R50, R51). -/
theorem writesKeepListedBits : Obligations.WritesKeepListedBits := by
  intro s t n v q h ht
  simp only [List.mem_cons, Prod.mk.injEq, List.not_mem_nil, or_false] at ht
  rcases ht with ht | ⟨hunlocked, ht⟩ | ⟨hunlocked, hclosed, rfl, rfl⟩
  · rcases ht with ⟨rfl, rfl⟩ | ⟨rfl, rfl⟩ | ⟨rfl, rfl⟩ | ⟨rfl, rfl⟩ <;> exact step_regWrite h (by decide)
  · have hok : (!s.cfgLock) = true := by simp [hunlocked]
    rcases ht with ⟨rfl, rfl⟩ | ⟨rfl, rfl⟩ | ⟨rfl, rfl⟩ | ⟨rfl, rfl⟩ | ⟨rfl, rfl⟩ | ⟨rfl, rfl⟩ | ⟨rfl, rfl⟩ <;>
      exact (step_regWrite h (by decide)).trans (congrArg _ (guarded_allowed hok))
  · have hok : (decide (s.phase = .closed) && !s.cfgLock) = true := by simp [hunlocked, hclosed]
    exact (step_regWrite h (by decide)).trans (congrArg _ (guarded_allowed hok))

/-- Settles O19: both guards refuse, and a refused write is a `done` with code 5 (R51). -/
theorem lockedWrites : Obligations.LockedWrites := by
  rintro s n v q h (⟨hlocked, h1, h2⟩ | ⟨rfl, hl⟩)
  · have hok : (!s.cfgLock) = false := by simp [hlocked]
    have hn : n = 6 ∨ n = 7 ∨ n = 8 ∨ n = 9 ∨ n = 10 ∨ n = 11 ∨ n = 12 := by bv_omega
    rcases hn with rfl | rfl | rfl | rfl | rfl | rfl | rfl <;>
      exact (step_regWrite h (by decide)).trans (congrArg _ (guarded_refused hok))
  · have hok : (decide (s.phase = .closed) && !s.cfgLock) = false := by
      rcases hl with hlocked | hopen
      · simp [hlocked]
      · simp [hopen]
    exact (step_regWrite h (by decide)).trans (congrArg _ (guarded_refused hok))

end Sys2Proof.Machine
end

section
/-! Every command and every step: the transition table, the frames, the one-way bits, the invariant. -/

namespace Sys2Proof.Machine

/-! ### The transition table (R190) -/

/-- A cursor command ends in the state it began in. -/
theorem endsIn_cursor {i : Instr} (hi : i.isSequencer = false) (p : Phase) (success : Bool) :
    endsIn i p success = [p] := by
  cases i with
  | cset | cget | ccrc => rfl
  | _ => cases hi

/-- Settles O35: a sequencer command by its row, a cursor command in the state it began in. -/
theorem stateTable : Obligations.StateTable := by
  intro i s hw hv
  cases hi : i.isSequencer with
  | true =>
    obtain ⟨e, u, hexec, hend⟩ := exec_sequencer hi hw
    exact ⟨_, hexec, hend.ends hv⟩
  | false =>
    simp only [endsIn_cursor hi, List.mem_singleton]
    rcases exec_cursor hi s with hexec | ⟨u, hexec, hmoved⟩
    · exact ⟨_, hexec, rfl⟩
    · exact ⟨_, hexec, by rw [State.done_phase, hmoved.same]⟩

/-! ### Frames -/

/-- The sticky bits a command leaves are those before it and that of its code (R28). -/
theorem State.done_sticky {s t : State} (h : t.esticky = s.esticky) (e : ErrCode) :
    (t.done e).esticky = s.esticky ||| (t.done e).err.stickyMask := by
  rw [State.done_esticky, State.done_err, h]

/-- Settles O36: `NOP` and `CLOSE` by their next state, the other commands by what their body leaves. -/
theorem commandFrame : Obligations.CommandFrame := by
  intro i s t hw hexec
  have next {u : State} (h : exec i s = .next u) : u = t := Host.Outcome.next.inj (h.symm.trans hexec)
  cases hi : i.isSequencer with
  | true =>
    by_cases hnop : i = .nop
    · subst hnop
      cases next (u := s.done .noError) rfl
      simp [ErrCode.stickyMask]
    by_cases hclose : i = .close
    · subst hclose
      cases next (runCommand_ok (closeBody_run s))
      simp [ErrCode.stickyMask]
    obtain ⟨e, u, hend, h⟩ := exec_sequencer hi hw
    cases next hend
    have hsticky : u.esticky = s.esticky := by rw [h.same]
    have hlock (hs : i ≠ .start) : u.cfgLock = s.cfgLock := by
      rw [Bool.eq_iff_iff, h.cfgLock_iff, or_iff_left fun hx => hs hx.1]
    have hscan (hs : i ≠ .step) : u.scanValid = s.scanValid := by
      rw [Bool.eq_iff_iff, h.scanValid_iff, or_iff_left fun hx => hs hx.1]
    have hccrc : ∀ b, i ≠ .ccrc b := by
      rintro b rfl
      cases hi
    refine ⟨?_, ?_, ?_, ?_, ?_, ?_, ?_, ?_, ?_, ?_, ?_, ?_, ?_, State.done_sticky hsticky e, h.phase_eq, h.topen_eq,
      h.baudCur_eq, hlock, fun hs => ⟨(h.scan_eq hs).1, (h.scan_eq hs).2, hscan hs⟩, fun _ => ?_, fun _ => ?_,
      fun _ => ?_, by simp [hnop], by simp [hnop, hclose], by simp [hnop, hclose, hccrc]⟩
    all_goals
      rw [h.same]
      rfl
  | false =>
    have hnop : i ≠ .nop := by
      rintro rfl
      cases hi
    have hclose : i ≠ .close := by
      rintro rfl
      cases hi
    rcases exec_cursor hi s with hend | ⟨u, hend, h⟩
    · cases next hend
      simp [ErrCode.stickyMask]
    · cases next hend
      have hsticky : u.esticky = s.esticky := by rw [h.same]
      have hcursor (hq : i ∈ [.nop, .close] ∨ ∃ b, i = .ccrc b) : u.cur = s.cur ∧ u.rem = s.rem :=
        h.cursor_eq (hq.resolve_left (by simp [hnop, hclose]))
      refine ⟨?_, ?_, ?_, ?_, ?_, ?_, ?_, ?_, ?_, ?_, ?_, ?_, ?_, State.done_sticky hsticky _, fun _ => ?_, fun _ => ?_,
        fun _ => ?_, fun _ => ?_, fun _ => ?_, h.data_eq, h.crcout_eq, by simp, fun _ => ?_, fun _ => ?_, hcursor⟩
      all_goals
        rw [h.same]
        simp

/-! ### The one-way bits -/

/-- What a host's register write may change (R21, R50). -/
def State.HostWrote (s t : State) : Prop :=
  t = { s with
    baudCur := t.baudCur, baudDes := t.baudDes, pwLen := t.pwLen, pw0 := t.pw0, pw1 := t.pw1,
    winStart := t.winStart, winStop := t.winStop, winStep := t.winStep, winType := t.winType,
    idx := t.idx, cur := t.cur, rem := t.rem }

/-- A register write is a PreconditionError, or writes a register that the host may write (R50, R51). -/
theorem writeReg_cases (r : Reg) (v : Word) (s : State) :
    writeReg r v s = s.done .precondition ∨ s.HostWrote (writeReg r v s) := by
  have guard {ok : Bool} {written : State} (h : s.HostWrote written) :
      guarded ok s written = s.done .precondition ∨ s.HostWrote (guarded ok s written) := by
    cases ok with
    | false => exact .inl rfl
    | true => exact .inr h
  cases r with
  | baudCur | pwLen | pw0 | pw1 | winStart | winStop | winStep | winType => exact guard rfl
  | _ => exact .inr rfl

theorem regWrite_cases (n : BitVec 8) (v : Word) (s : State) :
    regWrite n v s = s.done .precondition ∨ s.HostWrote (regWrite n v s) := by
  unfold regWrite
  split
  · exact writeReg_cases _ v s
  · exact .inr rfl

/-- No register write touches the three bits. -/
theorem regWrite_bits (n : BitVec 8) (v : Word) (s : State) :
    (regWrite n v s).scanValid = s.scanValid ∧ (regWrite n v s).cfgLock = s.cfgLock ∧
      (regWrite n v s).ovr = s.ovr := by
  rcases regWrite_cases n v s with h | h
  · rw [h]
    exact ⟨rfl, rfl, rfl⟩
  · rw [h]
    exact ⟨rfl, rfl, rfl⟩

/-- No register read does. -/
theorem regRead_bits (n : BitVec 8) (s : State) :
    (regRead n s).2.scanValid = s.scanValid ∧ (regRead n s).2.cfgLock = s.cfgLock ∧
      (regRead n s).2.ovr = s.ovr := by
  rcases regRead_state n s with h | h
  · rw [h]
    exact ⟨rfl, rfl, rfl⟩
  · rw [h]
    exact ⟨rfl, rfl, rfl⟩

/-- What sets the three bits, for a command (R29, R30, R31). -/
theorem exec_bits {i : Instr} {s t : State} (hw : s.cfg.wf = true) (hexec : exec i s = .next t) :
    (t.scanValid = true ↔ s.scanValid = true ∨ (i = .step ∧ t.err = .noError)) ∧
      (t.cfgLock = true ↔ s.cfgLock = true ∨ (i = .start ∧ t.err = .noError)) ∧
      (t.ovr = true ↔ s.ovr = true ∨ (i.isSequencer = false ∧ t.err = .precondition)) := by
  have next {u : State} (h : exec i s = .next u) : u = t := Host.Outcome.next.inj (h.symm.trans hexec)
  cases hi : i.isSequencer with
  | true =>
    obtain ⟨e, u, hend, h⟩ := exec_sequencer hi hw
    cases next hend
    have hovr : u.ovr = s.ovr := by rw [h.same]
    exact ⟨h.scanValid_iff, h.cfgLock_iff, by simp [hovr]⟩
  | false =>
    have hstep : i ≠ .step := by
      rintro rfl
      cases hi
    have hstart : i ≠ .start := by
      rintro rfl
      cases hi
    rcases exec_cursor hi s with hend | ⟨u, hend, h⟩
    · cases next hend
      simp [hstep, hstart]
    · cases next hend
      rw [h.same]
      simp [hstep, hstart]

/-- Settles O14: a command sets a bit as `exec_bits` says, and no other access but `HRESET` touches the three. -/
theorem oneWayBits : Obligations.OneWayBits := by
  intro s t hw hstep
  have next {u : State} (h : step s = .next u) : u = t := Host.Outcome.next.inj (h.symm.trans hstep)
  cases hq : s.hostq with
  | nil =>
    cases next (step_idle hq)
    exact ⟨rfl, rfl, rfl⟩
  | cons op q =>
    cases op with
    | regRead n =>
      cases next (step_regRead hq)
      exact regRead_bits n { s with hostq := q }
    | hreset =>
      cases next (step_hreset hq)
      exact ⟨rfl, rfl, rfl⟩
    | regWrite n w =>
      by_cases hn : n = 0
      · subst hn
        cases hd : decode w with
        | ok i =>
          have h := exec_bits (s := { s with hostq := q }) hw ((step_command hq hd).symm.trans hstep)
          simpa [hd] using h
        | error r =>
          cases next (step_illegal hq hd)
          simp [hd]
      · cases next (step_regWrite hq hn)
        obtain ⟨hscan, hlock, hovr⟩ := regWrite_bits n w { s with hostq := q }
        simp only [hscan, hlock, hovr, hn, false_and, or_false, and_self]

/-! ### The invariant -/

/-- Every command keeps it. -/
theorem exec_inv {i : Instr} {s t : State} (hs : s.Inv) (hexec : exec i s = .next t) : t.Inv := by
  have next {u : State} (h : exec i s = .next u) : u = t := Host.Outcome.next.inj (h.symm.trans hexec)
  cases hi : i.isSequencer with
  | true =>
    obtain ⟨e, u, hend, h⟩ := exec_sequencer hi hs.cfg_wf
    cases next hend
    exact (h.inv hs).done e
  | false =>
    rcases exec_cursor hi s with hend | ⟨u, hend, h⟩
    · cases next hend
      exact hs.overrun
    · cases next hend
      exact (h.inv hs).done _

/-- Settles O12: by the host access the step takes. -/
theorem stepKeepsInv : Obligations.StepKeepsInv := by
  intro s t hs hstep
  have next {u : State} (h : step s = .next u) : u = t := Host.Outcome.next.inj (h.symm.trans hstep)
  cases hq : s.hostq with
  | nil =>
    cases next (step_idle hq)
    exact hs
  | cons op q =>
    have htaken : { s with hostq := q }.Inv := hs.withHost q s.reads
    cases op with
    | regRead n =>
      cases next (step_regRead hq)
      exact (regRead_inv htaken n).withHost _ _
    | hreset =>
      cases next (step_hreset hq)
      exact hreset_inv htaken
    | regWrite n w =>
      by_cases hn : n = 0
      · subst hn
        cases hd : decode w with
        | ok i => exact exec_inv htaken ((step_command hq hd).symm.trans hstep)
        | error r =>
          cases next (step_illegal hq hd)
          exact htaken.done .precondition
      · cases next (step_regWrite hq hn)
        exact regWrite_inv htaken n w

end Sys2Proof.Machine
end

section
/-! The registers a command does not look at: no micro-routine reads or writes `ERR` or `ESTICKY`, and only `OPEN` reads
the password registers. Said of a routine as: run from a state in which those registers hold something else, it does
the same and leaves them as they are. -/

namespace Sys2Proof.Machine

/-- `ERR`, `ESTICKY`, `PW_LEN`, `PW0` and `PW1`. -/
structure Aside where
  err : ErrCode
  esticky : BitVec 6
  pwLen : BitVec 4
  pw0 : Word
  pw1 : Word

/-- What those registers hold. -/
def State.aside (s : State) : Aside := ⟨s.err, s.esticky, s.pwLen, s.pw0, s.pw1⟩

/-- The state with other contents in them. -/
def State.withAside (s : State) (a : Aside) : State :=
  { s with err := a.err, esticky := a.esticky, pwLen := a.pwLen, pw0 := a.pw0, pw1 := a.pw1 }

@[simp] theorem State.withAside_aside (s : State) : s.withAside s.aside = s := rfl
@[simp] theorem State.aside_withAside (s : State) (a : Aside) : (s.withAside a).aside = a := rfl

theorem State.answered_withAside (s : State) (a : Aside) : (s.withAside a).answered = s.answered.withAside a := by
  unfold State.answered State.withAside
  cases s.answers <;> rfl

theorem State.pbRange_withAside (s : State) (a : Aside) (x n : Nat) :
    (s.withAside a).pbRange x n = s.pbRange x n := State.pbRange_congr fun _ _ => rfl

theorem State.crc_withAside (s : State) (a : Aside) (x n : Nat) : (s.withAside a).crc x n = s.crc x n := by
  rw [State.crc, State.pbRange_withAside]
  rfl

/-- The end of a run, with other contents in those registers. -/
def resultWith {α : Type} (a : Aside) : EStateM.Result Overrun State α → EStateM.Result Overrun State α
  | .ok x t => .ok x (t.withAside a)
  | .error e t => .error e (t.withAside a)

theorem resultWith_ite {α : Type} (a : Aside) (p : Prop) [Decidable p] (x y : EStateM.Result Overrun State α) :
    resultWith a (if p then x else y) = if p then resultWith a x else resultWith a y := apply_ite ..

/-- From `s`, the routine does the same with other contents in those registers and leaves them. -/
def BlindAt {α : Type} (m : Micro α) (s : State) (a : Aside) : Prop :=
  m.run (s.withAside a) = resultWith a (m.run s)

/-- From every state. -/
def Blind {α : Type} (m : Micro α) : Prop := ∀ s a, BlindAt m s a

/-- Such a routine leaves those registers as they are. -/
theorem BlindAt.aside_eq {α : Type} {m : Micro α} {s t : State} {x : α} (h : BlindAt m s s.aside)
    (hrun : m.run s = .ok x t) : t.aside = s.aside := by
  rw [BlindAt, State.withAside_aside, hrun] at h
  injection h with _ ht
  have haside := congrArg State.aside ht
  exact haside

theorem BlindAt.aside_eq_of_error {α : Type} {m : Micro α} {s t : State} {e : Overrun} (h : BlindAt m s s.aside)
    (hrun : m.run s = .error e t) : t.aside = s.aside := by
  rw [BlindAt, State.withAside_aside, hrun] at h
  injection h with _ ht
  have haside := congrArg State.aside ht
  exact haside

/-! ### Routines put together -/

theorem BlindAt.bind {α β : Type} {m : Micro α} {f : α → Micro β} {s : State} {a : Aside} (hm : BlindAt m s a)
    (hf : ∀ x t, m.run s = .ok x t → BlindAt (f x) t a) : BlindAt (m >>= f) s a := by
  unfold BlindAt at hm hf ⊢
  rw [EStateM.run_bind, EStateM.run_bind, hm]
  cases hrun : m.run s with
  | ok x t => exact hf x t hrun
  | error e t => rfl

theorem Blind.bind {α β : Type} {m : Micro α} {f : α → Micro β} (hm : Blind m) (hf : ∀ x, Blind (f x)) :
    Blind (m >>= f) := fun s a => (hm s a).bind fun x t _ => hf x t a

theorem blind_pure {α : Type} (x : α) : Blind (pure x : Micro α) := fun _ _ => rfl

/-- A routine that begins by looking at the state, at nothing in those registers. -/
theorem Blind.get_bind {α : Type} {f : State → Micro α} (hf : ∀ s a, f (s.withAside a) = f s)
    (hb : ∀ s, Blind (f s)) : Blind (get >>= f) := by
  intro s a
  rw [BlindAt, Micro.get_bind, Micro.get_bind, hf]
  exact hb s s a

theorem Blind.ite {α : Type} {p : Prop} [Decidable p] {m n : Micro α} (hm : Blind m) (hn : Blind n) :
    Blind (if p then m else n) := by
  split
  · exact hm
  · exact hn

theorem blind_orElseDone {m rest : Micro ErrCode} (hm : Blind m) (hr : Blind rest) : Blind (orElseDone m rest) :=
  hm.bind fun e => by
    cases e with
    | noError => exact hr
    | _ => exact blind_pure _

/-! ### The micro-routines -/

theorem blind_setByte (v : Byte) : Blind (setByte v) := by
  intro s a
  rw [BlindAt, setByte_run, setByte_run, resultWith_ite]
  rfl

theorem blind_getByte : Blind getByte := by
  intro s a
  rw [BlindAt, getByte_run, getByte_run, resultWith_ite]
  rfl

theorem blind_setBytes (bs : List Byte) : Blind (setBytes bs) := by
  induction bs with
  | nil => exact blind_pure ()
  | cons b bs ih => exact (blind_setByte b).bind fun _ => ih

theorem blind_matchBytes (bs : List Byte) : Blind (matchBytes bs) := by
  induction bs with
  | nil => exact blind_pure true
  | cons b bs ih => exact blind_getByte.bind fun g => .ite ih (blind_pure false)

theorem blind_getWords (n : Nat) : Blind (getWords n) := by
  induction n with
  | zero => exact blind_pure []
  | succ n ih =>
    have h16 : Blind get16 := blind_getByte.bind fun _ => blind_getByte.bind fun _ => blind_pure _
    exact h16.bind fun _ => ih.bind fun _ => blind_pure _

theorem blind_setCrc (x n : Nat) : Blind (setCrc x n) := by
  intro s a
  rw [BlindAt, setCrc_run, setCrc_run, State.crc_withAside]
  exact blind_setByte _ s a

theorem blind_encodeFrame (tc : Byte) (p : List Byte) : Blind (encodeFrame tc p) :=
  .get_bind (fun _ _ => rfl) fun s =>
    have start : Blind (startFrame (frameLen s.cfg p.length)) := fun _ _ => rfl
    have close : Blind (setTxlen (frameLen s.cfg p.length)) := fun _ _ => rfl
    start.bind fun _ => (blind_setBytes _).bind fun _ => (blind_setByte _).bind fun _ =>
      (blind_setBytes _).bind fun _ => (blind_setCrc _ _).bind fun _ => close

theorem blind_sendFrame : Blind sendFrame := by
  intro s a
  rw [BlindAt, sendFrame_eq, sendFrame_eq, State.answered_withAside, State.pbRange_withAside, resultWith_ite]
  rfl

theorem blind_recvFrame (len : Nat) : Blind (recvFrame len) := by
  intro s a
  have hpolled : (s.withAside a).polled len = (s.polled len).withAside a := by
    rw [State.polled, State.answered_withAside]
    rfl
  have hnext : (s.withAside a).nextAnswer = s.nextAnswer := rfl
  have htopen : (s.withAside a).topen = s.topen := rfl
  rw [BlindAt, recvFrame_eq, recvFrame_eq, hpolled, hnext, htopen]
  cases s.topen with
  | false => rfl
  | true => cases s.nextAnswer.received len <;> rfl

theorem blind_checkFrame (tr : Byte) (len : Nat) : Blind (checkFrame tr len) := by
  refine .get_bind (fun s a => ?_) fun s => .ite (blind_pure false) ?_
  · simp only [State.crc_withAside]
    rfl
  · have hrewind : Blind rewind := fun _ _ => rfl
    exact hrewind.bind fun _ => (blind_matchBytes _).bind fun _ =>
      .ite (blind_getByte.bind fun _ => .ite (blind_pure _) (blind_pure _)) (blind_pure _)

theorem blind_xack (tc : Byte) (p : List Byte) : Blind (xack tc p) := by
  have tail : Blind (ackTail tc) := .get_bind (fun _ _ => rfl) fun s =>
    (blind_checkFrame _ _).bind fun _ =>
      .ite (blind_getByte.bind fun _ => .ite (blind_pure _) (blind_pure _)) (blind_pure _)
  have await : Blind (awaitAck tc) := .get_bind (fun _ _ => rfl) fun s => (blind_recvFrame _).bind fun r => by
    cases r with
    | ok => exact tail
    | tfail | reject => exact blind_pure _
  refine (blind_encodeFrame tc p).bind fun _ => blind_sendFrame.bind fun r => ?_
  cases r with
  | ok => exact await
  | tfail | reject => exact blind_pure _

/-! ### The sequencer and the scan -/

theorem blind_tOpen (c : BitVec 3) : Blind (tOpen c) := by
  intro s a
  rw [BlindAt, tOpen_run, tOpen_run, State.opened, State.answered_withAside]
  rfl

theorem blind_tClose : Blind tClose := fun _ _ => rfl
theorem blind_setPhase (p : Phase) : Blind (setPhase p) := fun _ _ => rfl
theorem blind_holdTransport : Blind holdTransport := fun _ _ => rfl
theorem blind_setBaudCur (c : BitVec 3) : Blind (setBaudCur c) := fun _ _ => rfl

theorem blind_detectLoop (cs : List (BitVec 3)) : Blind (detectLoop cs) := by
  induction cs with
  | nil => exact blind_pure _
  | cons c cs ih =>
    refine blind_tClose.bind fun _ => (blind_tOpen c).bind fun _ => .ite ?_ (blind_pure _)
    refine blind_holdTransport.bind fun _ => (blind_setBaudCur c).bind fun _ => .get_bind (fun _ _ => rfl) fun s => ?_
    refine (blind_xack _ _).bind fun r => ?_
    cases r with
    | reject => exact ih
    | ok | tfail => exact blind_pure _

theorem blind_detect : Blind detect :=
  .get_bind (fun _ _ => rfl) fun s => (blind_xack _ _).bind fun r => by
    cases r with
    | reject => exact blind_detectLoop _
    | ok | tfail => exact blind_pure _

theorem blind_revert (old : BitVec 3) : Blind (revert old) :=
  (blind_setBaudCur old).bind fun _ => (blind_tOpen old).bind fun _ =>
    .ite (blind_holdTransport.bind fun _ => blind_pure _) (blind_pure _)

theorem blind_verify (old : BitVec 3) : Blind (verify old) :=
  .get_bind (fun _ _ => rfl) fun s => (blind_xack _ _).bind fun r => by
    cases r with
    | ok => exact blind_pure _
    | tfail | reject => exact blind_tClose.bind fun _ => blind_revert old

theorem blind_renegSub : Blind renegSub :=
  .get_bind (fun _ _ => rfl) fun s => .ite (blind_pure _) <| (blind_xack _ _).bind fun r => by
    cases r with
    | tfail | reject => exact blind_pure _
    | ok =>
      exact blind_tClose.bind fun _ => (blind_tOpen _).bind fun _ =>
        .ite (blind_holdTransport.bind fun _ => (blind_setBaudCur _).bind fun _ => blind_verify _) (blind_revert _)

theorem blind_cfgwinSub : Blind cfgwinSub :=
  .get_bind (fun _ _ => rfl) fun _ => .ite ((blind_xack _ _).bind fun _ => blind_pure _) (blind_pure _)

theorem blind_acquire (n : Nat) : Blind (acquire n) :=
  .get_bind (fun _ _ => rfl) fun s => (blind_recvFrame _).bind fun r => by
    have commit (f : Byte) (ws : List Half) : Blind (modify fun s => s.commitScan f ws) := fun _ _ => rfl
    have read : Blind (readScan n) := blind_getByte.bind fun f => (blind_getWords n).bind fun ws =>
      (commit f ws).bind fun _ => blind_pure _
    cases r with
    | ok => exact (blind_checkFrame _ _).bind fun _ => .ite read (blind_pure _)
    | tfail | reject => exact blind_pure _

/-! ### The bodies of the commands -/

theorem blind_stepBody : Blind stepBody :=
  .get_bind (fun _ _ => rfl) fun s => .ite (blind_pure _) <| .ite
    ((blind_encodeFrame _ _).bind fun _ => blind_sendFrame.bind fun r => by
      cases r with
      | ok => exact blind_acquire _
      | tfail | reject => exact blind_pure _)
    (blind_acquire _)

theorem blind_closeBody : Blind closeBody := by
  have release : Blind releaseTransport := .get_bind (fun _ _ => rfl) fun _ => .ite blind_tClose (blind_pure _)
  exact release.bind fun _ => (blind_setPhase _).bind fun _ => blind_pure _

theorem blind_startBody : Blind startBody := by
  have lock : Blind lockRunning := fun _ _ => rfl
  refine .get_bind (fun _ _ => rfl) fun s => .ite (blind_pure _) <| .ite ?_ (blind_pure _)
  refine (blind_xack _ _).bind fun r => ?_
  cases r with
  | ok => exact lock.bind fun _ => blind_pure _
  | tfail | reject => exact blind_pure _

theorem blind_stopBody : Blind stopBody :=
  .get_bind (fun _ _ => rfl) fun s => .ite (blind_pure _) <| (blind_xack _ _).bind fun r => by
    cases r with
    | ok => exact (blind_setPhase _).bind fun _ => blind_pure _
    | tfail | reject => exact blind_pure _

theorem blind_resetBody : Blind resetBody := by
  have send : Blind sendReset := .get_bind (fun _ _ => rfl) fun s => .ite
    ((blind_encodeFrame _ _).bind fun _ => blind_sendFrame.bind fun _ => blind_tClose.bind fun _ => blind_pure _)
    (blind_pure _)
  exact send.bind fun _ => (blind_setPhase _).bind fun _ => blind_pure _

theorem blind_renegBody : Blind renegBody :=
  .get_bind (fun _ _ => rfl) fun _ => .ite (blind_pure _) blind_renegSub

theorem blind_cfgwinBody : Blind cfgwinBody :=
  .get_bind (fun _ _ => rfl) fun _ => .ite (blind_pure _) blind_cfgwinSub

theorem blind_crcRange (b : Half) : Blind (crcRange b) := by
  intro s a
  have hrun (t : State) : (crcRange b).run t = if t.cfg.pbCap < t.cur.toNat + b.toNat then .error .overrun t
      else .ok () { t with crcout := t.crc t.cur.toNat b.toNat } := rfl
  rw [BlindAt, hrun, hrun, State.crc_withAside, resultWith_ite]
  rfl

/-! ### OPEN -/

/-- The contents send the same password from `s`: its length and its bytes (R36, R194). -/
def Aside.SendsAs (a : Aside) (s : State) : Prop := a.pwLen = s.pwLen ∧ (s.withAside a).password = s.password

/-- The password is in those registers. -/
theorem State.password_congr {s t : State} (h : t.aside = s.aside) : t.password = s.password := by
  have hfields : t.pwLen = s.pwLen ∧ t.pw0 = s.pw0 ∧ t.pw1 = s.pw1 := by
    simp only [State.aside, Aside.mk.injEq] at h
    exact h.2.2
  obtain ⟨hlen, h0, h1⟩ := hfields
  have hbyte : t.pwByte = s.pwByte := by
    funext i
    rw [State.pwByte, State.pwByte, h0, h1]
  rw [State.password, State.password, hlen, hbyte]

theorem Aside.SendsAs.congr {a : Aside} {s t : State} (h : a.SendsAs s) (hst : t.aside = s.aside) : a.SendsAs t := by
  refine ⟨h.1.trans (congrArg Aside.pwLen hst).symm, ?_⟩
  rw [State.password_congr hst, ← h.2]
  exact State.password_congr rfl

/-- After a routine that leaves those registers, the same password would be sent. -/
theorem Blind.bind_sends {α β : Type} {m : Micro α} {f : α → Micro β} {s : State} {a : Aside} (hm : Blind m)
    (ha : a.SendsAs s) (hf : ∀ x t, a.SendsAs t → BlindAt (f x) t a) : BlindAt (m >>= f) s a :=
  (hm s a).bind fun x t hrun => hf x t (ha.congr ((hm s s.aside).aside_eq hrun))

theorem BlindAt.get_bind {α : Type} {f : State → Micro α} {s : State} {a : Aside} (hf : f (s.withAside a) = f s)
    (hb : BlindAt (f s) s a) : BlindAt (get >>= f) s a := by
  rw [BlindAt, Micro.get_bind, Micro.get_bind, hf]
  exact hb

/-- `AUTH` reads the length and the bytes it sends, nothing else of the password registers (R194). -/
theorem auth_blindAt {s : State} {a : Aside} (ha : a.SendsAs s) : BlindAt auth s a := by
  have check (pw : List Byte) {t : State} (ht : a.SendsAs t) : BlindAt (checkEcho pw) t a := by
    have hlen : (t.withAside a).pwLen = t.pwLen := ht.1
    refine .get_bind (by rw [hlen]; rfl) ?_
    exact ((blind_checkFrame _ _).bind fun _ =>
      .ite ((blind_matchBytes pw).bind fun _ => .ite (blind_pure _) (blind_pure _)) (blind_pure _)) t a
  have await (pw : List Byte) {t : State} (ht : a.SendsAs t) : BlindAt (awaitEcho pw) t a := by
    have hlen : (t.withAside a).pwLen = t.pwLen := ht.1
    refine .get_bind (by rw [hlen]; rfl) ?_
    refine (blind_recvFrame _).bind_sends ht fun r u hu => ?_
    cases r with
    | ok => exact check pw hu
    | tfail | reject => exact blind_pure _ u a
  refine .get_bind (by rw [ha.2]; rfl) ?_
  refine (blind_encodeFrame _ _).bind_sends ha fun _ t ht => blind_sendFrame.bind_sends ht fun r u hu => ?_
  cases r with
  | ok => exact await _ hu
  | tfail | reject => exact blind_pure _ u a

theorem openSession_blindAt {s : State} {a : Aside} (ha : a.SendsAs s) : BlindAt openSession s a := by
  have rest : Blind (do setPhase .authenticated; orElseDone renegSub cfgwinSub : Micro ErrCode) :=
    (blind_setPhase _).bind fun _ => blind_orElseDone blind_renegSub blind_cfgwinSub
  refine blind_detect.bind_sends ha fun e t ht => ?_
  cases e with
  | noError =>
    refine (blind_setPhase _).bind_sends ht fun _ u hu => (auth_blindAt hu).bind fun e v _ => ?_
    cases e with
    | noError => exact rest v a
    | _ => exact blind_pure _ v a
  | _ => exact blind_pure _ t a

theorem openBody_blindAt {s : State} {a : Aside} (ha : a.SendsAs s) : BlindAt openBody s a := by
  have hlen : (s.withAside a).pwLen = s.pwLen := ha.1
  refine .get_bind (by rw [hlen]; rfl) ?_
  split
  · exact blind_pure _ s a
  split
  · exact blind_pure _ s a
  refine (blind_tOpen _).bind_sends ha fun opened t ht => ?_
  cases opened with
  | false => exact blind_pure _ t a
  | true =>
    exact blind_holdTransport.bind_sends ht fun _ u hu => (blind_setPhase _).bind_sends hu fun _ v hv =>
      openSession_blindAt hv

/-! ### Every command -/

/-- Every command is a body that is blind, `OPEN`'s to all but what it sends. -/
theorem exec_body (i : Instr) : ∃ body : Micro ErrCode, (∀ s, exec i s = runCommand body s) ∧
    ∀ s a, i ≠ .open_ ∨ a.SendsAs s → BlindAt body s a := by
  have blind {body : Micro ErrCode} (hexec : ∀ s, exec i s = runCommand body s) (hb : Blind body) :
      ∃ body : Micro ErrCode, (∀ s, exec i s = runCommand body s) ∧
        ∀ s a, i ≠ .open_ ∨ a.SendsAs s → BlindAt body s a := ⟨body, hexec, fun s a _ => hb s a⟩
  cases i with
  | nop => exact blind (body := pure .noError) (fun _ => rfl) (blind_pure _)
  | open_ => exact ⟨openBody, fun _ => rfl, fun s a ha => openBody_blindAt (ha.resolve_left (not_not.2 rfl))⟩
  | close => exact blind (fun _ => rfl) blind_closeBody
  | start => exact blind (fun _ => rfl) blind_startBody
  | stop => exact blind (fun _ => rfl) blind_stopBody
  | step => exact blind (fun _ => rfl) blind_stepBody
  | reset => exact blind (fun _ => rfl) blind_resetBody
  | reneg => exact blind (fun _ => rfl) blind_renegBody
  | cfgwin => exact blind (fun _ => rfl) blind_cfgwinBody
  | cset v => exact blind (fun _ => rfl) ((blind_setByte v).bind fun _ => blind_pure _)
  | cget =>
    have set (v : Byte) : Blind (setData v) := fun _ _ => rfl
    exact blind (fun _ => rfl) (blind_getByte.bind fun v => (set v).bind fun _ => blind_pure _)
  | ccrc b => exact blind (fun _ => rfl) ((blind_crcRange b).bind fun _ => blind_pure _)

/-- How a command ends, in any block: `done` with some code, or an Overrun, with those registers as they were. -/
theorem exec_ends (i : Instr) (s : State) : ∃ u : State, u.aside = s.aside ∧
    ((∃ e, exec i s = .next (u.done e)) ∨ exec i s = .next u.overrun) := by
  obtain ⟨body, hexec, hb⟩ := exec_body i
  have hblind := hb s s.aside (.inr ⟨rfl, rfl⟩)
  rw [hexec]
  cases hrun : body.run s with
  | ok e u => exact ⟨u, hblind.aside_eq hrun, .inl ⟨e, runCommand_ok hrun⟩⟩
  | error e u => exact ⟨u, hblind.aside_eq_of_error hrun, .inr (runCommand_overrun hrun)⟩

/-- Settles O40: `s'` is `s` with other contents in the password registers, and the body is blind to them. -/
theorem passwordOnlyInOpen : Obligations.PasswordOnlyInOpen := by
  intro i s s' hs hi
  obtain ⟨body, hexec, hb⟩ := exec_body i
  obtain ⟨a, ha⟩ : ∃ a : Aside, a = { s.aside with pw0 := s'.pw0, pw1 := s'.pw1 } := ⟨_, rfl⟩
  have hs' : s' = s.withAside a := by rw [hs, ha]; rfl
  have hsends : i ≠ .open_ ∨ a.SendsAs s := hi.imp_right fun hp => ⟨by rw [ha]; rfl, by rw [← hs', hp]⟩
  have hrun' := hb s a hsends
  have hkeep := hb s s.aside (.inr ⟨rfl, rfl⟩)
  rw [BlindAt, ← hs'] at hrun'
  have same {u : State} (hu : u.aside = s.aside) :
      u.withAside a = { u with pw0 := s'.pw0, pw1 := s'.pw1 } := by
    rw [ha, ← hu]
    rfl
  rw [hexec, hexec]
  cases hrun : body.run s with
  | ok e u =>
    rw [hrun] at hrun'
    refine ⟨_, runCommand_ok hrun, ?_⟩
    rw [runCommand_ok hrun', same (hkeep.aside_eq hrun)]
    rfl
  | error e u =>
    rw [hrun] at hrun'
    refine ⟨_, runCommand_overrun hrun, ?_⟩
    rw [runCommand_overrun hrun', same (hkeep.aside_eq_of_error hrun)]
    rfl

end Sys2Proof.Machine
end

section
/-! The sticky error bits (R28), for every block: set by the code written, kept by all else but `HRESET`. -/

namespace Sys2Proof.Machine

/-- The bit of `ESTICKY` that belongs to each code, by number (R27, R28). -/
def stickyBits : List (ErrCode × Nat) :=
  [(.transport, 1), (.protocol, 2), (.authentication, 3), (.configuration, 4), (.precondition, 5)]

/-- The mask of a code has the bit of that code and no other. -/
theorem ErrCode.stickyMask_getLsbD (e : ErrCode) (k : Nat) : e.stickyMask.getLsbD k = true ↔ (e, k) ∈ stickyBits := by
  unfold stickyBits
  have bit {n : Nat} (hn : n < 6) (hmask : e.stickyMask = BitVec.twoPow 6 n) : e.stickyMask.getLsbD k = true ↔ k = n := by
    rw [hmask, BitVec.getLsbD_twoPow]
    simp only [hn, decide_true, Bool.true_and, decide_eq_true_eq]
    exact eq_comm
  cases e with
  | noError => simp [ErrCode.stickyMask]
  | transport => simpa using bit (n := 1) (by decide) rfl
  | protocol => simpa using bit (n := 2) (by decide) rfl
  | authentication => simpa using bit (n := 3) (by decide) rfl
  | configuration => simpa using bit (n := 4) (by decide) rfl
  | precondition => simpa using bit (n := 5) (by decide) rfl

/-- What `done` sets. -/
theorem State.done_sticky_iff {s u : State} (h : u.esticky = s.esticky) (e : ErrCode) (k : Nat) :
    (u.done e).esticky.getLsbD k = true ↔ s.esticky.getLsbD k = true ∨
      ((u.done e).err, k) ∈ stickyBits := by
  rw [State.done_esticky, State.done_err, BitVec.getLsbD_or, Bool.or_eq_true, e.stickyMask_getLsbD, h]

/-- An Overrun is a `done` with code 5 (R163). -/
theorem exec_sticky {i : Instr} {s t : State} (hexec : exec i s = .next t) (k : Nat) :
    t.esticky.getLsbD k = true ↔ s.esticky.getLsbD k = true ∨ (t.err, k) ∈ stickyBits := by
  obtain ⟨u, hkept, ⟨e, hend⟩ | hend⟩ := exec_ends i s
  · obtain rfl := Host.Outcome.next.inj (hexec.symm.trans hend)
    exact State.done_sticky_iff (congrArg Aside.esticky hkept) e k
  · obtain rfl := Host.Outcome.next.inj (hexec.symm.trans hend)
    exact State.done_sticky_iff (u := { u with ovr := true }) (congrArg Aside.esticky hkept) .precondition k

/-- An access that writes neither `ERR` nor `ESTICKY`, or writes code 5 and sets its bit alone (R28). -/
def State.KeptOrFaulted (s t : State) : Prop :=
  (t.err = s.err ∧ t.esticky = s.esticky) ∨
    (t.err = .precondition ∧ ∀ k, t.esticky.getLsbD k = true ↔ s.esticky.getLsbD k = true ∨ k = 5)

theorem State.keptOrFaulted_done (s : State) : s.KeptOrFaulted (s.done .precondition) := by
  refine .inr ⟨rfl, fun k => ?_⟩
  rw [State.done_sticky_iff rfl]
  simp [stickyBits]

theorem regRead_keptOrFaulted (n : BitVec 8) (s : State) : s.KeptOrFaulted (regRead n s).2 := by
  rcases regRead_state n s with h | h
  · rw [h]
    exact .inl ⟨rfl, rfl⟩
  · rw [h]
    exact s.keptOrFaulted_done

theorem regWrite_keptOrFaulted (n : BitVec 8) (v : Word) (s : State) : s.KeptOrFaulted (regWrite n v s) := by
  rcases regWrite_cases n v s with h | h
  · rw [h]
    exact s.keptOrFaulted_done
  · rw [h]
    exact .inl ⟨rfl, rfl⟩

/-- `ESTICKY` as read: bits 5 to 1 of the register, zeros elsewhere. -/
theorem State.estickyWord_getLsbD (s : State) (k : Nat) :
    s.estickyWord.getLsbD k = (decide (1 ≤ k ∧ k ≤ 5) && s.esticky.getLsbD k) := by
  rw [State.estickyWord, BitVec.getLsbD_setWidth, BitVec.getLsbD_and]
  by_cases hk : k < 6
  · have hmask : (0b111110 : BitVec 6).getLsbD k = decide (1 ≤ k ∧ k ≤ 5) := by
      interval_cases k <;> rfl
    rw [hmask, Bool.and_comm]
    simp only [show k < 32 by omega, decide_true, Bool.true_and, Bool.and_comm]
  · rw [BitVec.getLsbD_of_ge _ k (by omega)]
    simp

/-- Settles O13: a command by the code it ends with, any other access by what it may do to the two registers. -/
theorem stickyErrors : Obligations.StickyErrors := by
  refine ⟨fun s t w q hq hstep => ?_, fun s t hcmd hreset hstep => ?_, fun s t q hq hstep => ?_, fun s q hq => ?_⟩
  · -- a command, legal or not
    cases hd : decode w with
    | ok i => exact exec_sticky (s := { s with hostq := q }) ((step_command hq hd).symm.trans hstep)
    | error r =>
      obtain rfl := Host.Outcome.next.inj (hstep.symm.trans (step_illegal hq hd))
      exact State.done_sticky_iff rfl _
  · -- a register access
    cases hq : s.hostq with
    | nil =>
      obtain rfl := Host.Outcome.next.inj (hstep.symm.trans (step_idle hq))
      exact .inl ⟨rfl, rfl⟩
    | cons op q =>
      cases op with
      | hreset => exact absurd hq (hreset q)
      | regRead n =>
        obtain rfl := Host.Outcome.next.inj (hstep.symm.trans (step_regRead hq))
        exact regRead_keptOrFaulted n { s with hostq := q }
      | regWrite n v =>
        have hn : n ≠ 0 := by
          rintro rfl
          exact hcmd v q hq
        obtain rfl := Host.Outcome.next.inj (hstep.symm.trans (step_regWrite hq hn))
        exact regWrite_keptOrFaulted n v { s with hostq := q }
  · -- `HRESET`
    obtain rfl := Host.Outcome.next.inj (hstep.symm.trans (step_hreset hq))
    rfl
  · -- a read of `ESTICKY`
    refine ⟨s.estickyWord, step_regRead hq, fun k h1 h5 => ?_, ?_, fun k h6 => ?_⟩
    · rw [s.estickyWord_getLsbD]
      simp [h1, h5]
    · rw [s.estickyWord_getLsbD]
      simp
    · rw [s.estickyWord_getLsbD]
      simp [show ¬ k ≤ 5 by omega]

end Sys2Proof.Machine
end

section
/-! `STEP` in Running (R240): its code, its transport calls and the part of the buffer it leaves, read off what the
environment answers. -/

namespace Sys2Proof.Machine

/-! ### What `STEP` comes to -/

/-- An answer to the receive of a `STEP` that carries a whole sealed scan frame of `n` samples (R109, R173). -/
def Answer.IsScan (c : Cfg) (n : Nat) (a : Answer) : Prop :=
  ∃ bs f ws, a = .ok bs ∧ ws.length = n ∧ bs.take (c.hdrLen + 3 + 2 * n) = rxFrame c c.trScan (scanPayload f ws)

/-- The code a `STEP` ends with when its receive is answered by `a`, `asked` being whether that receive is made: the
transport is held and the poll, if there is one, was sent (R82, R240, R243). -/
inductive ScanEnds (asked : Prop) (c : Cfg) (n : Nat) (a : Answer) : ErrCode → Prop where
  | transport (h : ¬ asked ∨ a = .fail) : ScanEnds asked c n a .transport
  | accepted (h : asked) (hscan : Answer.IsScan c n a) : ScanEnds asked c n a .noError
  | rejected (h : asked) (hok : a ≠ .fail) (hscan : ¬ Answer.IsScan c n a) : ScanEnds asked c n a .protocol

theorem Answer.IsScan.ne_fail {c : Cfg} {n : Nat} {a : Answer} (h : Answer.IsScan c n a) : a ≠ .fail := by
  obtain ⟨bs, f, ws, rfl, -⟩ := h
  simp

section

variable {asked : Prop} {c : Cfg} {n : Nat} {a : Answer} {e : ErrCode}

theorem ScanEnds.mem_errsOf (h : ScanEnds asked c n a e) : e ∈ errsOf .step := by
  cases h <;> simp [errsOf]

theorem ScanEnds.transport_iff (h : ScanEnds asked c n a e) : e = .transport ↔ ¬ asked ∨ a = .fail := by
  cases h with
  | transport h => simp [h]
  | accepted h hscan => simp [h, hscan.ne_fail]
  | rejected h hok => simp [h, hok]

theorem ScanEnds.noError_iff (h : ScanEnds asked c n a e) : e = .noError ↔ asked ∧ Answer.IsScan c n a := by
  cases h with
  | transport h =>
    have : ¬ (asked ∧ Answer.IsScan c n a) := fun ⟨hasked, hscan⟩ => h.elim (· hasked) hscan.ne_fail
    simp [this]
  | accepted h hscan => simp [h, hscan]
  | rejected h hok hscan => simp [hscan]

end

/-! ### The receive -/

/-- The receiving half of `STEP`, whatever the environment answers: one receive if the transport is held, the code it
comes to, no store at or above the scan frame's length (R82, R167, R240). -/
theorem acquire_ends {u : State} (n : Nat) (hw : u.cfg.wf = true) (hcap : u.cfg.hdrLen + 3 + 2 * n ≤ u.cfg.pbCap) :
    ∃ e t, (acquire n).run u = .ok e t ∧ ScanEnds (u.topen = true) u.cfg n u.nextAnswer e ∧
      t.trace = u.trace ++ (if u.topen then [.tRecv (u.cfg.hdrLen + 3 + 2 * n) u.cfg.rxTimeout
        (u.nextAnswer.received (u.cfg.hdrLen + 3 + 2 * n))] else []) ∧
      ∀ a, u.cfg.hdrLen + 3 + 2 * n ≤ a → t.pbRead a = u.pbRead a := by
  cases ht : u.topen with
  | false => exact ⟨_, _, acquire_released n ht, .transport (.inl (by simp)), by simp, fun _ _ => rfl⟩
  | true =>
    have htrace : (u.polled (u.cfg.hdrLen + 3 + 2 * n)).trace = u.trace ++ [.tRecv (u.cfg.hdrLen + 3 + 2 * n)
        u.cfg.rxTimeout (u.nextAnswer.received (u.cfg.hdrLen + 3 + 2 * n))] := by simp [State.polled]
    cases ha : u.nextAnswer with
    | fail =>
      rw [ha] at htrace
      exact ⟨_, _, acquire_fail n ht ha, .transport (.inr rfl), htrace, fun _ _ => by simp [State.polled, State.pbRead]⟩
    | ok bs =>
      rw [ha] at htrace
      have above (c : Half) (a : Nat) (hle : u.cfg.hdrLen + 3 + 2 * n ≤ a) :
          (u.gotAt (u.cfg.hdrLen + 3 + 2 * n) bs c).pbRead a = u.pbRead a :=
        State.pbRead_writeList_out (a := 0) (bs := bs.take (u.cfg.hdrLen + 3 + 2 * n))
          (by simp [State.gotAt, State.store, State.polled]) (by simp [State.gotAt, State.polled, State.withCur])
          (.inr (by rw [List.length_take]; omega))
      rcases acquire_received n hw hcap ht ha with ⟨f, ws, hn, hbs, hrun⟩ | ⟨hno, hrun⟩
      · exact ⟨_, _, hrun, .accepted rfl ⟨bs, f, ws, rfl, hn, hbs⟩, htrace, above (BitVec.ofNat 16 (u.cfg.hdrLen + 2 + 2 * n))⟩
      · refine ⟨_, _, hrun, .rejected rfl (by simp) ?_, htrace, above _⟩
        rintro ⟨_, f, ws, heq, hn, hbs⟩
        cases heq
        exact hno ⟨f, ws, hn, hbs⟩

/-! ### The whole command -/

/-- Whether a `STEP` started in `s` makes its receive: the transport is held and no poll fails (R82, R240). -/
def State.AsksScan (s : State) : Prop := s.topen = true ∧ (s.cfg.polling = true → s.nextAnswer ≠ .fail)

theorem State.not_asksScan (s : State) :
    ¬ s.AsksScan ↔ s.topen = false ∨ (s.cfg.polling = true ∧ s.nextAnswer = .fail) := by
  rw [State.AsksScan, not_and_or, Bool.not_eq_true, Classical.not_imp, not_not]

/-- The answer that receive takes: the one after the poll's, if there is a poll. -/
def State.scanAnswer (s : State) : Answer := if s.cfg.polling then s.answered.nextAnswer else s.nextAnswer

theorem frameLen_zero_le_scanLen (s : State) : frameLen s.cfg 0 ≤ s.scanLen := by
  simp only [frameLen, State.scanLen]
  omega

theorem Answer.isOk_iff (a : Answer) : a.isOk = true ↔ a ≠ .fail := by
  cases a <;> simp [Answer.isOk]

/-- `STEP` in Running, polled for or not (R240). -/
theorem stepBody_running {s : State} (hw : s.cfg.wf = true) (hp : s.phase = .running) :
    ∃ e t, stepBody.run s = .ok e t ∧ ScanEnds s.AsksScan s.cfg s.dcount s.scanAnswer e ∧
      t.trace = s.trace ++ s.stepCalls ∧ ∀ a, s.scanLen ≤ a → t.pbRead a = s.pbRead a := by
  rw [stepBody, Micro.get_bind, if_neg (by simp [hp])]
  cases hpoll : s.cfg.polling with
  | false =>
    obtain ⟨e, t, hrun, hends, htrace, habove⟩ := acquire_ends s.dcount hw (s.scanLen_le hw)
    refine ⟨e, t, hrun, ?_, ?_, habove⟩
    · simpa [State.AsksScan, State.scanAnswer, hpoll] using hends
    · rw [htrace]
      simp [State.stepCalls, State.pollAnswered, State.scanLen, hpoll]
  | true =>
    have hcap := frameLen_zero_le hw
    rw [if_pos rfl, Micro.bind_ok (encodeFrame_ok (p := []) _ hw hcap)]
    cases ht : s.topen with
    | false =>
      rw [Micro.bind_ok (encode_send_released _ ht)]
      refine ⟨_, _, rfl, .transport (.inl (by simp [State.AsksScan, ht])), ?_, fun a ha => ?_⟩
      · simp [State.stepCalls, ht, State.encoded]
      · exact (Exchanged.encoded (p := []) _ hw hcap).pb_above a ((frameLen_zero_le_scanLen s).trans ha)
    | true =>
      obtain ⟨hx, htr⟩ := Exchanged.sent s.cfg.tcPoll (p := []) hw hcap ht
      have hsent (a : Nat) (ha : s.scanLen ≤ a) := hx.pb_above a ((frameLen_zero_le_scanLen s).trans ha)
      rw [Micro.bind_ok (encode_send (p := []) _ hw hcap ht)]
      cases hok : s.nextAnswer.isOk with
      | false =>
        have hfail : s.nextAnswer = .fail := by simpa [hok] using Answer.isOk_iff s.nextAnswer
        refine ⟨_, _, rfl, .transport (.inl (by simp [State.AsksScan, hpoll, hfail])), ?_, hsent⟩
        simp [htr, State.stepCalls, ht, hpoll, hok]
      | true =>
        have hcfg : (s.sent s.cfg.tcPoll []).cfg = s.cfg := by rw [hx.same]
        have htop : (s.sent s.cfg.tcPoll []).topen = true := by rw [hx.same]; exact ht
        obtain ⟨e, t, hrun, hends, htrace, habove⟩ := acquire_ends (u := s.sent s.cfg.tcPoll []) s.dcount
          (by rw [hcfg]; exact hw) (by rw [hcfg]; exact s.scanLen_le hw)
        rw [hcfg, State.sent_nextAnswer] at hends
        rw [hcfg, htop, htr, State.sent_nextAnswer] at htrace
        rw [hcfg] at habove
        refine ⟨e, t, hrun, ?_, ?_, fun a ha => (habove a ha).trans (hsent a ha)⟩
        · have hasked : s.AsksScan := ⟨ht, fun _ => (Answer.isOk_iff _).1 hok⟩
          simpa [State.scanAnswer, hpoll, htop, hasked] using hends
        · rw [htrace]
          simp [State.stepCalls, State.pollAnswered, State.scanLen, ht, hpoll, hok]

/-- Settles O60: the code of `stepBody_running`, clause by clause. -/
theorem stepAcceptsExactly : Obligations.StepAcceptsExactly := by
  rintro s _ hw hp rfl
  obtain ⟨e, t, hrun, hends, htrace, -⟩ := stepBody_running hw hp
  refine ⟨t.done e, runCommand_ok hrun, htrace, ?_, ?_, ?_⟩
  · rw [State.done_err, hends.transport_iff, s.not_asksScan]
    exact or_assoc
  · rw [State.done_err, hends.noError_iff]
    exact and_assoc
  · cases hends <;> simp

end Sys2Proof.Machine
end

section
/-! What bounds each command: the transport calls it adds, the buffer bytes it can reach, the codes it ends with. -/

namespace Sys2Proof.Machine

/-! ### Calls and bytes -/

/-- A run from `s` to `t` adds at most `n` transport calls and stores below `bound` only. -/
structure Within (n bound : Nat) (s t : State) : Prop where
  pb_above : ∀ a, bound ≤ a → t.pbRead a = s.pbRead a
  calls : ∃ cs, t.trace = s.trace ++ cs ∧ cs.length ≤ n

theorem Within.refl (n b : Nat) (s : State) : Within n b s s := ⟨fun _ _ => rfl, [], by simp⟩

theorem Within.trans {n m b : Nat} {s t u : State} (h : Within n b s t) (k : Within m b t u) :
    Within (n + m) b s u := by
  obtain ⟨cs, hcs, hn⟩ := h.calls
  obtain ⟨ds, hds, hm⟩ := k.calls
  refine ⟨fun a ha => (k.pb_above a ha).trans (h.pb_above a ha), cs ++ ds, ?_, ?_⟩
  · rw [hds, hcs, List.append_assoc]
  · rw [List.length_append]
    omega

theorem Within.mono {n m b c : Nat} {s t : State} (h : Within n b s t) (hn : n ≤ m) (hb : b ≤ c) : Within m c s t :=
  let ⟨cs, hcs, hlen⟩ := h.calls
  ⟨fun a ha => h.pb_above a (hb.trans ha), cs, hcs, hlen.trans hn⟩

theorem Session.within {n b : Nat} {s t : State} (h : Session n b s t) : Within n b s t :=
  let ⟨cs, hcs, hlen, _⟩ := h.calls
  ⟨h.pb_above, cs, hcs, hlen⟩

theorem Exchanged.within {b : Nat} {s t : State} (h : Exchanged b s t) : Within 2 b s t :=
  (Session.of_exchanged h).within

/-- A `T_OPEN`, whatever its outcome and whether or not R82 allows it. -/
theorem opened_within (s : State) (c : BitVec 3) : Within 1 0 s (s.opened c) :=
  ⟨fun _ _ => by simp [State.opened, State.pbRead], [_], by simp [State.opened]; rfl, le_rfl⟩

/-- An exchange whose frame is no longer than the ACK frame (R106, R171). -/
theorem xack_within {s : State} (tc : Byte) {p : List Byte} (hw : s.cfg.wf = true) (hp : p.length ≤ 1) :
    ∃ r t, (xack tc p).run s = .ok r t ∧ Within 2 (frameLen s.cfg 1) s t ∧ t.cfg = s.cfg ∧ t.topen = s.topen ∧
      (r ≠ .tfail → s.topen = true) := by
  have hlen : frameLen s.cfg p.length ≤ frameLen s.cfg 1 := by
    simp only [frameLen]
    omega
  obtain ⟨r, t, hrun, hx, hr⟩ := xack_exchanged tc hw (hlen.trans (frameLen_ack_le hw))
  exact ⟨r, t, hrun, hx.within.mono le_rfl (max_le hlen le_rfl), by rw [hx.same], by rw [hx.same], hr⟩

/-! ### A renegotiation: two calls more when it reverts -/

/-- A run that ends with `e` after at most `n` calls on success, and after two more, the close and the reopening of a
revert, on failure (R198). -/
structure RevertsWithin (n bound : Nat) (s : State) (e : ErrCode) (t : State) : Prop where
  always : Within (n + 2) bound s t
  success : e = .noError → Within n bound s t

theorem Within.reverts {n b : Nat} {s t : State} (h : Within n b s t) (e : ErrCode) : RevertsWithin n b s e t :=
  ⟨h.mono (Nat.le_add_right n 2) le_rfl, fun _ => h⟩

theorem RevertsWithin.mono {n m b : Nat} {s t : State} {e : ErrCode} (h : RevertsWithin n b s e t) (hn : n ≤ m) :
    RevertsWithin m b s e t :=
  ⟨h.always.mono (by omega) le_rfl, fun he => (h.success he).mono hn le_rfl⟩

theorem RevertsWithin.after {n m b : Nat} {s t u : State} {e : ErrCode} (k : RevertsWithin m b t e u)
    (h : Within n b s t) : RevertsWithin (n + m) b s e u :=
  ⟨h.trans k.always, fun he => h.trans (k.success he)⟩

/-- Verification at the new rate: one exchange, and a revert unless it succeeds (R198). -/
theorem verify_within {s : State} (old : BitVec 3) (hw : s.cfg.wf = true) (ht : s.topen = true) :
    ∃ e t, (verify old).run s = .ok e t ∧ RevertsWithin 2 (frameLen s.cfg 1) s e t := by
  obtain ⟨r, u, hrun, hx, -, htop, -⟩ := xack_within (s := s) s.cfg.tcProbe (p := []) hw (by simp)
  have reverts : ∃ e t, (do tClose; revert old : Micro ErrCode).run u = .ok e t ∧
      RevertsWithin 2 (frameLen s.cfg 1) s e t := by
    obtain ⟨v, hclose, hv, hvt, -⟩ := tClose_session (htop.trans ht)
    obtain ⟨e, t, hrev, hk, -, -, he⟩ := revert_session old hvt
    have hfail : e ≠ .noError := by
      rcases he with ⟨rfl, -⟩ | ⟨rfl, -⟩ <;> simp
    exact ⟨e, t, by rw [Micro.bind_ok hclose, hrev],
      hx.trans ((hv.trans hk).within.mono le_rfl (Nat.zero_le _)), fun h => absurd h hfail⟩
  rw [verify, Micro.get_bind, Micro.bind_ok hrun]
  cases r with
  | ok => exact ⟨_, _, rfl, hx.reverts _⟩
  | tfail => exact reverts
  | reject => exact reverts

/-- The move to the new rate; one that cannot reopen there reverts at once (R198). -/
theorem reconfigure_within {s : State} (old new : BitVec 3) (hw : s.cfg.wf = true) (ht : s.topen = true) :
    ∃ e t, (reconfigure old new).run s = .ok e t ∧ RevertsWithin 4 (frameLen s.cfg 1) s e t := by
  obtain ⟨u, hclose, hu, hut, -⟩ := tClose_session ht
  have hmoved : Within 2 (frameLen s.cfg 1) s (u.opened new) :=
    (hu.within.trans (opened_within u new)).mono le_rfl (Nat.zero_le _)
  rw [reconfigure, Micro.bind_ok hclose, Micro.bind_ok (tOpen_run new u)]
  cases u.nextAnswer.isOk with
  | false =>
    obtain ⟨e, t, hrev, hk, -⟩ := revert_session (s := u.opened new) old (by rw [State.opened_topen, hut])
    exact ⟨e, t, hrev, ((hmoved.trans (hk.within.mono le_rfl (Nat.zero_le _))).reverts e).mono (by omega)⟩
  | true =>
    obtain ⟨v, hv⟩ : ∃ v, v = { u.opened new with topen := true, baudCur := new } := ⟨_, rfl⟩
    have hcfg : v.cfg = s.cfg := by rw [hv, ← hu.cfg_eq]; exact State.opened_cfg u new
    have hheld : Within 2 (frameLen s.cfg 1) s v := by rw [hv]; exact ⟨hmoved.pb_above, hmoved.calls⟩
    obtain ⟨e, t, hrun, hk⟩ := verify_within (s := v) old (by rw [hcfg]; exact hw) (by rw [hv])
    rw [hcfg] at hk
    refine ⟨e, t, ?_, hk.after hheld⟩
    rw [← hrun, hv]
    rfl

/-- `RENEG_SUB` makes at most six calls when it succeeds and eight when it reverts, and exchanges no frame longer than
an ACK (R198, R320). -/
theorem renegSub_within {s : State} (hw : s.cfg.wf = true) :
    ∃ e t, renegSub.run s = .ok e t ∧ RevertsWithin 6 (frameLen s.cfg 1) s e t := by
  rw [renegSub, Micro.get_bind]
  by_cases hd : s.baudDes = s.baudCur
  · rw [if_pos hd]
    exact ⟨_, _, rfl, (Within.refl _ _ s).reverts _⟩
  obtain ⟨r, u, hrun, hx, hcfg, htop, hr⟩ := xack_within (s := s) s.cfg.tcBaud (p := baudPayload s.baudDes) hw le_rfl
  have hfirst (e : ErrCode) : RevertsWithin 6 (frameLen s.cfg 1) s e u := (hx.reverts e).mono (by omega)
  rw [if_neg hd, Micro.bind_ok hrun]
  cases r with
  | tfail => exact ⟨_, _, rfl, hfirst _⟩
  | reject => exact ⟨_, _, rfl, hfirst _⟩
  | ok =>
    obtain ⟨e, t, hrun', hk⟩ := reconfigure_within (s := u) s.baudCur s.baudDes (by rw [hcfg]; exact hw)
      (htop.trans (hr (by simp)))
    rw [hcfg] at hk
    exact ⟨e, t, hrun', hk.after hx⟩

/-- The same with the codes of its row (R273). -/
theorem renegSub_ends {s : State} (hw : s.cfg.wf = true) :
    ∃ e t, renegSub.run s = .ok e t ∧ RevertsWithin 6 (frameLen s.cfg 1) s e t ∧ t.cfg = s.cfg ∧ e ∈ errsOf .reneg := by
  obtain ⟨e, t, hrun, hk⟩ := renegSub_within hw
  obtain ⟨_, _, hrun', hs, -, hcodes⟩ := renegSub_session hw
  cases hrun.symm.trans hrun'
  refine ⟨e, t, hrun, hk, hs.cfg_eq, ?_⟩
  rcases hcodes with ⟨rfl, -⟩ | ⟨-, rfl | ⟨rfl | rfl, -⟩⟩ <;> simp [errsOf]

/-! ### The session of OPEN -/

/-- A sub-sequence that ends the command, or goes on where it succeeded; `s₀` is where the counting began. -/
theorem orElseDone_within {m rest : Micro ErrCode} {n b : Nat} {s₀ s t : State} {e : ErrCode}
    (hrun : m.run s = .ok e t) (hstop : Within n b s₀ t)
    (hgo : e = .noError → ∃ e' u, rest.run t = .ok e' u ∧ Within n b s₀ u) :
    ∃ e' u, (orElseDone m rest).run s = .ok e' u ∧ Within n b s₀ u := by
  by_cases he : e = .noError
  · obtain ⟨e', u, hrest, hk⟩ := hgo he
    exact ⟨e', u, by rw [orElseDone_ok (he ▸ hrun), hrest], hk⟩
  · exact ⟨e, t, orElseDone_err hrun he, hstop⟩

/-- `RENEG_SUB` and, if it succeeds, `CFGWIN_SUB`: a revert and a window exchange exclude each other (R191). -/
theorem renegThenCfgwin_within {s : State} (hw : s.cfg.wf = true) :
    ∃ e t, (orElseDone renegSub cfgwinSub).run s = .ok e t ∧ Within 8 (frameLen s.cfg 8) s t := by
  have hack : frameLen s.cfg 1 ≤ frameLen s.cfg 8 := by simp [frameLen]
  obtain ⟨e, t, hrun, hk, hcfg, -⟩ := renegSub_ends hw
  refine orElseDone_within hrun (hk.always.mono le_rfl hack) fun he => ?_
  obtain ⟨e', u, hcfgwin, hu, -⟩ := cfgwinSub_session (s := t) (by rw [hcfg]; exact hw)
  rw [hcfg] at hu
  exact ⟨e', u, hcfgwin, ((hk.success he).mono le_rfl hack).trans hu.within⟩

/-- Detection, authentication, then renegotiation and window: thirty, two and eight calls (R191, R320). -/
theorem openSession_within {s : State} (hw : s.cfg.wf = true) (ht : s.topen = true) (hpw : s.pwLen.toNat ≤ 8) :
    ∃ e t, openSession.run s = .ok e t ∧ Within 40 (frameLen s.cfg 8) s t := by
  obtain ⟨e1, s1, hdetect, k1, -⟩ := detect_session hw ht
  refine orElseDone_within hdetect (k1.within.mono (by omega) le_rfl) fun _ => ?_
  obtain ⟨u1, hphase1, m1, -⟩ := k1.setPhase_run .negotiating
  obtain ⟨e2, s2, hauth, k2, -⟩ := auth_session (s := u1) (by rw [m1.cfg_eq]; exact hw) (by rw [m1.same]; exact hpw)
  rw [m1.cfg_eq] at k2
  have k12 := m1.trans k2
  rw [Micro.bind_ok hphase1]
  refine orElseDone_within hauth (k12.within.mono (by omega) le_rfl) fun _ => ?_
  obtain ⟨u2, hphase2, m2, -⟩ := k12.setPhase_run .authenticated
  obtain ⟨e3, s3, hlast, k3⟩ := renegThenCfgwin_within (s := u2) (by rw [m2.cfg_eq]; exact hw)
  rw [m2.cfg_eq] at k3
  rw [Micro.bind_ok hphase2]
  exact ⟨e3, s3, hlast, m2.within.trans k3⟩

/-! ### The commands -/

/-- A sequencer command that ends with code `e` in `t` keeps its bounds (R106 to R109, R273, R320). -/
structure Bounded (i : Instr) (s : State) (e : ErrCode) (t : State) : Prop where
  code : e ∈ errsOf i
  within : Within (callBound i) (storeBound i s) s t

theorem Bounded.refused {i : Instr} {s : State} {e : ErrCode} (he : e ∈ errsOf i) : Bounded i s e s :=
  ⟨he, Within.refl _ _ s⟩

theorem openBody_bounded {s : State} (hw : s.cfg.wf = true) :
    ∃ e t, openBody.run s = .ok e t ∧ Bounded .open_ s e t := by
  have hcode (e : ErrCode) : e ∈ errsOf .open_ := by cases e <;> simp [errsOf]
  rw [openBody, Micro.get_bind]
  by_cases hp : s.phase ≠ .closed
  · rw [if_pos hp]
    exact ⟨_, _, rfl, .refused (hcode _)⟩
  rw [if_neg hp]
  by_cases hpw : s.pwLen.toNat ≠ s.cfg.pwLenReq
  · rw [if_pos hpw]
    exact ⟨_, _, rfl, .refused (hcode _)⟩
  rw [if_neg hpw, Micro.bind_ok (tOpen_run s.baudCur s)]
  have hopened := opened_within s s.baudCur
  cases s.nextAnswer.isOk with
  | false => exact ⟨_, _, rfl, hcode _, hopened.mono (by simp [callBound]) (Nat.zero_le _)⟩
  | true =>
    obtain ⟨u, hu⟩ : ∃ u, u = { s.opened s.baudCur with topen := true, phase := .opening } := ⟨_, rfl⟩
    have hcfg : u.cfg = s.cfg := by rw [hu]; exact State.opened_cfg s s.baudCur
    have hlen : u.pwLen = s.pwLen := by rw [hu, State.opened_same]
    have hpw8 : u.pwLen.toNat ≤ 8 := by
      obtain ⟨-, -, -, -, -, hreq⟩ := Cfg.wf_facts hw
      rw [hlen]
      omega
    have hbegun : Within 1 (frameLen s.cfg 8) s u := by
      have := hopened.mono le_rfl (Nat.zero_le (frameLen s.cfg 8))
      rw [hu]
      exact ⟨this.pb_above, this.calls⟩
    obtain ⟨e, t, hrun, hk⟩ := openSession_within (s := u) (by rw [hcfg]; exact hw) (by rw [hu]) hpw8
    rw [hcfg] at hk
    refine ⟨e, t, ?_, hcode e, hbegun.trans hk⟩
    rw [← hrun, hu]
    rfl

theorem closeBody_bounded (s : State) : ∃ e t, closeBody.run s = .ok e t ∧ Bounded .close s e t := by
  refine ⟨_, _, closeBody_run s, by simp [errsOf], fun _ _ => rfl, if s.topen then [.tClose] else [], ?_, ?_⟩
  · cases s.topen <;> simp
  · cases s.topen <;> simp [callBound]

theorem startBody_bounded {s : State} (hw : s.cfg.wf = true) :
    ∃ e t, startBody.run s = .ok e t ∧ Bounded .start s e t := by
  rw [startBody, Micro.get_bind]
  by_cases hp : s.phase ≠ .authenticated ∧ s.phase ≠ .stopped
  · rw [if_pos hp]
    exact ⟨_, _, rfl, .refused (by simp [errsOf])⟩
  rw [if_neg hp]
  cases s.winValid with
  | false => exact ⟨_, _, rfl, .refused (by simp [errsOf])⟩
  | true =>
    obtain ⟨r, u, hrun, hx, -⟩ := xack_within s.cfg.tcStart (p := []) hw (by simp)
    rw [if_pos rfl, Micro.bind_ok hrun]
    cases r with
    | ok => exact ⟨_, _, rfl, by simp [errsOf], hx.pb_above, hx.calls⟩
    | tfail => exact ⟨_, _, rfl, by simp [errsOf, Reply.toErr], hx⟩
    | reject => exact ⟨_, _, rfl, by simp [errsOf, Reply.toErr], hx⟩

theorem stopBody_bounded {s : State} (hw : s.cfg.wf = true) :
    ∃ e t, stopBody.run s = .ok e t ∧ Bounded .stop s e t := by
  rw [stopBody, Micro.get_bind]
  by_cases hp : s.phase ≠ .running
  · rw [if_pos hp]
    exact ⟨_, _, rfl, .refused (by simp [errsOf])⟩
  obtain ⟨r, u, hrun, hx, -⟩ := xack_within s.cfg.tcStop (p := []) hw (by simp)
  rw [if_neg hp, Micro.bind_ok hrun]
  cases r with
  | ok => exact ⟨_, _, rfl, by simp [errsOf], hx.pb_above, hx.calls⟩
  | tfail => exact ⟨_, _, rfl, by simp [errsOf, Reply.toErr], hx⟩
  | reject => exact ⟨_, _, rfl, by simp [errsOf, Reply.toErr], hx⟩

theorem State.stepCalls_length (s : State) : s.stepCalls.length ≤ 2 := by
  rw [State.stepCalls]
  split
  · rw [List.length_append]
    refine Nat.add_le_add (b := 1) (d := 1) ?_ ?_ <;> split <;> simp
  · simp

theorem stepBody_bounded {s : State} (hw : s.cfg.wf = true) :
    ∃ e t, stepBody.run s = .ok e t ∧ Bounded .step s e t := by
  by_cases hp : s.phase = .running
  · obtain ⟨e, t, hrun, hends, htrace, habove⟩ := stepBody_running hw hp
    exact ⟨e, t, hrun, hends.mem_errsOf, habove, s.stepCalls, htrace, s.stepCalls_length⟩
  · rw [stepBody, Micro.get_bind, if_pos hp]
    exact ⟨_, _, rfl, .refused (by simp [errsOf])⟩

theorem resetBody_bounded {s : State} (hw : s.cfg.wf = true) :
    ∃ e t, resetBody.run s = .ok e t ∧ Bounded .reset s e t := by
  cases ht : s.topen with
  | false =>
    have hsend : sendReset.run s = .ok .noError s := by
      rw [sendReset, Micro.get_bind, if_neg (by simp [ht])]
      rfl
    exact ⟨.noError, { s with phase := .closed }, by rw [resetBody, Micro.bind_ok hsend]; rfl, by simp [errsOf],
      fun _ _ => rfl, [], by simp⟩
  | true =>
    have hcap := frameLen_zero_le hw
    obtain ⟨hx, htr⟩ := Exchanged.sent s.cfg.tcReset (p := []) hw hcap ht
    have hsent : Within 1 (frameLen s.cfg 0) s (s.sent s.cfg.tcReset []) := ⟨hx.pb_above, _, htr, le_rfl⟩
    obtain ⟨t, hclose, hk, -⟩ := tClose_session (s := s.sent s.cfg.tcReset []) (by rw [hx.same]; exact ht)
    have hrun : resetBody.run s = .ok (if s.nextAnswer.isOk then Reply.ok else .tfail).toErr
        { t with phase := .closed } := by
      have hsend : sendReset.run s = .ok (if s.nextAnswer.isOk then Reply.ok else .tfail).toErr t := by
        rw [sendReset, Micro.get_bind, if_pos ht, Micro.bind_ok (encodeFrame_ok (p := []) _ hw hcap),
          Micro.bind_ok (encode_send (p := []) _ hw hcap ht), Micro.bind_ok hclose]
        rfl
      rw [resetBody, Micro.bind_ok hsend]
      rfl
    have hall := hsent.trans (hk.within.mono le_rfl (Nat.zero_le _))
    refine ⟨_, _, hrun, ?_, ?_, hall.calls⟩
    · cases s.nextAnswer.isOk <;> simp [errsOf, Reply.toErr]
    · rw [storeBound, if_pos ht]
      exact hall.pb_above

theorem renegBody_bounded {s : State} (hw : s.cfg.wf = true) :
    ∃ e t, renegBody.run s = .ok e t ∧ Bounded .reneg s e t := by
  rw [renegBody, Micro.get_bind]
  by_cases hp : s.phase ≠ .authenticated
  · rw [if_pos hp]
    exact ⟨_, _, rfl, .refused (by simp [errsOf])⟩
  obtain ⟨e, t, hrun, hk, -, hcode⟩ := renegSub_ends hw
  exact ⟨e, t, by rw [if_neg hp, hrun], hcode, hk.always⟩

theorem cfgwinBody_bounded {s : State} (hw : s.cfg.wf = true) :
    ∃ e t, cfgwinBody.run s = .ok e t ∧ Bounded .cfgwin s e t := by
  rw [cfgwinBody, Micro.get_bind]
  by_cases hp : s.phase ≠ .authenticated
  · rw [if_pos hp]
    exact ⟨_, _, rfl, .refused (by simp [errsOf])⟩
  obtain ⟨e, t, hrun, hk, -, -, -, hinvalid, hvalid, -⟩ := cfgwinSub_session hw
  refine ⟨e, t, by rw [if_neg hp, hrun], ?_, hk.within⟩
  cases hv : s.winValid with
  | false => simp [hinvalid hv, errsOf]
  | true => rcases hvalid hv with rfl | rfl | rfl <;> simp [errsOf]

/-- Every sequencer command of an admissible block completes within its bounds. -/
theorem exec_bounded {i : Instr} (hi : i.isSequencer = true) {s : State} (hw : s.cfg.wf = true) :
    ∃ e t, exec i s = .next (t.done e) ∧ Bounded i s e t := by
  have run {body : Micro ErrCode} (h : ∃ e t, body.run s = .ok e t ∧ Bounded i s e t) :
      ∃ e t, runCommand body s = .next (t.done e) ∧ Bounded i s e t :=
    let ⟨e, t, hrun, hend⟩ := h
    ⟨e, t, runCommand_ok hrun, hend⟩
  cases i with
  | nop => exact ⟨_, _, rfl, .refused (by simp [errsOf])⟩
  | open_ => exact run (openBody_bounded hw)
  | close => exact run (closeBody_bounded s)
  | start => exact run (startBody_bounded hw)
  | stop => exact run (stopBody_bounded hw)
  | step => exact run (stepBody_bounded hw)
  | reset => exact run (resetBody_bounded hw)
  | reneg => exact run (renegBody_bounded hw)
  | cfgwin => exact run (cfgwinBody_bounded hw)
  | cset | cget | ccrc => cases hi

/-! ### The cursor commands -/

theorem errsOf_cursor {i : Instr} (hi : i.isSequencer = false) : errsOf i = [.noError, .precondition] := by
  cases i with
  | cset | cget | ccrc => rfl
  | _ => cases hi

/-- A cursor command stores at `CUR` at most, and only `CSET` stores (R148, R174, R175). -/
theorem exec_cursor_pbRead {i : Instr} (hi : i.isSequencer = false) {s t : State} (hexec : exec i s = .next t)
    {a : Nat} (ha : (∃ v, i = .cset v) → a ≠ s.cur.toNat) : t.pbRead a = s.pbRead a := by
  have next {u : State} (h : exec i s = .next u) : t = u := Host.Outcome.next.inj (hexec.symm.trans h)
  cases i with
  | cset v =>
    by_cases h : s.rem = 0 ∨ s.cfg.pbCap ≤ s.cur.toNat
    · rw [next (runCommand_overrun (Micro.bind_error (setByte_refused v h)))]
      rfl
    · rw [not_or, Nat.not_le] at h
      rw [next (runCommand_ok (Micro.bind_ok (setByte_ok v h.1 h.2)))]
      exact congrArg (Option.getD · _) (Memory.read_write_ne s.pb v (ha ⟨v, rfl⟩))
  | cget =>
    by_cases h : s.cfg.pbCap ≤ s.cur.toNat
    · rw [next (runCommand_overrun (Micro.bind_error (getByte_refused h)))]
      rfl
    · rw [next (runCommand_ok (Micro.bind_ok (getByte_ok (Nat.not_le.1 h))))]
      rfl
  | ccrc b =>
    have hrun : (crcRange b).run s = if s.cfg.pbCap < s.cur.toNat + b.toNat then .error .overrun s
      else .ok () { s with crcout := s.crc s.cur.toNat b.toNat } := rfl
    split at hrun
    · rw [next (runCommand_overrun (Micro.bind_error hrun))]
      rfl
    · rw [next (runCommand_ok (Micro.bind_ok hrun))]
      rfl
  | _ => cases hi

/-! ### The statements -/

/-- Settles O8: a sequencer command by its row, a cursor command by its bounds check. -/
theorem commandsComplete : Obligations.CommandsComplete := by
  intro i s hw
  cases hi : i.isSequencer with
  | true =>
    obtain ⟨e, t, hexec, hb⟩ := exec_bounded hi hw
    exact ⟨_, hexec, hb.code⟩
  | false =>
    rw [errsOf_cursor hi]
    rcases exec_cursor hi s with hexec | ⟨t, hexec, -⟩
    · exact ⟨_, hexec, by simp⟩
    · exact ⟨_, hexec, by simp⟩

/-- Settles O38: the calls of a sequencer command by `exec_bounded`; a cursor command makes none. -/
theorem callBounds : Obligations.CallBounds := by
  intro i s t hw hexec
  have next {u : State} (h : exec i s = .next u) : t = u := Host.Outcome.next.inj (hexec.symm.trans h)
  cases hi : i.isSequencer with
  | true =>
    obtain ⟨e, u, hend, hb⟩ := exec_bounded hi hw
    rw [next hend]
    exact hb.within.calls
  | false =>
    refine ⟨[], ?_, Nat.zero_le _⟩
    rw [List.append_nil]
    rcases exec_cursor hi s with hend | ⟨u, hend, hmoved⟩
    · rw [next hend]
      rfl
    · rw [next hend, State.done_trace, hmoved.same]

/-- Settles O37: `NOP` and `CLOSE` have store bound 0, so they are read off the first clause. -/
theorem bufferFrame : Obligations.BufferFrame := by
  intro i s t hw hexec
  have sequencer (hi : i.isSequencer = true) : ∀ a, storeBound i s ≤ a → t.pbRead a = s.pbRead a := by
    obtain ⟨e, u, hend, hb⟩ := exec_bounded hi hw
    rw [Host.Outcome.next.inj (hexec.symm.trans hend)]
    exact hb.within.pb_above
  refine ⟨sequencer, ?_, ?_⟩
  · rintro ⟨v, rfl⟩ a ha
    exact exec_cursor_pbRead rfl hexec fun _ => ha
  · rintro (rfl | ⟨b, rfl⟩ | rfl | rfl) a
    · exact exec_cursor_pbRead rfl hexec (by simp)
    · exact exec_cursor_pbRead rfl hexec (by simp)
    · exact sequencer rfl a (Nat.zero_le a)
    · exact sequencer rfl a (Nat.zero_le a)

end Sys2Proof.Machine
end

section
/-! The command word (R100 to R104, R115): its fields, the words each command is read from, the illegal words. -/

namespace Sys2Proof

/-! ### The three fields -/

/-- A word is its three fields put together (R100). -/
theorem fields_append (w : Word) : bField w ++ aField w ++ opcField w = w := by
  rw [bField, aField, opcField, BitVec.extractLsb'_append_extractLsb'_eq_extractLsb' (by rfl),
    BitVec.extractLsb'_append_extractLsb'_eq_extractLsb' (by rfl)]
  simp

theorem word_eq_iff {v w : Word} :
    v = w ↔ opcField v = opcField w ∧ aField v = aField w ∧ bField v = bField w := by
  constructor
  · rintro rfl
    exact ⟨rfl, rfl, rfl⟩
  · rintro ⟨hopc, ha, hb⟩
    rw [← fields_append v, ← fields_append w, hopc, ha, hb]

theorem opcField_and (v w : Word) : opcField (v &&& w) = opcField v &&& opcField w := BitVec.extractLsb'_and

theorem aField_and (v w : Word) : aField (v &&& w) = aField v &&& aField w := BitVec.extractLsb'_and

theorem bField_and (v w : Word) : bField (v &&& w) = bField v &&& bField w := BitVec.extractLsb'_and

theorem encode_fields (i : Instr) :
    opcField (encode i) = i.opcode ∧ aField (encode i) = i.fieldA ∧ bField (encode i) = i.fieldB :=
  Laws.Fields.of_append _ _ _

/-- The mask of the bits read, field by field (R101). -/
theorem Instr.readMask_eq (i : Instr) : i.readMask =
    (if i.opcode = 0x12 then BitVec.allOnes 16 else 0) ++ (if i.opcode = 0x10 then BitVec.allOnes 8 else 0)
      ++ BitVec.allOnes 8 := by
  cases i with
  | cset a => simp [Instr.readMask, Instr.opcode]
  | ccrc b => simp [Instr.readMask, Instr.opcode]
  | _ => rfl

/-- Masking keeps the fields a command reads and clears the others (R101). -/
theorem and_readMask_fields (i : Instr) (w : Word) : opcField (w &&& i.readMask) = opcField w ∧
    aField (w &&& i.readMask) = (if i.opcode = 0x10 then aField w else 0) ∧
    bField (w &&& i.readMask) = (if i.opcode = 0x12 then bField w else 0) := by
  obtain ⟨hopc, ha, hb⟩ := Laws.Fields.of_append (if i.opcode = 0x12 then BitVec.allOnes 16 else 0)
    (if i.opcode = 0x10 then BitVec.allOnes 8 else 0) (BitVec.allOnes 8)
  rw [opcField_and, aField_and, bField_and, i.readMask_eq, hopc, ha, hb]
  refine ⟨BitVec.and_allOnes, ?_, ?_⟩
  · split
    · exact BitVec.and_allOnes
    · exact BitVec.and_zero
  · split
    · exact BitVec.and_allOnes
    · exact BitVec.and_zero

/-! ### The words a command is read from -/

/-- `w` holds the command `i` in the fields that `i` reads: `OPC` always, `A` for `CSET`, `B` for `CCRC` (R101). -/
structure Instr.ReadFrom (i : Instr) (w : Word) : Prop where
  opcode_eq : opcField w = i.opcode
  byte_eq : ∀ a, i = .cset a → aField w = a
  length_eq : ∀ b, i = .ccrc b → bField w = b

theorem Instr.readFrom_iff {i : Instr} {w : Word} : i.ReadFrom w ↔
    opcField w = i.opcode ∧ (∀ a, i = .cset a → aField w = a) ∧ ∀ b, i = .ccrc b → bField w = b :=
  ⟨fun ⟨hopc, ha, hb⟩ => ⟨hopc, ha, hb⟩, fun ⟨hopc, ha, hb⟩ => ⟨hopc, ha, hb⟩⟩

/-- The encoder writes what the command reads, and 0 elsewhere (R115). -/
theorem masked_eq_encode_iff {i : Instr} {w : Word} : w &&& i.readMask = encode i ↔ i.ReadFrom w := by
  obtain ⟨hopc, ha, hb⟩ := encode_fields i
  obtain ⟨kopc, ka, kb⟩ := and_readMask_fields i w
  rw [word_eq_iff, kopc, ka, kb, hopc, ha, hb, Instr.readFrom_iff]
  cases i with
  | cset a => simp [Instr.opcode, Instr.fieldA, Instr.fieldB]
  | ccrc b => simp [Instr.opcode, Instr.fieldA, Instr.fieldB]
  | _ => simp [Instr.opcode, Instr.fieldA, Instr.fieldB]

theorem Instr.readFrom_encode (i : Instr) : i.ReadFrom (encode i) := by
  obtain ⟨hopc, ha, hb⟩ := encode_fields i
  refine ⟨hopc, ?_, ?_⟩
  · rintro a rfl
    exact ha
  · rintro b rfl
    exact hb

/-! ### The decoder -/

/-- The opcodes of the table R103. -/
def LegalOpcode (o : BitVec 8) : Prop := o.toNat ≤ 0x08 ∨ (0x10 ≤ o.toNat ∧ o.toNat ≤ 0x12)

theorem Instr.opcode_legal (i : Instr) : LegalOpcode i.opcode := by
  cases i <;> simp [LegalOpcode, Instr.opcode]

/-- What the decoder can answer (R102). -/
theorem decode_cases (w : Word) : (∃ i, decode w = .ok i ∧ i.ReadFrom w) ∨
    (decode w = .error (.illegalOpcode (opcField w)) ∧ ¬ LegalOpcode (opcField w)) := by
  unfold decode
  split
  case h_13 =>
    refine .inr ⟨rfl, ?_⟩
    unfold LegalOpcode
    -- `omega` reads no implication to `False`, only its `¬` form
    simp only [imp_false] at *
    omega
  -- an arm of the table: the word's opcode is that arm's, and the operand is the field itself
  all_goals
    rename_i hopc
    exact .inl ⟨_, rfl, BitVec.eq_of_toNat_eq hopc, by simp, by simp⟩

theorem decode_legal {w : Word} (h : LegalOpcode (opcField w)) : ∃ i, decode w = .ok i ∧ i.ReadFrom w :=
  (decode_cases w).resolve_right fun ⟨_, hno⟩ => hno h

theorem decode_illegal {w : Word} (h : ¬ LegalOpcode (opcField w)) :
    decode w = .error (.illegalOpcode (opcField w)) := by
  rcases decode_cases w with ⟨i, -, hi⟩ | ⟨herr, -⟩
  · exact absurd (hi.opcode_eq ▸ i.opcode_legal) h
  · exact herr

theorem decode_eq_ok_iff {i : Instr} {w : Word} : decode w = .ok i ↔ i.ReadFrom w := by
  constructor
  · intro h
    rcases decode_cases w with ⟨j, hj, hread⟩ | ⟨herr, -⟩
    · cases h.symm.trans hj
      exact hread
    · cases h.symm.trans herr
  · rintro ⟨hopc, ha, hb⟩
    cases i with
    | cset a => simp [decode, hopc, Instr.opcode, ha a rfl]
    | ccrc b => simp [decode, hopc, Instr.opcode, hb b rfl]
    | _ => simp [decode, hopc, Instr.opcode]

/-! ### The statements -/

/-- Settles O1: both halves say which words the command is read from. -/
theorem decodeEncode : Obligations.DecodeEncode := fun i =>
  ⟨decode_eq_ok_iff.2 i.readFrom_encode, fun _ => decode_eq_ok_iff.trans masked_eq_encode_iff.symm⟩

/-- Settles O2: the opcode alone decides between a command and a rejection. -/
theorem decodeTotal : Obligations.DecodeTotal := by
  intro w
  split
  · rename_i hlegal
    obtain ⟨i, hi, hread⟩ := decode_legal hlegal
    exact ⟨i, hi, hread.opcode_eq.symm⟩
  · rename_i hillegal
    exact decode_illegal hillegal

/-- Settles O3: a command read from one of two words that agree on the fields read is read from the other. -/
theorem operandsRead : Obligations.OperandsRead := by
  intro w w'
  refine ⟨fun hopc => ?_, fun hopc => ?_, fun hopc ha hb => ?_⟩
  · exact decode_eq_ok_iff.2 ⟨hopc, by simp [aField], by simp⟩
  · exact decode_eq_ok_iff.2 ⟨hopc, by simp, by simp [bField]⟩
  · by_cases hlegal : LegalOpcode (opcField w)
    · obtain ⟨i, hi, hread⟩ := decode_legal hlegal
      have hread' : i.ReadFrom w' := by
        refine ⟨hopc.symm.trans hread.opcode_eq, ?_, ?_⟩
        · rintro a rfl
          exact (ha hread.opcode_eq).symm.trans (hread.byte_eq a rfl)
        · rintro b rfl
          exact (hb hread.opcode_eq).symm.trans (hread.length_eq b rfl)
      rw [hi, decode_eq_ok_iff.2 hread']
    · rw [decode_illegal hlegal, decode_illegal (hopc ▸ hlegal), hopc]

/-- Settles O4: a legal word agrees with the encoding on the bits read, an illegal one has an opcode outside R103. -/
theorem sampleWords : Obligations.SampleWords := by
  have legal {i : Instr} {w : Word} (h : w &&& i.readMask = encode i) : decode w = .ok i :=
    decode_eq_ok_iff.2 (masked_eq_encode_iff.1 h)
  have illegal {w : Word} {o : BitVec 8} (h : opcField w = o) (ho : ¬ LegalOpcode o) :
      decode w = .error (.illegalOpcode o) := h ▸ decode_illegal (h ▸ ho)
  exact ⟨legal rfl, legal rfl, legal rfl, legal rfl, legal rfl, legal rfl, legal rfl, legal rfl,
    illegal rfl (by simp [LegalOpcode]), illegal rfl (by simp [LegalOpcode]), illegal rfl (by simp [LegalOpcode]),
    illegal rfl (by simp [LegalOpcode])⟩

/-- Settles O6: the decoder rejects the word, and `done` with code 5 writes the two registers (R104, R272). -/
theorem illegalCommand : Obligations.IllegalCommand := by
  intro s w q h hopc
  have hillegal : ¬ LegalOpcode (opcField w) := by
    unfold LegalOpcode
    omega
  exact Machine.step_illegal h (decode_illegal hillegal)

end Sys2Proof
end

section
/-! Frames and payloads read back (R106 to R112). -/

namespace Sys2Proof.Machine

theorem half_ext {v w : Half} (hh : hi8 v = hi8 w) (hl : lo8 v = lo8 w) : v = w := by
  rw [← join16_split v, ← join16_split w, hh, hl]

/-- The type byte stands after the header, and the payload's length says where the checksum begins (R106). -/
theorem frameBytes_inj {c : Cfg} {hdr p p' : List Byte} {ty ty' : Byte} (hlen : p.length = p'.length)
    (h : frameBytes c hdr ty p = frameBytes c hdr ty' p') : ty = ty' ∧ p = p' := by
  obtain ⟨hty, htail⟩ := List.cons.inj (List.append_cancel_left h)
  exact ⟨hty, (List.append_inj htail hlen).1⟩

/-- A first sample's high byte follows the flags byte, and its low byte stands before the other samples (R109). -/
theorem scanPayload_cons (f : Byte) (w : Half) (ws : List Half) :
    scanPayload f (w :: ws) = f :: hi8 w :: scanPayload (lo8 w) ws := rfl

theorem scanPayload_inj {f f' : Byte} {ws ws' : List Half} (h : scanPayload f ws = scanPayload f' ws') :
    f = f' ∧ ws = ws' := by
  induction ws generalizing f f' ws' with
  | nil =>
    cases ws' with
    | nil => exact ⟨(List.cons.inj h).1, rfl⟩
    | cons w' ws' => simp [scanPayload] at h
  | cons w ws ih =>
    cases ws' with
    | nil => simp [scanPayload] at h
    | cons w' ws' =>
      rw [scanPayload_cons, scanPayload_cons, List.cons.injEq, List.cons.injEq] at h
      obtain ⟨hf, hhi, hrest⟩ := h
      obtain ⟨hlo, hws⟩ := ih hrest
      exact ⟨hf, by rw [half_ext hhi hlo, hws]⟩

theorem windowPayload_inj {s s' : State} (h : s.windowPayload = s'.windowPayload) :
    s.winStart = s'.winStart ∧ s.winStop = s'.winStop ∧ s.winStep = s'.winStep ∧ s.winType = s'.winType := by
  simp only [State.windowPayload, List.cons.injEq, and_true] at h
  obtain ⟨starth, startl, stoph, stopl, steph, stepl, typeh, typel⟩ := h
  exact ⟨half_ext starth startl, half_ext stoph stopl, half_ext steph stepl, half_ext typeh typel⟩

theorem baudPayload_inj {c c' : BitVec 3} (h : baudPayload c = baudPayload c') : c = c' := by
  have := (List.cons.inj h).1
  bv_omega

/-- Settles O29: one clause for each layout of R106 and R108 to R111. -/
theorem framesRoundTrip : Obligations.FramesRoundTrip :=
  ⟨fun _ _ _ _ _ _ => frameBytes_inj, fun _ _ _ _ => scanPayload_inj, fun _ _ => windowPayload_inj,
    fun _ _ => baudPayload_inj⟩

end Sys2Proof.Machine
end

section
/-! A `STEP` that receives a sealed scan frame (R240, R241). -/

namespace Sys2Proof.Machine

/-! ### Up to the receive -/

/-- What `STEP` sends before its receive: the POLL frame when the device is polled (R240). -/
def State.pollFrame (s : State) : List Byte := if s.cfg.polling then txFrame s.cfg s.cfg.tcPoll [] else []

/-- The state in which a `STEP` started in `s` makes its receive (R165, R166, R240). -/
def State.scanAsked (s : State) : State :=
  { s.pollAnswered with
    trace := s.trace ++ (if s.cfg.polling then [.tSend (txFrame s.cfg s.cfg.tcPoll []) true] else [])
    pb := Memory.writeList s.pb 0 s.pollFrame
    cur := if s.cfg.polling then BitVec.ofNat 16 (s.cfg.hdrLen + 2) else s.cur
    rem := if s.cfg.polling then 0 else s.rem
    txlen := if s.cfg.polling then BitVec.ofNat 16 (s.cfg.hdrLen + 2) else s.txlen }

@[simp] theorem State.scanAsked_cfg (s : State) : s.scanAsked.cfg = s.cfg := by
  simp only [State.scanAsked, State.pollAnswered]
  split <;> simp

@[simp] theorem State.scanAsked_topen (s : State) : s.scanAsked.topen = s.topen := by
  simp only [State.scanAsked, State.pollAnswered]
  split <;> simp

/-- A `STEP` in Running that makes its receive goes on from `scanAsked`. -/
theorem stepBody_asked {s : State} (hw : s.cfg.wf = true) (hp : s.phase = .running) (hasks : s.AsksScan) :
    stepBody.run s = (acquire s.dcount).run s.scanAsked := by
  obtain ⟨ht, hpoll⟩ := hasks
  rw [stepBody, Micro.get_bind, if_neg (by simp [hp])]
  cases h : s.cfg.polling with
  | false =>
    have hsame : s.scanAsked = s := by
      simp [State.scanAsked, State.pollFrame, State.pollAnswered, h, Memory.writeList]
    rw [hsame]
    rfl
  | true =>
    have hok : s.nextAnswer.isOk = true := (Answer.isOk_iff _).2 (hpoll h)
    have hsent : s.scanAsked = s.sent s.cfg.tcPoll [] := by
      simp [State.sent_eq, State.scanAsked, State.pollFrame, State.pollAnswered, h, hok, frameLen]
    have hcap := frameLen_zero_le hw
    rw [if_pos rfl, Micro.bind_ok (encodeFrame_ok (p := []) _ hw hcap),
      Micro.bind_ok (encode_send (p := []) _ hw hcap ht), hok, hsent]
    rfl

/-! ### The receive -/

/-- The sealed scan frame of a flags byte and samples (R109). -/
def scanFrame (c : Cfg) (f : Byte) (ws : List Half) : List Byte := rxFrame c c.trScan (scanPayload f ws)

theorem scanFrame_length {c : Cfg} (hw : c.wf = true) (f : Byte) (ws : List Half) :
    (scanFrame c f ws).length = c.hdrLen + 3 + 2 * ws.length := by
  obtain ⟨-, -, -, -, hrx, -⟩ := Cfg.wf_facts hw
  rw [scanFrame, rxFrame_length hrx, scanPayload_length, frameLen]
  omega

/-- The state once that frame has been received and its scan committed, with the cursor past the last sample (R167,
R240). -/
def State.scanned (s : State) (f : Byte) (ws : List Half) : State :=
  { s.answered with
    flags := flagBits f, raw := rawStore s.raw ws, scanValid := true
    trace := s.trace ++
      [.tRecv (s.cfg.hdrLen + 3 + 2 * ws.length) s.cfg.rxTimeout (some (scanFrame s.cfg f ws))]
    pb := Memory.writeList s.pb 0 (scanFrame s.cfg f ws)
    cur := BitVec.ofNat 16 (s.cfg.hdrLen + 2 + 2 * ws.length)
    rxlen := BitVec.ofNat 16 (scanFrame s.cfg f ws).length }

/-- The receiving half of `STEP` when the answer is a sealed scan frame. -/
theorem acquire_scan {s : State} {f : Byte} {ws : List Half} (hw : s.cfg.wf = true)
    (hcap : s.cfg.hdrLen + 3 + 2 * ws.length ≤ s.cfg.pbCap) (ht : s.topen = true)
    (ha : s.nextAnswer = .ok (scanFrame s.cfg f ws)) :
    (acquire ws.length).run s = .ok .noError (s.scanned f ws) := by
  have htake : (scanFrame s.cfg f ws).take (s.cfg.hdrLen + 3 + 2 * ws.length) = scanFrame s.cfg f ws :=
    List.take_of_length_le (scanFrame_length hw f ws).le
  rcases acquire_received ws.length hw hcap ht ha with ⟨g, vs, hvs, hframe, hrun⟩ | ⟨hno, -⟩
  · have hlen : (scanPayload f ws).length = (scanPayload g vs).length := by
      rw [scanPayload_length, scanPayload_length, hvs]
    obtain ⟨rfl, rfl⟩ := scanPayload_inj (frameBytes_inj hlen (htake.symm.trans hframe)).2
    rw [hrun, State.gotAt, State.polled, ha, Answer.received, htake]
    simp [State.scanned, State.commitScan, State.withCur, State.store, State.traced]
  · exact absurd ⟨f, ws, rfl, htake⟩ hno

/-! ### The state it leaves -/

/-- A string at least as long as the frame sent hides that frame (R172). -/
theorem overlay_eq_left {received sent : List Byte} (h : sent.length ≤ received.length) :
    overlay received sent = received := by
  rw [overlay, List.drop_eq_nil_of_le h, List.append_nil]

theorem State.pollFrame_length_le {s : State} (hw : s.cfg.wf = true) : s.pollFrame.length ≤ s.scanLen := by
  obtain ⟨-, -, -, htx, -⟩ := Cfg.wf_facts hw
  unfold State.pollFrame
  split
  · rw [txFrame_length htx]
    exact frameLen_zero_le_scanLen s
  · exact Nat.zero_le _

/-- With the poll answered `ok`, when there is one, the receive takes the answer after it. -/
theorem State.pollAnswered_of_answers {s : State} {b : List Byte} {a : Answer} {as : List Answer}
    (h : s.answers = (if s.cfg.polling then [.ok b] else []) ++ a :: as) :
    (s.cfg.polling = true → s.nextAnswer ≠ .fail) ∧ s.pollAnswered = { s with answers := a :: as } := by
  unfold State.pollAnswered
  cases hpoll : s.cfg.polling with
  | false =>
    have hans : s.answers = a :: as := by simpa [hpoll] using h
    exact ⟨by simp, by rw [← hans]; rfl⟩
  | true =>
    have hans : s.answers = .ok b :: a :: as := by simpa [hpoll] using h
    exact ⟨fun _ => by simp [State.nextAnswer_of_cons hans], State.answered_of_cons hans⟩

/-- After a commit each element reads as the scan's sample, or as before past the last one (R41, R240). -/
theorem State.rawRead_rawStore {s t : State} {ws : List Half} (h : t.raw = rawStore s.raw ws)
    (hr : t.resets = s.resets) (k : Nat) : t.rawRead k = ws.getD k (s.rawRead k) := by
  rw [State.rawRead, State.rawRead, h, hr]
  by_cases hk : k < ws.length
  · rw [rawStore_getD_in _ _ _ hk, List.getD_eq_getElem _ _ hk]
  · rw [rawStore_getD_out _ _ _ (Nat.not_lt.1 hk), List.getD_eq_default _ _ (Nat.not_lt.1 hk)]

/-- `STEP` in Running when every call is answered and the string received is a sealed scan frame of the window's
length (R240). -/
theorem exec_step_scan {s : State} {f : Byte} {ws : List Half} (hw : s.cfg.wf = true) (hp : s.phase = .running)
    (hasks : s.AsksScan) (hn : ws.length = s.dcount)
    (ha : s.scanAsked.nextAnswer = .ok (scanFrame s.cfg f ws)) :
    exec .step s = .next ((s.scanAsked.scanned f ws).done .noError) := by
  have hcap : s.cfg.hdrLen + 3 + 2 * ws.length ≤ s.cfg.pbCap := hn ▸ s.scanLen_le hw
  refine runCommand_ok ((stepBody_asked hw hp hasks).trans ?_)
  rw [← hn]
  exact acquire_scan (by simpa using hw) (by simpa using hcap) (by simpa using hasks.1) (by simpa using ha)

/-- Settles O58: the next state by `exec_step_scan`; in the buffer the frame received hides the POLL frame. -/
theorem stepStoresScan : Obligations.StepStoresScan := by
  intro s b0 rest f ws hw hp ht hn hans
  obtain ⟨hsend, hpolled⟩ := State.pollAnswered_of_answers hans
  have hanswers : s.scanAsked.answers = .ok (scanFrame s.cfg f ws) :: rest := by
    rw [State.scanAsked, hpolled]
    rfl
  have hlen : (scanFrame s.cfg f ws).length = s.scanLen := by rw [scanFrame_length hw, hn, State.scanLen]
  have hcur : s.scanLen - 1 = s.cfg.hdrLen + 2 + 2 * s.dcount := by
    rw [State.scanLen]
    omega
  have hraw : (s.scanAsked.scanned f ws).raw = rawStore s.raw ws := by
    rw [State.scanned, State.scanAsked, hpolled]
  have hpb : (s.scanAsked.scanned f ws).pb =
      Memory.writeList (Memory.writeList s.pb 0 s.pollFrame) 0 (scanFrame s.cfg f ws) := by
    rw [State.scanned, State.scanAsked_cfg, State.scanAsked]
  have hresets : (s.scanAsked.scanned f ws).resets = s.resets := by
    rw [State.scanned, State.answered_resets, State.scanAsked, hpolled]
  refine ⟨_, exec_step_scan hw hp ⟨ht, hsend⟩ hn (State.nextAnswer_of_cons hanswers), ?_, ?_, ?_⟩
  · rw [hcur, State.scanned, State.answered_of_cons hanswers, State.scanAsked_cfg, hlen, State.scanAsked, hpolled]
    simp [State.done, ErrCode.stickyMask, flagBits, hn, State.scanLen, scanFrame]
  · exact State.rawRead_rawStore hraw hresets
  · have hholds : ((s.scanAsked.scanned f ws).done .noError).Holds s (overlay (scanFrame s.cfg f ws) s.pollFrame) :=
      State.holds_overlay hpb hresets
    rwa [overlay_eq_left (hlen ▸ State.pollFrame_length_le hw)] at hholds

end Sys2Proof.Machine
end

section
/-! The checksum's table `T` (R142): linear, a bijection exactly for an odd polynomial, the identity for `0x01` (R146,
R147, R149). -/

namespace Sys2Proof.Machine

/-! ### One shift -/

theorem crcShift_of_msb_false (p : Byte) {x : Byte} (h : x.msb = false) : crcShift p x = x <<< 1 := by
  rw [crcShift, h]
  rfl

/-- The bits move up by one, and the polynomial is added when bit 7 was 1. -/
theorem crcShift_getLsbD (p x : Byte) (i : Nat) : (crcShift p x).getLsbD i =
    ((x <<< 1).getLsbD i ^^ (x.msb && p.getLsbD i)) := by
  cases hx : x.msb with
  | false => rw [crcShift_of_msb_false p hx, Bool.false_and, Bool.xor_false]
  | true => rw [crcShift, if_pos hx, BitVec.getLsbD_xor, Bool.true_and]

theorem crcShift_getLsbD_zero (p x : Byte) : (crcShift p x).getLsbD 0 = (x.msb && p.getLsbD 0) := by
  rw [crcShift_getLsbD, BitVec.getLsbD_shiftLeft]
  exact Bool.false_xor _

/-- With an odd polynomial bit 0 of the result says whether a 1 was shifted out, so nothing is lost. -/
theorem crcShift_eq_zero {p x : Byte} (hp : p.getLsbD 0 = true) (h : crcShift p x = 0) : x = 0 := by
  have hmsb : x.msb = false := by
    have hbit := crcShift_getLsbD_zero p x
    rw [h, hp, Bool.and_true] at hbit
    exact hbit.symm
  have hshift : x <<< 1 = 0 := by rwa [crcShift_of_msb_false p hmsb] at h
  have hlt := BitVec.msb_eq_false_iff_two_mul_lt.1 hmsb
  bv_omega

theorem crcShift_injective {p : Byte} (hp : p.getLsbD 0 = true) : Function.Injective (crcShift p) := by
  intro x y h
  have hzero : crcShift p (x ^^^ y) = 0 := by rw [crcShift_xor, h]; exact BitVec.xor_self
  exact BitVec.xor_eq_zero_iff.1 (crcShift_eq_zero hp hzero)

/-- With polynomial `0x01` the bit shifted out comes back at the other end. -/
theorem crcShift_one_getLsbD (x : Byte) {i : Nat} (hi : i < 8) :
    (crcShift 0x01 x).getLsbD i = x.getLsbD ((i + 7) % 8) := by
  cases i with
  | zero =>
    rw [crcShift_getLsbD_zero, BitVec.msb_eq_getLsbD_last]
    exact Bool.and_true _
  | succ j =>
    have hmod : (j + 1 + 7) % 8 = j := by omega
    have hpoly : (0x01 : Byte).getLsbD (j + 1) = false := by simp
    rw [hmod, crcShift_getLsbD, hpoly, Bool.and_false, Bool.xor_false, BitVec.getLsbD_shiftLeft]
    simp only [hi, decide_true, Bool.true_and]
    rfl

/-- Each iteration carries the bits one place round. -/
theorem crcShift_one_iterate_getLsbD (x : Byte) (n : Nat) {i : Nat} (hi : i < 8) :
    ((crcShift 0x01)^[n] x).getLsbD i = x.getLsbD ((i + 7 * n) % 8) := by
  induction n generalizing x with
  | zero => simp [Nat.mod_eq_of_lt hi]
  | succ n ih =>
    rw [Function.iterate_succ_apply, ih, crcShift_one_getLsbD x (Nat.mod_lt _ (by decide))]
    congr 1
    omega

/-- The single bit of `0x01` reaches bit 7 before any feedback. -/
theorem crcShift_iterate_one (p : Byte) {n : Nat} (hn : n ≤ 7) : (crcShift p)^[n] 1 = (1 : Byte) <<< n := by
  have hmsb : ∀ k < 7, ((1 : Byte) <<< k).msb = false := by decide
  induction n with
  | zero => rfl
  | succ n ih =>
    rw [Function.iterate_succ_apply', ih (by omega), crcShift_of_msb_false p (hmsb n hn), ← BitVec.shiftLeft_add]

/-! ### The table -/

theorem step8_eq_iterate (p acc b : Byte) : step8 p acc b = (crcShift p)^[8] (acc ^^^ b) := rfl

/-- `T` is eight shifts (R142). -/
theorem step8_zero (p : Byte) : step8 p 0 = (crcShift p)^[8] := by
  funext v
  have hv : 0 ^^^ v = v := BitVec.zero_xor
  rw [step8_eq_iterate, hv]

/-- `STEP8` is linear in both arguments together (R149). -/
theorem step8_xor (p x y a b : Byte) : step8 p (x ^^^ y) (a ^^^ b) = step8 p x a ^^^ step8 p y b := by
  simp only [step8_eq_iterate, ← crcShift_iterate_xor]
  congr 1
  ac_rfl

/-- The eighth shift feeds the polynomial back: `T[0x01] = CRC_POLY`. -/
theorem step8_zero_one (p : Byte) : step8 p 0 1 = p := by
  rw [step8_zero, Function.iterate_succ_apply', crcShift_iterate_one p le_rfl]
  exact BitVec.zero_xor

theorem step8_zero_bijective {p : Byte} (hp : p.getLsbD 0 = true) : Function.Bijective (step8 p 0) := by
  rw [step8_zero]
  exact Finite.injective_iff_bijective.1 ((crcShift_injective hp).iterate 8)

/-- With an even polynomial `T` takes even values only, so two of its 256 entries agree. -/
theorem step8_zero_not_injective {p : Byte} (hp : p.getLsbD 0 = false) : ¬ Function.Injective (step8 p 0) := by
  intro hinj
  obtain ⟨v, hv⟩ := Finite.surjective_of_injective hinj 1
  have heven : (step8 p 0 v).getLsbD 0 = false := by
    rw [step8_zero, Function.iterate_succ_apply', crcShift_getLsbD_zero, hp, Bool.and_false]
  rw [hv] at heven
  exact absurd heven (by decide)

/-- With an odd polynomial `STEP8` keeps apart what `acc XOR b` does. -/
theorem step8_inj_iff {p acc acc' b b' : Byte} (hp : p.getLsbD 0 = true) :
    step8 p acc b = step8 p acc' b' ↔ acc ^^^ b = acc' ^^^ b' := by
  rw [step8_table p acc, step8_table p acc', (step8_zero_bijective hp).injective.eq_iff]

/-- With polynomial `0x01` eight rotations bring every bit back (R147). -/
theorem step8_poly_one (acc b : Byte) : step8 0x01 acc b = acc ^^^ b := by
  refine BitVec.eq_of_getLsbD_eq fun i hi => ?_
  rw [step8_eq_iterate, crcShift_one_iterate_getLsbD _ 8 hi]
  congr 1
  omega

/-! ### Byte lists -/

/-- `CRC_XOROUT` plays no part in whether two checksums agree. -/
theorem crcBytes_eq_iff {c : Cfg} {bs bs' : List Byte} : crcBytes c bs = crcBytes c bs' ↔
    bs.foldl (step8 c.crcPoly) c.crcInit = bs'.foldl (step8 c.crcPoly) c.crcInit := BitVec.xor_left_inj _

/-- With an odd polynomial different accumulators stay different whatever bytes follow. -/
theorem foldl_step8_injective {p : Byte} (hp : p.getLsbD 0 = true) (bs : List Byte) :
    Function.Injective fun acc => bs.foldl (step8 p) acc := by
  induction bs with
  | nil => exact Function.injective_id
  | cons b bs ih =>
    intro x y h
    exact (BitVec.xor_left_inj b).1 ((step8_inj_iff hp).1 (ih h))

/-- With an odd polynomial the checksum determines each byte from the others (R146). -/
theorem crcBytes_set_inj_iff {c : Cfg} (hp : c.crcPoly.getLsbD 0 = true) {bs : List Byte} {k : Nat}
    (hk : k < bs.length) {x y : Byte} : crcBytes c (bs.set k x) = crcBytes c (bs.set k y) ↔ x = y := by
  simp only [crcBytes_eq_iff, List.set_eq_take_append_cons_drop, if_pos hk, List.foldl_append, List.foldl_cons]
  rw [(foldl_step8_injective hp (bs.drop (k + 1))).eq_iff, step8_inj_iff hp, BitVec.xor_right_inj]

theorem crcBytes_singleton_eq_iff {c : Cfg} {x y : Byte} : crcBytes c [x] = crcBytes c [y] ↔
    step8 c.crcPoly 0 (c.crcInit ^^^ x) = step8 c.crcPoly 0 (c.crcInit ^^^ y) := by
  rw [crcBytes_eq_iff, ← step8_table, ← step8_table]
  rfl

/-- The accumulator is linear in its start and the bytes together (R149). -/
theorem foldl_step8_xor (p : Byte) {a b : List Byte} (h : a.length = b.length) (x y : Byte) :
    (List.zipWith (· ^^^ ·) a b).foldl (step8 p) (x ^^^ y) = a.foldl (step8 p) x ^^^ b.foldl (step8 p) y := by
  induction a generalizing b x y with
  | nil => rw [List.length_eq_zero_iff.1 h.symm]; rfl
  | cons u a ih =>
    cases b with
    | nil => cases h
    | cons v b => simpa [step8_xor] using ih (Nat.succ.inj h) (step8 p x u) (step8 p y v)

theorem zipWith_xor_zeros {bs : List Byte} {n : Nat} (h : bs.length = n) :
    List.zipWith (· ^^^ ·) bs (List.replicate n 0) = bs :=
  List.ext_getElem (by simp [h]) fun i _ _ => by simp

/-- Two bytes and the same two exchanged agree only if `T` fixes `0x01`, that is for polynomial `0x01` (R147). -/
theorem crcBytes_swap_ne {c : Cfg} (hp : c.crcPoly.getLsbD 0 = true) (hone : c.crcPoly ≠ 0x01) :
    crcBytes c [1, 0] ≠ crcBytes c [0, 1] := by
  intro h
  have hstep : step8 c.crcPoly c.crcInit 1 ^^^ 0 = step8 c.crcPoly c.crcInit 0 ^^^ 1 :=
    (step8_inj_iff hp).1 (crcBytes_eq_iff.1 h)
  have hsplit : step8 c.crcPoly c.crcInit 1 = step8 c.crcPoly c.crcInit 0 ^^^ c.crcPoly :=
    calc step8 c.crcPoly c.crcInit 1 = step8 c.crcPoly (c.crcInit ^^^ 0) (0 ^^^ 1) := by simp
      _ = step8 c.crcPoly c.crcInit 0 ^^^ step8 c.crcPoly 0 1 := step8_xor ..
      _ = step8 c.crcPoly c.crcInit 0 ^^^ c.crcPoly := by rw [step8_zero_one]
  rw [hsplit] at hstep
  exact hone ((BitVec.xor_right_inj _).1 (BitVec.xor_zero.symm.trans hstep))

/-- In `CFG_REF` the accumulator starts at 0 and is itself the checksum (R150). -/
theorem crcBytes_ref (bs : List Byte) : crcBytes Cfg.ref bs = bs.foldl (step8 0x07) 0 := BitVec.xor_zero

/-- The accumulator after each byte of `31 .. 39`, of `01 02` and of `02 01`. -/
theorem step8_ref_trace :
    (step8 0x07 0x00 0x31 = 0x97 ∧ step8 0x07 0x97 0x32 = 0x72 ∧ step8 0x07 0x72 0x33 = 0xC0 ∧
      step8 0x07 0xC0 0x34 = 0xC2 ∧ step8 0x07 0xC2 0x35 = 0xCB ∧ step8 0x07 0xCB 0x36 = 0xFD ∧
      step8 0x07 0xFD 0x37 = 0x78 ∧ step8 0x07 0x78 0x38 = 0xC7 ∧ step8 0x07 0xC7 0x39 = 0xF4) ∧
    (step8 0x07 0x00 0x01 = 0x07 ∧ step8 0x07 0x07 0x02 = 0x1B) ∧
    step8 0x07 0x00 0x02 = 0x0E ∧ step8 0x07 0x0E 0x01 = 0x2D := by decide

/-! ### The statements -/

/-- Settles O24: the checksum determines the changed byte; with an even polynomial two table entries agree. -/
theorem crcDetectsOneByte : Obligations.CrcDetectsOneByte := by
  refine ⟨fun c bs k v hp hk hv h => ?_, fun c hp => ?_⟩
  · have hsame : v = bs[k] := (crcBytes_set_inj_iff hp hk).1 (by rw [h, List.set_getElem_self])
    exact hv (hsame ▸ List.getElem?_eq_getElem hk)
  · obtain ⟨x, y, hxy, hne⟩ := Function.not_injective_iff.1 (step8_zero_not_injective hp)
    refine ⟨c.crcInit ^^^ x, c.crcInit ^^^ y, fun h => hne ((BitVec.xor_right_inj _).1 h), ?_⟩
    rw [crcBytes_singleton_eq_iff]
    simpa [← BitVec.xor_assoc] using hxy

/-- Settles O25: `T` is the identity for `0x01`; else `T[0x01] = CRC_POLY` tells `01 00` from `00 01`. -/
theorem crcOrderDependent : Obligations.CrcOrderDependent := by
  refine ⟨fun c bs hc => ?_, fun c hp hone => ⟨step8_zero_bijective hp, fun hid => ?_, ?_⟩⟩
  · have hxor : step8 c.crcPoly = fun x b => x ^^^ b := by
      funext acc b
      rw [hc, step8_poly_one]
    rw [crcBytes, hxor, BitVec.xor_comm c.crcInit, List.foldl_assoc, BitVec.xor_comm]
  · exact hone ((step8_zero_one c.crcPoly).symm.trans (congrFun hid 1))
  · exact ⟨[1, 0], [0, 1], .swap 0 1 [], crcBytes_swap_ne hp hone⟩

/-- Settles O26: the accumulator is linear, and the zero list's checksum carries the constant part. -/
theorem crcAffine : Obligations.CrcAffine := by
  intro c a b h
  have hz : (List.zipWith (· ^^^ ·) a b).length = (List.replicate a.length (0 : Byte)).length := by simp [h]
  have hinit : c.crcInit = c.crcInit ^^^ c.crcInit ^^^ c.crcInit := by simp
  have hlinear : (List.zipWith (· ^^^ ·) a b).foldl (step8 c.crcPoly) c.crcInit =
      a.foldl (step8 c.crcPoly) c.crcInit ^^^ b.foldl (step8 c.crcPoly) c.crcInit ^^^
        (List.replicate a.length 0).foldl (step8 c.crcPoly) c.crcInit := by
    rw [← foldl_step8_xor _ h, ← foldl_step8_xor _ hz, ← hinit, zipWith_xor_zeros (by simp [h])]
  -- what is left is `CRC_XOROUT` three times against once
  simp only [crcBytes, hlinear]
  grind

/-- Settles O27: ranges that read alike are the same byte list. -/
theorem crcOfRange : Obligations.CrcOfRange := by
  refine ⟨fun s s' a a' n hcfg hread => ?_, fun s _ => crcBytes_nil s.cfg⟩
  rw [State.crc, State.crc, State.pbRange_congr hread, hcfg]

/-- Settles O28: each list byte by byte along its trace, the two table entries by evaluation. -/
theorem crcReferenceValues : Obligations.CrcReferenceValues := by
  simp only [Obligations.CrcReferenceValues, crcBytes_ref, List.foldl_cons, List.foldl_nil, step8_ref_trace, true_and]
  decide

end Sys2Proof.Machine
end

section
/-! `CCRC` (R148). -/

namespace Sys2Proof.Machine

theorem State.pbRange_eq_map (s : State) (a n : Nat) :
    s.pbRange a n = (List.range n).map fun i => s.pbRead (a + i) :=
  List.ext_getElem (by simp) fun i h _ => by simp [s.pbRange_getElem a n h]

theorem crcRange_refused {s : State} {b : Half} (h : s.cfg.pbCap < s.cur.toNat + b.toNat) :
    (crcRange b).run s = .error .overrun s := if_pos h

theorem crcRange_ok {s : State} {b : Half} (h : s.cur.toNat + b.toNat ≤ s.cfg.pbCap) :
    (crcRange b).run s = .ok () { s with crcout := s.crc s.cur.toNat b.toNat } := if_neg (Nat.not_lt.2 h)

/-- Settles O33: the bounds check passes and `CRCOUT` is written, or it ends the command as an overrun. -/
theorem ccrcComputes : Obligations.CcrcComputes := by
  intro s b
  refine ⟨fun h => ?_, fun h => runCommand_overrun (Micro.bind_error (crcRange_refused h))⟩
  rw [← State.pbRange_eq_map]
  have hrun : exec (.ccrc b) s = .next ({ s with crcout := s.crc s.cur.toNat b.toNat }.done .noError) :=
    runCommand_ok (Micro.bind_ok (crcRange_ok h))
  simpa [State.done, ErrCode.stickyMask, State.crc] using hrun

end Sys2Proof.Machine
end

section
/-! `CSET` and `CGET` (R174, R175). -/

namespace Sys2Proof.Machine

/-- A cursor inside the buffer advances without wrapping (R163). -/
theorem State.cur_succ_toNat {s : State} (hw : s.cfg.wf = true) (hc : s.cur.toNat < s.cfg.pbCap) :
    (s.cur + 1).toNat = s.cur.toNat + 1 := by
  have hcap := (Cfg.wf_facts hw).2.1
  rw [BitVec.toNat_add_of_lt]
  · rfl
  · simp only [BitVec.toNat_ofNat, BitVec.ofNat_eq_ofNat]
    omega

/-- The buffer after one byte has been written (R161). -/
theorem State.pbRead_write {s t : State} {a : Nat} {v : Byte} (h : t.pb = Memory.write s.pb a v)
    (hr : t.resets = s.resets) (x : Nat) : t.pbRead x = if x = a then v else s.pbRead x := by
  rw [State.pbRead, State.pbRead, h, hr]
  split
  · next hx => rw [hx, Memory.read_write_same, Option.getD_some]
  · next hx => rw [Memory.read_write_ne _ _ hx]

/-- Settles O31: `SET` passes its two bounds checks and writes at the cursor, or it ends the command as an overrun. -/
theorem csetWrites : Obligations.CsetWrites := by
  intro s a hw
  refine ⟨fun hrem hcur => ?_, fun h => runCommand_overrun (Micro.bind_error (setByte_refused a h))⟩
  refine ⟨_, runCommand_ok (Micro.bind_ok (setByte_ok a hrem hcur)), ?_, State.cur_succ_toNat hw hcur, ?_,
    State.pbRead_write rfl rfl⟩
  · simp [State.done, ErrCode.stickyMask]
  · have hsub : (s.rem - 1).toNat + 1 = s.rem.toNat := by bv_omega
    exact hsub

/-- Settles O32: `GET` passes its bounds check and its byte goes to `DATA`, or it ends the command as an overrun. -/
theorem cgetReads : Obligations.CgetReads := by
  intro s hw
  refine ⟨fun hcur => ⟨State.cur_succ_toNat hw hcur, ?_⟩,
    fun h => runCommand_overrun (Micro.bind_error (getByte_refused h))⟩
  have hrun : exec .cget s = .next ({ s with data := s.pbRead s.cur.toNat, cur := s.cur + 1 }.done .noError) :=
    runCommand_ok (Micro.bind_ok (getByte_ok hcur))
  simpa [State.done, ErrCode.stickyMask] using hrun

end Sys2Proof.Machine
end

section
/-! `CHECK` of a received string (R168, R173). -/

namespace Sys2Proof

theorem Cfg.wf_poly_odd {c : Cfg} (h : c.wf = true) : c.crcPoly.getLsbD 0 = true := by
  simp only [Cfg.wf, Cfg.polyOk, Bool.and_eq_true] at h
  obtain ⟨⟨⟨⟨⟨-, hodd, -⟩, -⟩, -⟩, -⟩, -⟩ := h
  exact hodd

end Sys2Proof

namespace Sys2Proof.Machine

/-! ### A sealed frame, byte by byte (R106) -/

section

variable {c : Cfg} {tr : Byte} {p : List Byte}

theorem rxFrame_take_header (hrx : c.hdrRx.length = c.hdrLen) : (rxFrame c tr p).take c.hdrLen = c.hdrRx := by
  rw [rxFrame, frameBytes, ← hrx, List.take_left]

theorem rxFrame_payload (hrx : c.hdrRx.length = c.hdrLen) {i : Nat} (hi : i < p.length) :
    (rxFrame c tr p)[c.hdrLen + 1 + i]? = p[i]? := by
  rw [rxFrame, frameBytes, List.getElem?_append_right (by omega), hrx,
    show c.hdrLen + 1 + i - c.hdrLen = i + 1 by omega, List.getElem?_cons_succ, List.getElem?_append_left hi]

theorem rxFrame_checksum (hrx : c.hdrRx.length = c.hdrLen) :
    (rxFrame c tr p)[c.hdrLen + 1 + p.length]? = some (crcBytes c p) := by
  rw [rxFrame, frameBytes, List.getElem?_append_right (by omega), hrx,
    show c.hdrLen + 1 + p.length - c.hdrLen = p.length + 1 by omega, List.getElem?_cons_succ,
    List.getElem?_append_right le_rfl, Nat.sub_self]
  rfl

/-- No sealed frame of the same length differs from a sealed frame in one byte: a difference in the payload shows in
the checksum, and frames with the same payload are the same (R146, R173). -/
theorem rxFrame_set_ne (hw : c.wf = true) {p' : List Byte} (hlen : p'.length = p.length) {k : Nat} {v : Byte}
    (hk : k < (rxFrame c tr p).length) (hv : (rxFrame c tr p)[k]? ≠ some v) :
    (rxFrame c tr p).set k v ≠ rxFrame c tr p' := by
  obtain ⟨-, -, -, -, hrx, -⟩ := Cfg.wf_facts hw
  intro heq
  have hat (i : Nat) (hi : i ≠ k) : (rxFrame c tr p')[i]? = (rxFrame c tr p)[i]? := by
    rw [← heq, List.getElem?_set_ne hi.symm]
  have hpay (j : Nat) (hj : j < p.length) (hjk : c.hdrLen + 1 + j ≠ k) : p'[j]? = p[j]? := by
    rw [← rxFrame_payload (c := c) (tr := tr) hrx hj, ← hat _ hjk, rxFrame_payload hrx (hlen ▸ hj)]
  have hne : p' ≠ p := by
    rintro rfl
    exact hv (by rw [← heq, List.getElem?_set_self hk])
  by_cases hin : ∃ j, j < p.length ∧ c.hdrLen + 1 + j = k
  · obtain ⟨j, hj, rfl⟩ := hin
    have hset : p' = p.set j v := by
      refine List.ext_getElem? fun i => ?_
      by_cases hij : i = j
      · rw [hij, List.getElem?_set_self hj, ← rxFrame_payload (c := c) (tr := tr) hrx (hlen ▸ hj), ← heq,
          List.getElem?_set_self hk]
      · rw [List.getElem?_set_ne (Ne.symm hij)]
        by_cases hi : i < p.length
        · exact hpay i hi (by omega)
        · rw [List.getElem?_eq_none (by omega), List.getElem?_eq_none (by omega)]
    have hsum := hat (c.hdrLen + 1 + p.length) (by omega)
    rw [rxFrame_checksum hrx, ← hlen, rxFrame_checksum hrx, Option.some.injEq, hset] at hsum
    have hv' : v = p[j] := (crcBytes_set_inj_iff (Cfg.wf_poly_odd hw) hj).1 (by rw [hsum, List.set_getElem_self])
    exact hne (by rw [hset, hv', List.set_getElem_self])
  · refine hne (List.ext_getElem? fun i => ?_)
    by_cases hi : i < p.length
    · exact hpay i hi fun h => hin ⟨i, hi, h⟩
    · rw [List.getElem?_eq_none (by omega), List.getElem?_eq_none (by omega)]

end

/-! ### The cursor -/

/-- One past the first header byte that differs (R168). -/
theorem checkCursor_differs {c : Cfg} (hrx : c.hdrRx.length = c.hdrLen) {len i : Nat} (cur : Half) {bs : List Byte}
    (hlen : len ≤ bs.length) (hhdr : c.hdrLen ≤ len) (hi : i < c.hdrLen) (htake : bs.take i = c.hdrRx.take i)
    (hne : bs[i]? ≠ c.hdrRx[i]?) : checkCursor c len cur (some bs) = BitVec.ofNat 16 (i + 1) := by
  rw [checkCursor, if_neg (Nat.not_lt.2 hlen), commonPrefix_eq htake (by omega) (by omega) hne]

/-- The cursor after `CHECK` of a frame with the expected header in which byte `k` has been changed. -/
theorem checkCursor_set {c : Cfg} (hrx : c.hdrRx.length = c.hdrLen) {k : Nat} (cur : Half) {bs : List Byte} {v : Byte}
    (hhdr : bs.take c.hdrLen = c.hdrRx) (hk : k < bs.length) (hv : bs[k]? ≠ some v) :
    checkCursor c bs.length cur (some (bs.set k v)) =
      BitVec.ofNat 16 ((if k < c.hdrLen then k else c.hdrLen) + 1) := by
  have hlen : c.hdrLen ≤ bs.length := by
    have := congrArg List.length hhdr
    rw [List.length_take, hrx] at this
    omega
  split
  · next h =>
    refine checkCursor_differs hrx cur (by simp) hlen h ?_ ?_
    · rw [List.take_set_of_le le_rfl, ← hhdr, List.take_take, Nat.min_eq_left h.le]
    · rw [List.getElem?_set_self hk, ← hhdr, List.getElem?_take_of_lt h]
      exact Ne.symm hv
  · next h => exact checkCursor_header cur (by simp) (by rw [List.take_set_of_le (by omega), hhdr]) hrx

/-- Settles O30: `checkFrame_store` with the cursor of each case; one changed byte leaves no sealed frame. -/
theorem checkAcceptsSealed : Obligations.CheckAcceptsSealed := by
  intro s tr n hw hcap
  obtain ⟨-, -, -, -, hrx, -⟩ := Cfg.wf_facts hw
  have hhdr : s.cfg.hdrLen ≤ frameLen s.cfg n := by simp only [frameLen]; omega
  refine ⟨fun bs hbs => ?_, fun bs hbs => ?_, fun p k v hp hk hv => ?_⟩
  · obtain ⟨b, hrun, hacc⟩ := checkFrame_store tr hw hcap hbs.le
    have hb : b = false := by
      refine Bool.eq_false_iff.2 fun h => ?_
      obtain ⟨p, hp, rfl⟩ := hacc.1 h
      rw [rxFrame_length hrx, hp] at hbs
      exact lt_irrefl _ hbs
    rw [hrun, hb, checkCursor, if_pos hbs]
    rfl
  · obtain ⟨b, hrun, hacc⟩ := checkFrame_store tr hw hcap hbs.le
    exact ⟨b, _, hrun, hacc, fun i hi => checkCursor_differs hrx s.cur hbs.ge hhdr hi,
      fun h => checkCursor_header s.cur hbs.ge h hrx⟩
  · have hlen : (rxFrame s.cfg tr p).length = frameLen s.cfg n := by rw [rxFrame_length hrx, hp]
    obtain ⟨b, hrun, hacc⟩ := checkFrame_store (bs := (rxFrame s.cfg tr p).set k v) tr hw hcap (by simp [hlen])
    have hb : b = false := by
      refine Bool.eq_false_iff.2 fun h => ?_
      obtain ⟨p', hp', heq⟩ := hacc.1 h
      exact rxFrame_set_ne hw (hp'.trans hp.symm) (hlen ▸ hk) hv heq
    rw [hrun, hb, ← hlen, checkCursor_set hrx s.cur (rxFrame_take_header hrx) (hlen ▸ hk) hv]
    rfl

end Sys2Proof.Machine
end

section
/-! One exchange, from the environment's answers (R171, R172): all it leaves, and what `START`, `STOP`, `CFGWIN` and a
change command that is not acknowledged make of it. -/

namespace Sys2Proof.Machine

/-! ### Whatever is answered -/

/-- All that an exchange leaves of `s`, the buffer included. -/
def State.exchanged (s : State) (tc : Byte) (p : List Byte) : State :=
  { s.afterExchange tc p with pb := s.exchangePb tc p }

theorem xack_exchange {s : State} (tc : Byte) {p : List Byte} (hw : s.cfg.wf = true)
    (hp : frameLen s.cfg p.length ≤ s.cfg.pbCap) : (xack tc p).run s = .ok (s.reply tc) (s.exchanged tc p) :=
  xack_run tc hw hp

/-- Of the state itself an exchange takes answers only. -/
theorem State.exchangeAnswered_same (s : State) : s.exchangeAnswered =
    { s with answers := s.exchangeAnswered.answers, draws := s.exchangeAnswered.draws } := by
  have same (u : State) : u.answered = { u with answers := u.answered.answers, draws := u.answered.draws } := by
    unfold State.answered
    cases u.answers <;> rfl
  unfold State.exchangeAnswered
  split
  · split
    · rw [same s.answered, same s]
    · exact same s
  · rfl

@[simp] theorem State.exchanged_esticky (s : State) (tc : Byte) (p : List Byte) :
    (s.exchanged tc p).esticky = s.esticky := by rw [State.exchanged, State.afterExchange, State.exchangeAnswered_same]

@[simp] theorem State.exchanged_phase (s : State) (tc : Byte) (p : List Byte) :
    (s.exchanged tc p).phase = s.phase := by rw [State.exchanged, State.afterExchange, State.exchangeAnswered_same]

@[simp] theorem State.exchanged_cfgLock (s : State) (tc : Byte) (p : List Byte) :
    (s.exchanged tc p).cfgLock = s.cfgLock := by rw [State.exchanged, State.afterExchange, State.exchangeAnswered_same]

@[simp] theorem State.exchanged_resets (s : State) (tc : Byte) (p : List Byte) :
    (s.exchanged tc p).resets = s.resets := by rw [State.exchanged, State.afterExchange, State.exchangeAnswered_same]

/-- The buffer an exchange leaves (R172). -/
theorem State.exchanged_holds (s : State) (tc : Byte) (p : List Byte) :
    (s.exchanged tc p).Holds s (overlay (s.exchangeReceived.getD []) (txFrame s.cfg tc p)) :=
  State.holds_overlay rfl (by simp)

/-! ### The commands that are one exchange -/

theorem start_allowed {p : Phase} (hp : p = .authenticated ∨ p = .stopped) :
    ¬ (p ≠ .authenticated ∧ p ≠ .stopped) := fun ⟨hauth, hstopped⟩ => hp.elim hauth hstopped

/-- `START` with a valid window (R203). -/
theorem startBody_exchange {s : State} (hw : s.cfg.wf = true) (hp : s.phase = .authenticated ∨ s.phase = .stopped)
    (hv : s.winValid = true) : startBody.run s = .ok (s.reply s.cfg.tcStart).toErr { s.exchanged s.cfg.tcStart [] with
      phase := if s.reply s.cfg.tcStart = .ok then .running else s.phase
      cfgLock := if s.reply s.cfg.tcStart = .ok then true else s.cfgLock } := by
  rw [startBody, Micro.get_bind, if_neg (start_allowed hp), if_pos hv,
    Micro.bind_ok (xack_exchange (p := []) s.cfg.tcStart hw (frameLen_zero_le hw))]
  have kept : s.exchanged s.cfg.tcStart [] =
      { s.exchanged s.cfg.tcStart [] with phase := s.phase, cfgLock := s.cfgLock } := by
    conv_rhs => rw [← s.exchanged_phase s.cfg.tcStart [], ← s.exchanged_cfgLock s.cfg.tcStart []]
  cases s.reply s.cfg.tcStart with
  | ok => rfl
  | tfail => exact congrArg _ kept
  | reject => exact congrArg _ kept

/-- `STOP` in Running (R204). -/
theorem stopBody_exchange {s : State} (hw : s.cfg.wf = true) (hp : s.phase = .running) :
    stopBody.run s = .ok (s.reply s.cfg.tcStop).toErr { s.exchanged s.cfg.tcStop [] with
      phase := if s.reply s.cfg.tcStop = .ok then .stopped else .running } := by
  rw [stopBody, Micro.get_bind, if_neg (not_not.2 hp),
    Micro.bind_ok (xack_exchange (p := []) s.cfg.tcStop hw (frameLen_zero_le hw))]
  have kept : s.exchanged s.cfg.tcStop [] = { s.exchanged s.cfg.tcStop [] with phase := .running } := by
    conv_rhs => rw [← hp, ← s.exchanged_phase s.cfg.tcStop []]
  cases s.reply s.cfg.tcStop with
  | ok => rfl
  | tfail => exact congrArg _ kept
  | reject => exact congrArg _ kept

theorem frameLen_window_le {s : State} (hw : s.cfg.wf = true) :
    frameLen s.cfg s.windowPayload.length ≤ s.cfg.pbCap := by
  have hcap := (Cfg.wf_facts hw).1
  simp only [State.windowPayload, frameLen, List.length_cons, List.length_nil]
  omega

/-- `CFGWIN_SUB` with a valid window (R200). -/
theorem cfgwinSub_exchange {s : State} (hw : s.cfg.wf = true) (hv : s.winValid = true) :
    cfgwinSub.run s = .ok (s.reply s.cfg.tcWindow).toErr (s.exchanged s.cfg.tcWindow s.windowPayload) := by
  rw [cfgwinSub, Micro.get_bind, if_pos hv, Micro.bind_ok (xack_exchange _ hw (frameLen_window_le hw))]
  rfl

/-- With an invalid window `CFGWIN_SUB` exchanges no frame (R200). -/
theorem cfgwinSub_invalid {s : State} (hv : s.winValid = false) : cfgwinSub.run s = .ok .configuration s := by
  rw [cfgwinSub, Micro.get_bind, if_neg (by simp [hv])]
  rfl

/-- `CFGWIN` in Authenticated is `CFGWIN_SUB` (R201). -/
theorem cfgwinBody_authenticated {s : State} (hp : s.phase = .authenticated) : cfgwinBody.run s = cfgwinSub.run s := by
  rw [cfgwinBody, Micro.get_bind, if_neg (not_not.2 hp)]

/-- `RENEG` in Authenticated is `RENEG_SUB` (R199). -/
theorem renegBody_authenticated {s : State} (hp : s.phase = .authenticated) : renegBody.run s = renegSub.run s := by
  rw [renegBody, Micro.get_bind, if_neg (not_not.2 hp)]

/-- `RENEG_SUB` up to the answer to its change command (R198). -/
theorem renegSub_change {s : State} (hw : s.cfg.wf = true) (hd : s.baudDes ≠ s.baudCur) : renegSub.run s =
    if s.reply s.cfg.tcBaud = .ok then
      (reconfigure s.baudCur s.baudDes).run (s.exchanged s.cfg.tcBaud (baudPayload s.baudDes))
    else .ok (s.reply s.cfg.tcBaud).toErr (s.exchanged s.cfg.tcBaud (baudPayload s.baudDes)) := by
  rw [renegSub, Micro.get_bind, if_neg hd,
    Micro.bind_ok (xack_exchange (p := baudPayload s.baudDes) s.cfg.tcBaud hw (frameLen_ack_le hw))]
  cases s.reply s.cfg.tcBaud <;> rfl

/-- Settles O55: `startBody_exchange`; without a valid window the body ends before its exchange. -/
theorem startRuns : Obligations.StartRuns := by
  intro s hw hp
  refine ⟨fun hv => runCommand_ok ?_, fun hv => ?_⟩
  · rw [startBody, Micro.get_bind, if_neg (start_allowed hp), if_neg (by simp [hv])]
    rfl
  · refine ⟨_, runCommand_ok (startBody_exchange hw hp hv), ?_, State.exchanged_holds s s.cfg.tcStart []⟩
    rw [State.done, State.exchanged_esticky]
    rfl

/-- Settles O52: the change command's exchange is all of `RENEG_SUB` when it is not acknowledged. -/
theorem renegNotAcknowledged : Obligations.RenegNotAcknowledged := by
  intro s hw hp hd hr
  have hrun := renegSub_change hw hd
  rw [if_neg hr, ← renegBody_authenticated hp] at hrun
  refine ⟨_, runCommand_ok hrun, ?_, State.exchanged_holds s s.cfg.tcBaud (baudPayload s.baudDes)⟩
  rw [State.done, State.exchanged_esticky]
  rfl

/-! ### With the send answered `ok` -/

/-- All that an exchange leaves when its send succeeds and its receive comes to `received`, with the answers `rest`
still to come. -/
def State.exchangedWith (s : State) (tc : Byte) (p : List Byte) (received : Option (List Byte)) (rest : List Answer) :
    State :=
  { s with
    answers := rest
    trace := s.trace ++ [.tSend (txFrame s.cfg tc p) true, .tRecv (frameLen s.cfg 1) s.cfg.rxTimeout received]
    pb := Memory.writeList (Memory.writeList s.pb 0 (txFrame s.cfg tc p)) 0 (received.getD [])
    cur := ackCursor s.cfg (frameLen s.cfg p.length) received
    rem := 0
    rxlen := rxlenAfter s.rxlen received
    txlen := BitVec.ofNat 16 (frameLen s.cfg p.length) }

theorem State.exchangedWith_holds (s : State) (tc : Byte) (p : List Byte) (received : Option (List Byte))
    (rest : List Answer) :
    (s.exchangedWith tc p received rest).Holds s (overlay (received.getD []) (txFrame s.cfg tc p)) :=
  State.holds_overlay rfl rfl

section

variable {s : State} {b : List Byte} {r : Answer} {rest : List Answer}

theorem State.answered_nextAnswer (hans : s.answers = .ok b :: r :: rest) : s.answered.nextAnswer = r :=
  State.nextAnswer_of_cons (by rw [State.answered_of_cons hans])

theorem State.exchanged_eq_exchangedWith (tc : Byte) (p : List Byte) (ht : s.topen = true)
    (hans : s.answers = .ok b :: r :: rest) :
    s.exchanged tc p = s.exchangedWith tc p (r.received (frameLen s.cfg 1)) rest := by
  have hsend : s.nextAnswer = .ok b := State.nextAnswer_of_cons hans
  have hrecv := State.answered_nextAnswer hans
  have hreceived : s.exchangeReceived = r.received (frameLen s.cfg 1) := by
    simp [State.exchangeReceived, ht, hsend, hrecv, Answer.isOk]
  have hanswered : s.exchangeAnswered = { s with answers := rest } := by
    rw [State.exchangeAnswered, if_pos ht, hsend, Answer.isOk, if_pos rfl, State.answered_of_cons hans,
      State.answered_of_cons rfl]
  have hcalls : s.exchangeCalls tc p = [.tSend (txFrame s.cfg tc p) true,
      .tRecv (frameLen s.cfg 1) s.cfg.rxTimeout (r.received (frameLen s.cfg 1))] := by
    simp [State.exchangeCalls, ht, hsend, hrecv]
  rw [State.exchanged, State.afterExchange, State.exchangePb, hreceived, hanswered, hcalls]
  rfl

/-- Such an exchange is acknowledged exactly when what it receives is the ACK frame (R171). -/
theorem State.reply_eq_ok_iff (tc : Byte) (ht : s.topen = true) (hans : s.answers = .ok b :: r :: rest) :
    s.reply tc = .ok ↔ r.received (frameLen s.cfg 1) = some (ackFrame s.cfg tc) := by
  rw [State.reply, if_pos ht, State.nextAnswer_of_cons hans, State.answered_nextAnswer hans]
  cases r with
  | fail => simp [Answer.received]
  | ok bs => simp [Answer.received]

/-- A string received that is not the ACK frame is rejected (R171). -/
theorem State.reply_eq_reject (tc : Byte) {bs : List Byte} (ht : s.topen = true)
    (hans : s.answers = .ok b :: .ok bs :: rest) (hne : bs.take (frameLen s.cfg 1) ≠ ackFrame s.cfg tc) :
    s.reply tc = .reject := by
  rw [State.reply, if_pos ht, State.nextAnswer_of_cons hans, State.answered_nextAnswer hans]
  exact if_neg hne

end

/-! ### Acknowledged -/

theorem ackFrame_length {c : Cfg} (hw : c.wf = true) (tc : Byte) : (ackFrame c tc).length = c.hdrLen + 3 := by
  obtain ⟨-, -, -, -, hrx, -⟩ := Cfg.wf_facts hw
  exact rxFrame_length hrx c.trAck [tc]

theorem ackFrame_take {c : Cfg} (hw : c.wf = true) (tc : Byte) :
    (ackFrame c tc).take (frameLen c 1) = ackFrame c tc := List.take_of_length_le (ackFrame_length hw tc).le

/-- All that an acknowledged exchange leaves. -/
def State.acked (s : State) (tc : Byte) (p : List Byte) (rest : List Answer) : State :=
  { s with
    answers := rest
    trace := s.trace ++ ackCalls s.cfg tc p (ackFrame s.cfg tc)
    pb := Memory.writeList (Memory.writeList s.pb 0 (txFrame s.cfg tc p)) 0 (ackFrame s.cfg tc)
    cur := BitVec.ofNat 16 (s.cfg.hdrLen + 2)
    rem := 0
    rxlen := BitVec.ofNat 16 (s.cfg.hdrLen + 3)
    txlen := BitVec.ofNat 16 (s.cfg.hdrLen + 2 + p.length) }

theorem State.acked_holds (s : State) (tc : Byte) (p : List Byte) (rest : List Answer) :
    (s.acked tc p rest).Holds s (overlay (ackFrame s.cfg tc) (txFrame s.cfg tc p)) :=
  State.holds_overlay rfl rfl

section

variable {s : State} {tc : Byte} {b : List Byte} {rest : List Answer}

theorem State.exchangedWith_ack (hw : s.cfg.wf = true) (tc : Byte) (p : List Byte) (rest : List Answer) :
    s.exchangedWith tc p (some (ackFrame s.cfg tc)) rest = s.acked tc p rest := by
  rw [State.exchangedWith, ackCursor_ack hw, rxlenAfter, ackFrame_length hw]
  rfl

theorem State.exchanged_eq_acked (hw : s.cfg.wf = true) (p : List Byte) (ht : s.topen = true)
    (hans : s.answers = .ok b :: .ok (ackFrame s.cfg tc) :: rest) : s.exchanged tc p = s.acked tc p rest := by
  rw [State.exchanged_eq_exchangedWith tc p ht hans, Answer.received, ackFrame_take hw, State.exchangedWith_ack hw]

theorem State.reply_eq_ok (hw : s.cfg.wf = true) (ht : s.topen = true)
    (hans : s.answers = .ok b :: .ok (ackFrame s.cfg tc) :: rest) : s.reply tc = .ok := by
  rw [State.reply_eq_ok_iff tc ht hans, Answer.received, ackFrame_take hw]

end

/-- Settles O57: each of the three commands is one exchange, and that exchange is acknowledged. -/
theorem acknowledgedCommands : Obligations.AcknowledgedCommands := by
  rintro s b0 rest i tc payload p lock hw ht hv hcmd hans
  have hexch := State.exchanged_eq_acked hw payload ht hans
  have hreply := State.reply_eq_ok hw ht hans
  suffices hexec : exec i s = .next ({ s.acked tc payload rest with phase := p, cfgLock := lock }.done .noError) by
    refine ⟨_, hexec, ?_, State.acked_holds s tc payload rest⟩
    simp [State.done, ErrCode.stickyMask, State.acked]
  rcases hcmd with ⟨rfl, hp, rfl, rfl, rfl, rfl⟩ | ⟨rfl, hp, rfl, rfl, rfl, rfl⟩ | ⟨rfl, hp, rfl, rfl, rfl, rfl⟩
  · have hrun := cfgwinSub_exchange hw hv
    rw [hexch, hreply, ← cfgwinBody_authenticated hp] at hrun
    refine (runCommand_ok hrun).trans ?_
    rw [← hp]
    rfl
  · have hrun := startBody_exchange hw hp hv
    rw [hexch, hreply] at hrun
    exact runCommand_ok hrun
  · have hrun := stopBody_exchange hw hp
    rw [hexch, hreply] at hrun
    exact runCommand_ok hrun

end Sys2Proof.Machine
end

section
/-! A `STEP` in Running that fails (R168, R240, R242). -/

namespace Sys2Proof.Machine

/-- All that a receive of a scan of `n` samples leaves when its string, if one comes, is not accepted (R167, R168). -/
def State.scanRefused (u : State) (n : Nat) : State :=
  { u.answered with
    trace := u.trace ++ [.tRecv (u.cfg.hdrLen + 3 + 2 * n) u.cfg.rxTimeout
      (u.nextAnswer.received (u.cfg.hdrLen + 3 + 2 * n))]
    pb := Memory.writeList u.pb 0 ((u.nextAnswer.received (u.cfg.hdrLen + 3 + 2 * n)).getD [])
    cur := checkCursor u.cfg (u.cfg.hdrLen + 3 + 2 * n) u.cur (u.nextAnswer.received (u.cfg.hdrLen + 3 + 2 * n))
    rxlen := rxlenAfter u.rxlen (u.nextAnswer.received (u.cfg.hdrLen + 3 + 2 * n)) }

theorem acquire_failed {u t : State} {n : Nat} {e : ErrCode} (hw : u.cfg.wf = true)
    (hcap : u.cfg.hdrLen + 3 + 2 * n ≤ u.cfg.pbCap) (ht : u.topen = true) (hrun : (acquire n).run u = .ok e t)
    (he : e ≠ .noError) : t = u.scanRefused n := by
  cases ha : u.nextAnswer with
  | fail =>
    obtain ⟨-, rfl⟩ := EStateM.Result.ok.inj ((acquire_fail n ht ha).symm.trans hrun)
    rw [State.polled, State.scanRefused, ha]
    simp [Answer.received, checkCursor, rxlenAfter, Memory.writeList, State.traced]
  | ok bs =>
    rcases acquire_received n hw hcap ht ha with ⟨f, ws, -, -, haccepted⟩ | ⟨-, hrejected⟩
    · exact absurd (EStateM.Result.ok.inj (haccepted.symm.trans hrun)).1.symm he
    · obtain ⟨-, rfl⟩ := EStateM.Result.ok.inj (hrejected.symm.trans hrun)
      rw [State.gotAt, State.polled, State.scanRefused, ha]
      simp [Answer.received, rxlenAfter, State.traced, State.store, State.withCur]

/-- All that a failed `STEP` in Running leaves. -/
def State.stepFailed (s : State) : State :=
  { s.stepAnswered with
    trace := s.trace ++ s.stepCalls
    pb := Memory.writeList (Memory.writeList s.pb 0 s.pollFrame) 0 (s.scanReceived.getD [])
    cur := checkCursor s.cfg s.scanLen (if s.cfg.polling then BitVec.ofNat 16 (s.cfg.hdrLen + 2) else s.cur)
      s.scanReceived
    rem := if s.cfg.polling then 0 else s.rem
    rxlen := rxlenAfter s.rxlen s.scanReceived
    txlen := if s.cfg.polling then BitVec.ofNat 16 (s.cfg.hdrLen + 2) else s.txlen }

theorem State.stepFailed_esticky (s : State) : s.stepFailed.esticky = s.esticky := by
  simp only [State.stepFailed, State.stepAnswered, State.pollAnswered]
  split_ifs <;> simp

theorem State.stepFailed_resets (s : State) : s.stepFailed.resets = s.resets := by
  simp only [State.stepFailed, State.stepAnswered, State.pollAnswered]
  split_ifs <;> simp

/-- Without the transport, or when the poll's send fails, no receive is made (R82, R240). -/
theorem stepBody_not_asked {s : State} (hw : s.cfg.wf = true) (hp : s.phase = .running) (hasks : ¬ s.AsksScan) :
    stepBody.run s = .ok .transport s.stepFailed := by
  have hcap := frameLen_zero_le hw
  rw [stepBody, Micro.get_bind, if_neg (not_not.2 hp)]
  cases ht : s.topen with
  | false =>
    have hreceived : s.scanReceived = none := by rw [State.scanReceived, ht]; rfl
    have hn : ¬ s.topen = true := by simp [ht]
    rw [State.stepFailed, State.stepAnswered, if_neg hn, State.stepCalls, if_neg hn, hreceived, List.append_nil,
      State.pollFrame]
    cases s.cfg.polling with
    | false => exact acquire_released _ ht
    | true =>
      rw [if_pos rfl, Micro.bind_ok (encodeFrame_ok (p := []) _ hw hcap), Micro.bind_ok (encode_send_released _ ht)]
      rfl
  | true =>
    obtain ⟨hpoll, hfail⟩ := (s.not_asksScan.1 hasks).resolve_left (by simp [ht])
    have hno : s.nextAnswer.isOk = false := by rw [hfail]; rfl
    have hreceived : s.scanReceived = none := by rw [State.scanReceived, ht, hpoll, hno]; rfl
    rw [if_pos hpoll, Micro.bind_ok (encodeFrame_ok (p := []) _ hw hcap),
      Micro.bind_ok (encode_send (p := []) _ hw hcap ht), State.stepFailed, hreceived, State.stepAnswered,
      State.stepCalls, State.pollFrame, if_pos ht, if_pos ht, hpoll, hno, State.sent_eq, hno]
    simp [checkCursor, rxlenAfter, Memory.writeList, frameLen]

/-- After a poll, if there is one, the receive is refused. -/
theorem State.scanAsked_refused {s : State} (hasks : s.AsksScan) : s.scanAsked.scanRefused s.dcount = s.stepFailed := by
  obtain ⟨ht, hpoll⟩ := hasks
  have hsend : (s.cfg.polling && !s.nextAnswer.isOk) = false := by
    cases h : s.cfg.polling with
    | false => rfl
    | true => simp [(Answer.isOk_iff _).2 (hpoll h)]
  have hreceived : s.scanReceived = s.pollAnswered.nextAnswer.received s.scanLen := by
    have hasked : (!s.cfg.polling || s.nextAnswer.isOk) = true := by
      rw [← Bool.not_not (!_ || _), Bool.not_or, Bool.not_not, hsend]
      rfl
    rw [State.scanReceived, ht, hasked, Bool.and_self, if_pos rfl]
  have hrx : s.pollAnswered.rxlen = s.rxlen := by
    simp only [State.pollAnswered]
    split <;> simp
  have hanswered : s.stepAnswered = s.pollAnswered.answered := by
    rw [State.stepAnswered, if_pos ht, if_neg (ne_true_of_eq_false hsend)]
  have hcalls : s.stepCalls = (if s.cfg.polling then [.tSend (txFrame s.cfg s.cfg.tcPoll []) true] else []) ++
      [.tRecv s.scanLen s.cfg.rxTimeout s.scanReceived] := by
    rw [State.stepCalls, if_pos ht, if_neg (ne_true_of_eq_false hsend), hreceived]
    cases h : s.cfg.polling with
    | false => rfl
    | true => simp [(Answer.isOk_iff _).2 (hpoll h)]
  have hnext : s.scanAsked.nextAnswer = s.pollAnswered.nextAnswer := rfl
  rw [State.scanRefused, State.scanAsked_cfg, hnext, ← State.scanLen, ← hreceived, State.stepFailed, hanswered, hcalls,
    ← List.append_assoc, State.scanAsked, State.answered_update, hrx]

/-- Settles O59: a failed receive by `acquire_failed`, none at all by `stepBody_not_asked`. -/
theorem failedStepKeepsScan : Obligations.FailedStepKeepsScan := by
  intro s t hw hp hexec herr
  obtain ⟨e, u, hrun, -⟩ := stepBody_running hw hp
  obtain rfl : u.done e = t := Host.Outcome.next.inj ((runCommand_ok hrun).symm.trans hexec)
  have hu : u = s.stepFailed := by
    by_cases hasks : s.AsksScan
    · rw [stepBody_asked hw hp hasks] at hrun
      rw [acquire_failed (by simpa using hw) (by simpa using s.scanLen_le hw) (by simpa using hasks.1) hrun herr,
        State.scanAsked_refused hasks]
    · exact (EStateM.Result.ok.inj (hrun.symm.trans (stepBody_not_asked hw hp hasks))).2
  rw [hu]
  refine ⟨?_, State.holds_overlay rfl s.stepFailed_resets⟩
  rw [State.done, State.stepFailed_esticky]
  rfl

end Sys2Proof.Machine
end

section
/-! The transport closed and opened again (R80, R198), and a renegotiation that reverts. -/

namespace Sys2Proof.Machine

/-! ### Strings laid one over another (R172) -/

theorem overlay_length (received sent : List Byte) :
    (overlay received sent).length = max received.length sent.length := by
  rw [overlay, List.length_append, List.length_drop]
  omega

theorem overlay_assoc (top middle under : List Byte) :
    overlay (overlay top middle) under = overlay top (overlay middle under) := by
  have hlen := overlay_length top middle
  rw [overlay, hlen, overlay, overlay, overlay, List.append_assoc, List.drop_append, List.drop_drop]
  congr 3
  omega

/-- A string at least as long as the one below it hides it, whatever is below both. -/
theorem overlay_hides {top middle : List Byte} (under : List Byte) (h : middle.length ≤ top.length) :
    overlay top (overlay middle under) = overlay top under := by
  rw [← overlay_assoc, overlay_eq_left h]

theorem State.Holds.trans {s t u : State} {lower upper : List Byte} (h : t.Holds s lower) (k : u.Holds t upper) :
    u.Holds s (overlay upper lower) := by
  intro a
  rw [k a, h a, overlay, List.getD_eq_getElem?_getD, List.getD_eq_getElem?_getD, List.getD_eq_getElem?_getD,
    List.getElem?_append]
  split
  · next ha => rw [List.getElem?_eq_getElem ha]; rfl
  · next ha =>
    rw [List.getElem?_eq_none (Nat.not_lt.1 ha), List.getElem?_drop, Nat.add_sub_cancel' (Nat.not_lt.1 ha)]
    rfl

/-- Reading the buffer depends on nothing but the buffer and the free values of its unwritten bytes. -/
theorem State.Holds.congr {s t u : State} {bs : List Byte} (h : t.Holds s bs) (hpb : u.pb = t.pb)
    (hr : u.resets = t.resets) : u.Holds s bs := fun a => by
  rw [← h a, State.pbRead, State.pbRead, hpb, hr]

/-! ### Closing and opening -/

/-- The transport closed (R80). -/
def State.closed (s : State) : State := { s with topen := false, trace := s.trace ++ [.tClose] }

theorem tClose_run (s : State) : tClose.run s = .ok () s.closed := rfl

/-- `T_OPEN` with its answer listed (R80). -/
theorem tOpen_listed {s : State} {a : Answer} {rest : List Answer} (c : BitVec 3) (hans : s.answers = a :: rest) :
    (tOpen c).run s = .ok a.isOk
      { s with answers := rest, trace := s.trace ++ [.tOpen s.cfg.deviceId (rate c) a.isOk] } := by
  rw [tOpen_run, State.opened, State.nextAnswer_of_cons hans, State.answered_of_cons hans]
  rfl

/-- The transport closed and opened again at code `c` (R193, R198). -/
def State.reopened (s : State) (c : BitVec 3) (rest : List Answer) : State :=
  { s with
    topen := true, baudCur := c, answers := rest
    trace := s.trace ++ [.tClose, .tOpen s.cfg.deviceId (rate c) true] }

/-- The answer to `T_OPEN` decides how the command goes on (R193, R198). -/
theorem reopen_run {α : Type} {s : State} {b : List Byte} {rest : List Answer} (c : BitVec 3) (next other : Micro α)
    (hans : s.answers = .ok b :: rest) :
    EStateM.run (do
      tClose
      let opened ← tOpen c
      if opened then do
        holdTransport
        setBaudCur c
        next
      else other) s = next.run (s.reopened c rest) := by
  rw [Micro.bind_ok (tClose_run s), Micro.bind_ok (tOpen_listed (s := s.closed) c hans)]
  simp only [State.reopened, State.closed, List.append_assoc]
  rfl

/-! ### RENEG_SUB (R198) -/

section

variable {s : State} {old new : BitVec 3} {b : List Byte} {last : Answer} {rest : List Answer}

/-- The revert, by the answer to its `T_OPEN`. -/
theorem revert_run (ht : s.topen = false) (hans : s.answers = last :: rest) : (revert old).run s =
    .ok (if last.isOk then .configuration else .transport) { s with
      topen := last.isOk, baudCur := old, answers := rest
      trace := s.trace ++ [.tOpen s.cfg.deviceId (rate old) last.isOk] } := by
  have hset : (setBaudCur old).run s = .ok () { s with baudCur := old } := rfl
  rw [revert, Micro.bind_ok hset, Micro.bind_ok (tOpen_listed (s := { s with baudCur := old }) old hans)]
  cases last with
  | fail =>
    have hkept : s = { s with topen := false } := by rw [← ht]
    rw [hkept]
    rfl
  | ok bs => rfl

/-- A verification that is not acknowledged closes the transport and reverts. -/
theorem verify_failed (hw : s.cfg.wf = true) (hr : s.reply s.cfg.tcProbe ≠ .ok) :
    (verify old).run s = (revert old).run (s.exchanged s.cfg.tcProbe []).closed := by
  rw [verify, Micro.get_bind, Micro.bind_ok (xack_exchange (p := []) s.cfg.tcProbe hw (frameLen_zero_le hw))]
  cases h : s.reply s.cfg.tcProbe with
  | ok => exact absurd h hr
  | tfail => exact Micro.bind_ok (tClose_run _)
  | reject => exact Micro.bind_ok (tClose_run _)

/-- An acknowledged verification is all of it. -/
theorem verify_acked (hw : s.cfg.wf = true) (hr : s.reply s.cfg.tcProbe = .ok) :
    (verify old).run s = .ok .noError (s.exchanged s.cfg.tcProbe []) := by
  rw [verify, Micro.get_bind, Micro.bind_ok (xack_exchange (p := []) s.cfg.tcProbe hw (frameLen_zero_le hw)), hr]
  rfl

theorem reconfigure_opened (hans : s.answers = .ok b :: rest) :
    (reconfigure old new).run s = (verify old).run (s.reopened new rest) := reopen_run new _ _ hans

/-- The new rate cannot be opened. -/
theorem reconfigure_refused (hans : s.answers = .fail :: rest) : (reconfigure old new).run s =
    (revert old).run { s.closed with
      answers := rest, trace := s.closed.trace ++ [.tOpen s.cfg.deviceId (rate new) false] } := by
  rw [reconfigure, Micro.bind_ok (tClose_run s), Micro.bind_ok (tOpen_listed (s := s.closed) new hans)]
  rfl

/-- `RENEG_SUB` goes on with the block's own move once the change command is acknowledged. -/
theorem renegSub_acked (hw : s.cfg.wf = true) (ht : s.topen = true) (hd : s.baudDes ≠ s.baudCur)
    (hans : s.answers = .ok b :: .ok (ackFrame s.cfg s.cfg.tcBaud) :: rest) : renegSub.run s =
      (reconfigure s.baudCur s.baudDes).run (s.acked s.cfg.tcBaud (baudPayload s.baudDes) rest) := by
  rw [renegSub_change hw hd, if_pos (State.reply_eq_ok hw ht hans), State.exchanged_eq_acked hw _ ht hans]

/-- The buffer of a change command that is acknowledged: the ACK frame is as long as the frame it answers. -/
theorem State.acked_baud_holds (hw : s.cfg.wf = true) (c : BitVec 3) (rest : List Answer) :
    (s.acked s.cfg.tcBaud (baudPayload c) rest).Holds s (ackFrame s.cfg s.cfg.tcBaud) := by
  obtain ⟨-, -, -, htx, -⟩ := Cfg.wf_facts hw
  have h := s.acked_holds s.cfg.tcBaud (baudPayload c) rest
  rwa [overlay_eq_left (by rw [txFrame_length htx, ackFrame_length hw]; exact le_rfl)] at h

end

/-- An exchange whose send fails (R171). -/
theorem State.exchanged_of_send_failed {s : State} {rest : List Answer} (tc : Byte) (p : List Byte)
    (ht : s.topen = true) (hans : s.answers = .fail :: rest) : s.reply tc ≠ .ok ∧ s.exchanged tc p =
      { s.exchangedWith tc p none rest with trace := s.trace ++ [.tSend (txFrame s.cfg tc p) false] } := by
  have hsend : s.nextAnswer = .fail := State.nextAnswer_of_cons hans
  have hno : ¬ s.nextAnswer.isOk = true := by rw [hsend]; simp [Answer.isOk]
  have hreceived : s.exchangeReceived = none := by rw [State.exchangeReceived, ht, hsend]; rfl
  have hanswered : s.exchangeAnswered = { s with answers := rest } := by
    rw [State.exchangeAnswered, if_pos ht, if_neg hno, State.answered_of_cons hans]
  have hcalls : s.exchangeCalls tc p = [.tSend (txFrame s.cfg tc p) false] := by
    simp [State.exchangeCalls, ht, hsend]
  constructor
  · simp [State.reply, ht, hsend]
  · rw [State.exchanged, State.afterExchange, State.exchangePb, hreceived, hanswered, hcalls]
    rfl

/-- The state in which the new rate is verified: the change command acknowledged, the transport opened again (R198). -/
def State.moved (s : State) (b : List Byte) (more : List Answer) : State :=
  (s.acked s.cfg.tcBaud (baudPayload s.baudDes) (.ok b :: more)).reopened s.baudDes more

theorem State.moved_holds {s : State} (hw : s.cfg.wf = true) (b : List Byte) (more : List Answer) :
    (s.moved b more).Holds s (ackFrame s.cfg s.cfg.tcBaud) :=
  (State.acked_baud_holds hw s.baudDes (.ok b :: more)).congr rfl rfl

/-- Where a renegotiation of `s` that has failed at the new rate stands: the transport closed and the calls `calls`
made since the change command was acknowledged, the last exchange having sent `sent` bytes and received `received` over
the buffer `under`, the answers `rest` still to come. -/
structure Reverting (s : State) (calls : List Call) (sent : Nat) (under : List Byte) (received : Option (List Byte))
    (rest : List Answer) (u : State) : Prop where
  run : renegSub.run s = (revert s.baudCur).run u
  same : u = { s with
    topen := false, baudCur := u.baudCur, answers := rest
    trace := s.trace ++ ackCalls s.cfg s.cfg.tcBaud (baudPayload s.baudDes) (ackFrame s.cfg s.cfg.tcBaud) ++
      .tClose :: calls
    pb := u.pb, cur := ackCursor s.cfg (s.cfg.hdrLen + 2) received, rem := 0
    rxlen := rxlenAfter (BitVec.ofNat 16 (s.cfg.hdrLen + 3)) received, txlen := BitVec.ofNat 16 sent }
  holds : u.Holds s (overlay (received.getD []) under)

section

variable {s : State} {b0 b1 : List Byte} {more rest : List Answer}

/-- The new rate cannot be opened. -/
theorem Reverting.of_refused (hw : s.cfg.wf = true) (ht : s.topen = true) (hd : s.baudDes ≠ s.baudCur)
    (hans : s.answers = .ok b0 :: .ok (ackFrame s.cfg s.cfg.tcBaud) :: .fail :: rest) :
    ∃ u, Reverting s [.tOpen s.cfg.deviceId (rate s.baudDes) false] (s.cfg.hdrLen + 3)
      (ackFrame s.cfg s.cfg.tcBaud) none rest u := by
  refine ⟨_, (renegSub_acked hw ht hd hans).trans (reconfigure_refused rfl), ?_,
    (State.acked_baud_holds hw s.baudDes (.fail :: rest)).congr rfl rfl⟩
  simp [State.acked, State.closed, rxlenAfter, baudPayload]

/-- The new rate is opened, and the probe's exchange is not acknowledged. -/
theorem Reverting.of_probe {received : Option (List Byte)} {calls : List Call} {v : State} (hw : s.cfg.wf = true)
    (ht : s.topen = true) (hd : s.baudDes ≠ s.baudCur)
    (hans : s.answers = .ok b0 :: .ok (ackFrame s.cfg s.cfg.tcBaud) :: .ok b1 :: more)
    (hv : v = s.moved b1 more)
    (hr : v.reply s.cfg.tcProbe ≠ .ok)
    (hexch : v.exchanged s.cfg.tcProbe [] =
      { v.exchangedWith s.cfg.tcProbe [] received rest with trace := v.trace ++ calls }) :
    ∃ u, Reverting s (.tOpen s.cfg.deviceId (rate s.baudDes) true :: calls ++ [.tClose]) (s.cfg.hdrLen + 2)
      (overlay (txFrame s.cfg s.cfg.tcProbe []) (ackFrame s.cfg s.cfg.tcBaud)) received rest u := by
  have hcfg : v.cfg = s.cfg := by rw [hv]; rfl
  have hrun : renegSub.run s = (verify s.baudCur).run v :=
    hv ▸ (renegSub_acked hw ht hd hans).trans (reconfigure_opened rfl)
  rw [← hcfg] at hr hw
  have hfailed := verify_failed (old := s.baudCur) hw hr
  rw [hcfg, hexch] at hfailed
  refine ⟨_, hrun.trans hfailed, ?_, ?_⟩
  · rw [hv]
    simp [State.closed, State.exchangedWith, State.moved, State.reopened, State.acked, frameLen]
  · have hunder : v.Holds s (ackFrame s.cfg s.cfg.tcBaud) := by
      rw [hv]
      exact State.moved_holds (hcfg ▸ hw) b1 more
    have hprobe := hunder.trans (v.exchangedWith_holds s.cfg.tcProbe [] received rest)
    rw [hcfg, overlay_assoc] at hprobe
    exact hprobe.congr rfl rfl

end

/-- Settles O53: in each of the three ways to fail `RENEG_SUB` comes to the same revert. -/
theorem renegReverts : Obligations.RenegReverts := by
  intro s b0 b1 b2 last r rest tries calls sent under received hw hp ht hd hr hmem hans
  suffices hrev : ∃ u, Reverting s calls sent under received (last :: rest) u by
    obtain ⟨u, hrun, hsame, hholds⟩ := hrev
    have hback : u.topen = false := by rw [hsame]
    have hanswers : u.answers = last :: rest := by rw [hsame]
    rw [revert_run hback hanswers, ← renegBody_authenticated hp] at hrun
    refine ⟨_, runCommand_ok hrun, ?_, hholds.congr rfl rfl⟩
    rw [hsame]
    cases last <;> simp [State.done, Answer.isOk, ErrCode.stickyMask]
  simp only [List.mem_cons, Prod.mk.injEq, List.not_mem_nil, or_false] at hmem
  rcases hmem with ⟨rfl, rfl, rfl, rfl, rfl⟩ | ⟨rfl, rfl, rfl, rfl, rfl⟩ | ⟨rfl, rfl, rfl, rfl, rfl⟩
  · exact Reverting.of_refused hw ht hd hans
  · obtain ⟨hno, hexch⟩ := State.exchanged_of_send_failed (s := s.moved b1 (.fail :: last :: rest)) s.cfg.tcProbe []
      rfl rfl
    exact Reverting.of_probe hw ht hd hans rfl hno hexch
  · have hack := State.reply_eq_ok_iff (s := s.moved b1 (.ok b2 :: r :: last :: rest)) s.cfg.tcProbe rfl rfl
    exact Reverting.of_probe hw ht hd hans rfl (mt hack.1 hr)
      (State.exchanged_eq_exchangedWith s.cfg.tcProbe [] rfl rfl)

end Sys2Proof.Machine
end

section
/-! `OPEN` up to the password's echo (R191, R193, R194): detection, then one PASSWD exchange. -/

namespace Sys2Proof.Machine

/-! ### Probing (R193) -/

/-- What a run of probes has made of `s` when the last one, at code `c`, was sent and received `x`: the calls `calls`
made, the answers `more` still to come. No probe's frames reach beyond the ACK frame's length. -/
structure Probed (s : State) (c : BitVec 3) (x : List Byte) (calls : List Call) (more : List Answer) (t : State) :
    Prop where
  same : t = { s with
    topen := true, baudCur := c, answers := more, trace := s.trace ++ calls, pb := t.pb
    cur := ackCursor s.cfg (s.cfg.hdrLen + 2) (some (x.take (frameLen s.cfg 1))), rem := 0
    rxlen := BitVec.ofNat 16 (x.take (frameLen s.cfg 1)).length, txlen := BitVec.ofNat 16 (s.cfg.hdrLen + 2) }
  holds : ∃ under, under.length ≤ frameLen s.cfg 1 ∧ t.Holds s (overlay (x.take (frameLen s.cfg 1)) under)

section

variable {s t u : State} {c d : BitVec 3} {x y b0 b1 : List Byte} {calls calls' : List Call} {more rest : List Answer}

theorem Probed.cfg_eq (h : Probed s c x calls more t) : t.cfg = s.cfg := by rw [h.same]

theorem Probed.answers_eq (h : Probed s c x calls more t) : t.answers = more := by rw [h.same]

theorem Probed.topen_eq (h : Probed s c x calls more t) : t.topen = true := by rw [h.same]

theorem Probed.trans (h : Probed s c x calls more t) (k : Probed t d y calls' rest u) :
    Probed s d y (calls ++ calls') rest u := by
  have hcfg := h.cfg_eq
  obtain ⟨under, hlen, hholds⟩ := h.holds
  obtain ⟨under', hlen', hholds'⟩ := k.holds
  rw [hcfg] at hlen' hholds'
  refine ⟨?_, overlay under' (overlay (x.take (frameLen s.cfg 1)) under), ?_, ?_⟩
  · rw [k.same, hcfg, h.same]
    simp
  · simp only [overlay_length, List.length_take]
    omega
  · rw [← overlay_assoc]
    exact hholds.trans hholds'

/-- One probe's exchange. -/
theorem probed_exchange (hw : s.cfg.wf = true) (hans : s.answers = .ok b0 :: .ok x :: more) (ht : s.topen = true) :
    Probed s s.baudCur x (ackCalls s.cfg s.cfg.tcProbe [] (x.take (frameLen s.cfg 1))) more
      (s.exchanged s.cfg.tcProbe []) := by
  obtain ⟨-, -, -, htx, -⟩ := Cfg.wf_facts hw
  have hexch := State.exchanged_eq_exchangedWith s.cfg.tcProbe [] ht hans
  rw [Answer.received] at hexch
  rw [hexch]
  refine ⟨?_, _, ?_, s.exchangedWith_holds s.cfg.tcProbe [] _ more⟩
  · simp [State.exchangedWith, rxlenAfter, ackCalls, frameLen, ht]
  · rw [txFrame_length htx]
    exact Nat.add_le_add_left (Nat.zero_le 1) _

/-- The answer to a probe decides whether the detection goes on. -/
theorem probe_run (next : Micro ErrCode) (hw : s.cfg.wf = true) (ht : s.topen = true)
    (hans : s.answers = .ok b0 :: .ok x :: more) :
    EStateM.run (do
      let r ← xack s.cfg.tcProbe []
      match r with
      | .tfail => return .transport
      | .ok => return .noError
      | .reject => next) s =
    if x.take (frameLen s.cfg 1) = ackFrame s.cfg s.cfg.tcProbe then .ok .noError (s.exchanged s.cfg.tcProbe [])
      else next.run (s.exchanged s.cfg.tcProbe []) := by
  rw [Micro.bind_ok (xack_exchange (p := []) s.cfg.tcProbe hw (frameLen_zero_le hw))]
  by_cases hx : x.take (frameLen s.cfg 1) = ackFrame s.cfg s.cfg.tcProbe
  · rw [if_pos hx, (State.reply_eq_ok_iff s.cfg.tcProbe ht hans).2 (congrArg some hx)]
    rfl
  · rw [if_neg hx, State.reply_eq_reject s.cfg.tcProbe ht hans hx]

/-- The first probe of `DETECT`, at the assumed rate. -/
theorem detect_probe (hw : s.cfg.wf = true) (ht : s.topen = true) (hans : s.answers = .ok b0 :: .ok x :: more) :
    ∃ t, Probed s s.baudCur x (ackCalls s.cfg s.cfg.tcProbe [] (x.take (frameLen s.cfg 1))) more t ∧
      detect.run s = if x.take (frameLen s.cfg 1) = ackFrame s.cfg s.cfg.tcProbe then .ok .noError t
        else (detectLoop (otherCodes s.baudCur)).run t := by
  refine ⟨_, probed_exchange hw hans ht, ?_⟩
  rw [detect, Micro.get_bind]
  exact probe_run (detectLoop (otherCodes s.baudCur)) hw ht hans

/-- A further probe, at the next code. -/
theorem detectLoop_probe (cs : List (BitVec 3)) (hw : s.cfg.wf = true) (hans : s.answers = missAnswers x ++ more) :
    ∃ t, Probed s c x (missCalls s.cfg c x) more t ∧
      (detectLoop (c :: cs)).run s = if x.take (frameLen s.cfg 1) = ackFrame s.cfg s.cfg.tcProbe then .ok .noError t
        else (detectLoop cs).run t := by
  have hprobed := probed_exchange (s := s.reopened c (.ok [] :: .ok x :: more)) hw rfl rfl
  refine ⟨_, ⟨hprobed.same.trans ?_, hprobed.holds⟩, (reopen_run c _ _ hans).trans ?_⟩
  · simp [State.reopened, missCalls]
  · exact probe_run (s := s.reopened c (.ok [] :: .ok x :: more)) (detectLoop cs) hw rfl rfl

end

/-- The ACK frame of PROBE, as an answer to a probe, hides whatever was below. -/
theorem Probed.acked_holds {s t : State} {c : BitVec 3} {calls : List Call} {more : List Answer}
    (hw : s.cfg.wf = true) (h : Probed s c (ackFrame s.cfg s.cfg.tcProbe) calls more t) :
    t.Holds s (ackFrame s.cfg s.cfg.tcProbe) := by
  obtain ⟨under, hlen, hholds⟩ := h.holds
  rwa [ackFrame_take hw, overlay_eq_left (hlen.trans_eq (ackFrame_length hw _).symm)] at hholds

/-! ### The loop over the rates (R193) -/

/-- The calls of the attempts at `cs` that receive `xs`. -/
def attempts (cfg : Cfg) (cs : List (BitVec 3)) (xs : List (List Byte)) : List Call :=
  (cs.zip xs).flatMap fun x => missCalls cfg x.1 x.2

/-- A string that is not the ACK of PROBE once cut to its length. -/
def Misses (cfg : Cfg) (x : List Byte) : Prop := x.take (frameLen cfg 1) ≠ ackFrame cfg cfg.tcProbe

/-- After one probe the device is still to miss the others. -/
theorem Probed.misses_tail {s t : State} {c : BitVec 3} {x bad : List Byte} {bads : List (List Byte)}
    {calls : List Call} {more : List Answer} (h : Probed s c x calls more t)
    (hmiss : ∀ x ∈ bad :: bads, Misses s.cfg x) : ∀ x ∈ bads, Misses t.cfg x := by
  rw [h.cfg_eq]
  exact (List.forall_mem_cons.1 hmiss).2

/-- The device answers at the rate after those missed. -/
theorem detectLoop_found {cs : List (BitVec 3)} {bads : List (List Byte)} {s : State} {c : BitVec 3}
    {more : List Answer} (hw : s.cfg.wf = true) (hmiss : ∀ x ∈ bads, Misses s.cfg x) (hc : cs[bads.length]? = some c)
    (hans : s.answers = (bads ++ [ackFrame s.cfg s.cfg.tcProbe]).flatMap missAnswers ++ more) :
    ∃ t, (detectLoop cs).run s = .ok .noError t ∧ Probed s c (ackFrame s.cfg s.cfg.tcProbe)
      (attempts s.cfg cs (bads ++ [ackFrame s.cfg s.cfg.tcProbe])) more t := by
  induction bads generalizing cs s with
  | nil =>
    cases cs with
    | nil => cases hc
    | cons d cs =>
      obtain rfl : d = c := by simpa using hc
      obtain ⟨t, hprobed, hrun⟩ := detectLoop_probe (x := ackFrame s.cfg s.cfg.tcProbe) cs hw (by simpa using hans)
      rw [if_pos (ackFrame_take hw _)] at hrun
      exact ⟨t, hrun, by simpa [attempts] using hprobed⟩
  | cons bad bads ih =>
    cases cs with
    | nil => cases hc
    | cons d cs =>
      obtain ⟨t, hprobed, hrun⟩ := detectLoop_probe (c := d) (x := bad) cs hw (by simpa using hans)
      rw [if_neg (hmiss bad List.mem_cons_self)] at hrun
      have hcfg := hprobed.cfg_eq
      obtain ⟨u, hrun', hprobed'⟩ := ih (cs := cs) (s := t) (by rwa [hcfg]) (hprobed.misses_tail hmiss)
        (by simpa using hc) (by simpa [hcfg] using hprobed.answers_eq)
      rw [hcfg] at hprobed'
      exact ⟨u, hrun.trans hrun', by simpa [attempts] using hprobed.trans hprobed'⟩

/-- The device answers at none of the rates. -/
theorem detectLoop_exhausted {cs : List (BitVec 3)} {bads : List (List Byte)} {s : State} {c : BitVec 3}
    {x : List Byte} {more : List Answer} (hw : s.cfg.wf = true) (hmiss : ∀ x ∈ bads, Misses s.cfg x)
    (hlen : cs.length = bads.length) (hc : cs.getLast? = some c) (hx : bads.getLast? = some x)
    (hans : s.answers = bads.flatMap missAnswers ++ more) :
    ∃ t, (detectLoop cs).run s = .ok .protocol t ∧ Probed s c x (attempts s.cfg cs bads) more t := by
  induction bads generalizing cs s with
  | nil => cases hx
  | cons bad bads ih =>
    obtain ⟨d, cs, rfl⟩ := List.exists_cons_of_length_eq_add_one hlen
    obtain ⟨t, hprobed, hrun⟩ := detectLoop_probe (c := d) (x := bad) cs hw (by simpa using hans)
    rw [if_neg (hmiss bad List.mem_cons_self)] at hrun
    have hcfg := hprobed.cfg_eq
    cases bads with
    | nil =>
      obtain rfl : cs = [] := List.length_eq_zero_iff.1 (by simpa using hlen)
      obtain rfl : d = c := by simpa using hc
      obtain rfl : bad = x := by simpa using hx
      exact ⟨t, hrun, by simpa [attempts] using hprobed⟩
    | cons bad' bads =>
      have hlen' : cs.length = (bad' :: bads).length := by simpa using hlen
      obtain ⟨d', cs, rfl⟩ := List.exists_cons_of_length_eq_add_one hlen'
      obtain ⟨u, hrun', hprobed'⟩ := ih (s := t) (by rwa [hcfg]) (hprobed.misses_tail hmiss) hlen'
        (by simpa using hc) (by simpa using hx) hprobed.answers_eq
      rw [hcfg] at hprobed'
      exact ⟨u, hrun.trans hrun', by simpa [attempts] using hprobed.trans hprobed'⟩

theorem otherCodes_length (c : BitVec 3) : (otherCodes c).length = 7 := by
  revert c
  decide

theorem otherCodes_getLast? (c : BitVec 3) : (otherCodes c).getLast? = some (if c = 7 then 6 else 7) := by
  revert c
  decide

/-- The calls of a detection that receives `first` at the assumed rate and `others` at the next ones. -/
def detectCalls (s : State) (first : List Byte) (others : List (List Byte)) : List Call :=
  ackCalls s.cfg s.cfg.tcProbe [] (first.take (frameLen s.cfg 1)) ++ attempts s.cfg (otherCodes s.baudCur) others

/-- `DETECT` of a device that answers at the assumed rate or, after misses, at a later one (R193). -/
theorem detect_found {s : State} {bads others : List (List Byte)} {b first : List Byte} {c : BitVec 3}
    {more : List Answer} (hw : s.cfg.wf = true) (ht : s.topen = true) (hmiss : ∀ x ∈ bads, Misses s.cfg x)
    (hstrings : first :: others = bads ++ [ackFrame s.cfg s.cfg.tcProbe])
    (hc : (s.baudCur :: otherCodes s.baudCur)[bads.length]? = some c)
    (hans : s.answers = .ok b :: .ok first :: (others.flatMap missAnswers ++ more)) :
    ∃ t, detect.run s = .ok .noError t ∧
      Probed s c (ackFrame s.cfg s.cfg.tcProbe) (detectCalls s first others) more t := by
  obtain ⟨t, hprobed, hrun⟩ := detect_probe hw ht hans
  cases bads with
  | nil =>
    obtain ⟨rfl, rfl⟩ : first = ackFrame s.cfg s.cfg.tcProbe ∧ others = [] := by simpa using hstrings
    obtain rfl : s.baudCur = c := by simpa using hc
    rw [if_pos (ackFrame_take hw _)] at hrun
    exact ⟨t, hrun, by simpa [detectCalls, attempts] using hprobed⟩
  | cons bad bads =>
    obtain ⟨rfl, rfl⟩ : first = bad ∧ others = bads ++ [ackFrame s.cfg s.cfg.tcProbe] := by simpa using hstrings
    rw [if_neg (hmiss first List.mem_cons_self)] at hrun
    have hcfg := hprobed.cfg_eq
    obtain ⟨u, hrun', hprobed'⟩ := detectLoop_found (cs := otherCodes s.baudCur) (s := t) (more := more)
      (by rwa [hcfg]) (hprobed.misses_tail hmiss) (by simpa using hc) (by rw [hprobed.answers_eq, hcfg])
    rw [hcfg] at hprobed'
    exact ⟨u, hrun.trans hrun', hprobed.trans hprobed'⟩

/-- `DETECT` of a device that answers at no rate (R193). -/
theorem detect_exhausted {s : State} {bads : List (List Byte)} {b bad x : List Byte} {more : List Answer}
    (hw : s.cfg.wf = true) (ht : s.topen = true) (hmiss : ∀ x ∈ bad :: bads, Misses s.cfg x) (hlen : bads.length = 7)
    (hx : bads.getLast? = some x) (hans : s.answers = .ok b :: .ok bad :: (bads.flatMap missAnswers ++ more)) :
    ∃ t, detect.run s = .ok .protocol t ∧
      Probed s (if s.baudCur = 7 then 6 else 7) x (detectCalls s bad bads) more t := by
  obtain ⟨t, hprobed, hrun⟩ := detect_probe hw ht hans
  rw [if_neg (hmiss bad List.mem_cons_self)] at hrun
  have hcfg := hprobed.cfg_eq
  obtain ⟨u, hrun', hprobed'⟩ := detectLoop_exhausted (s := t) (more := more) (by rwa [hcfg])
    (hprobed.misses_tail hmiss) ((otherCodes_length s.baudCur).trans hlen.symm) (otherCodes_getLast? s.baudCur) hx
    hprobed.answers_eq
  rw [hcfg] at hprobed'
  exact ⟨u, hrun.trans hrun', hprobed.trans hprobed'⟩

/-! ### OPEN until detection (R191) -/

/-- `OPEN` in Closed with the required password length, once its first `T_OPEN` has succeeded. -/
def State.openedAt (s : State) (rest : List Answer) : State :=
  { s with
    phase := .opening, topen := true, answers := rest
    trace := s.trace ++ [.tOpen s.cfg.deviceId (rate s.baudCur) true] }

theorem openBody_opened {s : State} {b : List Byte} {rest : List Answer} (hp : s.phase = .closed)
    (hpw : s.pwLen.toNat = s.cfg.pwLenReq) (hans : s.answers = .ok b :: rest) :
    openBody.run s = openSession.run (s.openedAt rest) := by
  rw [openBody, Micro.get_bind, if_neg (not_not.2 hp), if_neg (not_not.2 hpw),
    Micro.bind_ok (tOpen_listed s.baudCur hans)]
  rfl

/-- Settles O48: the probe at the assumed rate and the seven of the loop miss. -/
theorem openFindsNoRate : Obligations.OpenFindsNoRate := by
  intro s b0 b1 bad bads rest hw hp hpw hlen hmiss hans
  obtain ⟨last, hlast⟩ : ∃ last, bads.getLast? = some last := by
    cases h : bads.getLast? with
    | none => simp [List.getLast?_eq_none_iff.1 h] at hlen
    | some last => exact ⟨last, rfl⟩
  obtain ⟨t, hrun, hprobed⟩ := detect_exhausted (more := rest)
    (s := s.openedAt (.ok b1 :: .ok bad :: (bads.flatMap missAnswers ++ rest))) hw rfl hmiss hlen hlast rfl
  refine ⟨_, runCommand_ok ((openBody_opened hp hpw hans).trans (orElseDone_err hrun (by simp))), ?_⟩
  rw [hprobed.same, hlast]
  refine ⟨rfl, rfl, rfl, rfl, rfl, rfl, ?_⟩
  simp [State.openedAt, detectCalls, attempts]

end Sys2Proof.Machine
end

section
/-! `OPEN` from the password's echo on (R194, R198, R200): a wrong echo, and what follows the right one. -/

namespace Sys2Proof.Machine

/-! ### AUTH (R194) -/

/-- All that `AUTH` leaves when its answer is `got`. -/
def State.echoed (s : State) (got : List Byte) (rest : List Answer) : State :=
  { s with
    answers := rest
    trace := s.trace ++ [.tSend (txFrame s.cfg s.cfg.tcPasswd s.password) true,
      .tRecv (frameLen s.cfg s.pwLen.toNat) s.cfg.rxTimeout (some got)]
    pb := Memory.writeList (Memory.writeList s.pb 0 (txFrame s.cfg s.cfg.tcPasswd s.password)) 0 got
    cur := echoCursor s.cfg s.password got
    rem := 0
    rxlen := BitVec.ofNat 16 got.length
    txlen := BitVec.ofNat 16 (frameLen s.cfg s.pwLen.toNat) }

theorem State.echoed_holds (s : State) (got : List Byte) (rest : List Answer) :
    (s.echoed got rest).Holds s (overlay got (txFrame s.cfg s.cfg.tcPasswd s.password)) := State.holds_overlay rfl rfl

/-- `AUTH` when its send succeeds and its receive returns a string. -/
theorem auth_run {s : State} {b bs : List Byte} {rest : List Answer} (hw : s.cfg.wf = true)
    (hpw : s.pwLen.toNat = s.cfg.pwLenReq) (ht : s.topen = true) (hans : s.answers = .ok b :: .ok bs :: rest) :
    auth.run s =
      .ok (if bs.take (frameLen s.cfg s.pwLen.toNat) = rxFrame s.cfg s.cfg.tcPasswd s.password then .noError
        else .authentication) (s.echoed (bs.take (frameLen s.cfg s.pwLen.toNat)) rest) := by
  obtain ⟨hmin, -, -, -, -, hreq⟩ := Cfg.wf_facts hw
  have hL : frameLen s.cfg s.password.length = frameLen s.cfg s.pwLen.toNat := by rw [State.password_length]
  have hcap : frameLen s.cfg s.password.length ≤ s.cfg.pbCap := by
    rw [hL, hpw]
    simp only [frameLen]
    omega
  have hsent : s.sent s.cfg.tcPasswd s.password = { s with
      answers := .ok bs :: rest
      trace := s.trace ++ [.tSend (txFrame s.cfg s.cfg.tcPasswd s.password) true]
      pb := Memory.writeList s.pb 0 (txFrame s.cfg s.cfg.tcPasswd s.password)
      cur := BitVec.ofNat 16 (frameLen s.cfg s.password.length)
      rem := 0
      txlen := BitVec.ofNat 16 (frameLen s.cfg s.pwLen.toNat) } := by
    rw [State.sent_eq, State.answered_of_cons hans, State.nextAnswer_of_cons hans, hL]
    rfl
  obtain ⟨v, hv⟩ : ∃ v, v = s.sent s.cfg.tcPasswd s.password := ⟨_, rfl⟩
  obtain ⟨u, hu⟩ : ∃ u, u = v.polled (frameLen s.cfg s.pwLen.toNat) := ⟨_, rfl⟩
  rw [← hv] at hsent
  have hcfg : v.cfg = s.cfg := by rw [hsent]
  have hlen : v.pwLen = s.pwLen := by rw [hsent]
  have hrecv : (recvFrame (frameLen s.cfg s.pwLen.toNat)).run v =
      .ok .ok (u.store (bs.take (frameLen s.cfg s.pwLen.toNat))) := by
    have hnext : v.nextAnswer = .ok bs := State.nextAnswer_of_cons (by rw [hsent])
    rw [recvFrame_eq, if_pos (by rw [hsent]; exact ht), hnext, hu]
    rfl
  have hucfg : u.cfg = s.cfg := by rw [hu, State.polled, State.traced_cfg, State.answered_cfg, hcfg]
  have hecho := checkEcho_store (u := u) (pw := s.password) (bs := bs.take (frameLen s.cfg s.pwLen.toNat))
    (by rw [hucfg]; exact hw) (by simp [State.password_length, hu, State.polled, hlen]) (by rw [hucfg]; exact hcap)
    (by simp [hucfg, hL]) (by simp [hu, State.polled, hsent])
  rw [hucfg] at hecho
  have hstate : (u.store (bs.take (frameLen s.cfg s.pwLen.toNat))).withCur
      (echoCursor s.cfg s.password (bs.take (frameLen s.cfg s.pwLen.toNat))) =
      s.echoed (bs.take (frameLen s.cfg s.pwLen.toNat)) rest := by
    rw [hu, State.polled, State.answered_of_cons (by rw [hsent]), State.nextAnswer_of_cons (by rw [hsent]), hsent]
    simp [State.echoed, State.store, State.withCur, State.traced, Answer.received]
  rw [hstate] at hecho
  rw [auth, Micro.get_bind, Micro.bind_ok (encodeFrame_ok _ hw hcap), Micro.bind_ok (encode_send _ hw hcap ht), ← hv,
    State.nextAnswer_of_cons hans, Answer.isOk, if_pos rfl]
  simp only [awaitEcho, Micro.get_bind, hcfg, hlen]
  exact (Micro.bind_ok hrecv).trans hecho

/-! ### OPEN until the echo -/

/-- The end of `OPEN`, once the password has been echoed (R191). -/
theorem openSession_answered {s t : State} {b bs : List Byte} {rest : List Answer} (hw : t.cfg.wf = true)
    (hpw : t.pwLen.toNat = t.cfg.pwLenReq) (ht : t.topen = true) (hdetect : detect.run s = .ok .noError t)
    (hans : t.answers = .ok b :: .ok bs :: rest) {v : State}
    (hv : v = State.echoed { t with phase := .negotiating } (bs.take (frameLen t.cfg t.pwLen.toNat)) rest) :
    openSession.run s =
      if bs.take (frameLen t.cfg t.pwLen.toNat) = rxFrame t.cfg t.cfg.tcPasswd t.password then
        (orElseDone renegSub cfgwinSub).run { v with phase := .authenticated }
      else .ok .authentication v := by
  have hauth := auth_run (s := { t with phase := .negotiating }) hw hpw ht hans
  have hphase : (setPhase .negotiating).run t = .ok () { t with phase := .negotiating } := rfl
  rw [openSession, orElseDone_ok hdetect, Micro.bind_ok hphase, hv]
  split
  · next hecho =>
    rw [orElseDone_ok (hauth.trans (congrArg (EStateM.Result.ok · _) (if_pos hecho)))]
    rfl
  · next hecho => exact orElseDone_err (hauth.trans (congrArg (EStateM.Result.ok · _) (if_neg hecho))) (by simp)

/-- Where `OPEN` started in `s` stands when the device has answered the probe at code `c` and its answer to the password
is `got`: the calls `calls` made, the answers `rest` still to come. -/
structure Answered (s : State) (c : BitVec 3) (calls : List Call) (got : List Byte) (rest : List Answer) (v : State) :
    Prop where
  same : v = { s with
    phase := .negotiating, topen := true, baudCur := c, answers := rest
    trace := s.trace ++ calls ++ [.tSend (txFrame s.cfg s.cfg.tcPasswd s.password) true,
      .tRecv (frameLen s.cfg s.pwLen.toNat) s.cfg.rxTimeout (some got)]
    pb := v.pb, cur := echoCursor s.cfg s.password got, rem := 0
    rxlen := BitVec.ofNat 16 got.length, txlen := BitVec.ofNat 16 (frameLen s.cfg s.pwLen.toNat) }
  holds : v.Holds s (overlay got (overlay (txFrame s.cfg s.cfg.tcPasswd s.password)
    (ackFrame s.cfg s.cfg.tcProbe)))

theorem openBody_answered {s : State} {bads others : List (List Byte)} {b0 b1 b2 first bs got : List Byte}
    {c : BitVec 3} {rest : List Answer} (hw : s.cfg.wf = true) (hp : s.phase = .closed)
    (hpw : s.pwLen.toNat = s.cfg.pwLenReq) (hmiss : ∀ x ∈ bads, Misses s.cfg x)
    (hstrings : first :: others = bads ++ [ackFrame s.cfg s.cfg.tcProbe])
    (hc : (s.baudCur :: otherCodes s.baudCur)[bads.length]? = some c)
    (hans : s.answers = .ok b0 :: .ok b1 :: .ok first :: (others.flatMap missAnswers ++ .ok b2 :: .ok bs :: rest))
    (hgot : got = bs.take (frameLen s.cfg s.pwLen.toNat)) :
    ∃ v, Answered s c (.tOpen s.cfg.deviceId (rate s.baudCur) true :: detectCalls s first others) got rest v ∧
      openBody.run s = if got = rxFrame s.cfg s.cfg.tcPasswd s.password then
          (orElseDone renegSub cfgwinSub).run { v with phase := .authenticated }
        else .ok .authentication v := by
  obtain ⟨t, hdetect, hprobed⟩ := detect_found (s := s.openedAt _) (more := .ok b2 :: .ok bs :: rest) hw rfl hmiss
    hstrings hc rfl
  have hsame := hprobed.same
  have hcfg : t.cfg = s.cfg := hprobed.cfg_eq
  have hlen : t.pwLen = s.pwLen := by rw [hsame]; rfl
  have hpass : t.password = s.password := State.password_congr (by rw [hsame]; rfl)
  obtain ⟨t', ht'⟩ : ∃ t' : State, t' = { t with phase := .negotiating } := ⟨_, rfl⟩
  have hrun := openSession_answered (by rw [hcfg]; exact hw) (by rw [hlen, hcfg]; exact hpw) hprobed.topen_eq hdetect
    hprobed.answers_eq rfl
  rw [← ht', hcfg, hlen, ← hgot, hpass] at hrun
  have hcfg' : t'.cfg = s.cfg := by rw [ht', hcfg]
  have hpass' : t'.password = s.password := by rw [ht']; exact hpass
  refine ⟨t'.echoed got rest, ⟨?_, ?_⟩, (openBody_opened hp hpw hans).trans hrun⟩
  · rw [State.echoed, hcfg', hpass', ht', hlen, hsame]
    simp [State.openedAt, detectCalls]
  · have hunder : t'.Holds s (ackFrame s.cfg s.cfg.tcProbe) := by
      rw [ht']
      exact (Probed.acked_holds (s := s.openedAt _) hw hprobed).congr rfl rfl
    have hecho := hunder.trans (t'.echoed_holds got rest)
    rwa [hcfg', hpass', overlay_assoc] at hecho

/-- Settles O49: the device answers the first probe, and the answer to the password is not the echo. -/
theorem wrongEchoRejected : Obligations.WrongEchoRejected := by
  intro s b0 b1 b2 bs got rest hw hp hpw hgot hne hans
  obtain ⟨v, hv, hrun⟩ := openBody_answered (bads := []) (others := []) (first := ackFrame s.cfg s.cfg.tcProbe) hw hp
    hpw (by simp) rfl rfl hans hgot
  rw [if_neg hne] at hrun
  refine ⟨_, runCommand_ok hrun, ?_, hv.holds.congr rfl rfl⟩
  rw [hv.same]
  simp [State.done, ErrCode.stickyMask, detectCalls, attempts, ackFrame_take hw]

end Sys2Proof.Machine
end

section
/-! A whole `OPEN` (R191): renegotiation if the desired rate is not in use, then the window if it is valid. -/

namespace Sys2Proof.Machine

/-! ### After the echo, OPEN is RENEG and then CFGWIN (R199, R201) -/

theorem runCommand_congr {m m' : Micro ErrCode} {s s' : State} (h : m.run s = m'.run s') :
    runCommand m s = runCommand m' s' := by rw [runCommand, h, runCommand]

/-- A command blind to `ERR` does the same after a command that has just ended without error. -/
theorem Blind.runCommand_done {body : Micro ErrCode} (hb : Blind body) (s : State) :
    runCommand body (s.done .noError) = runCommand body s := by
  have hdone : s.done .noError = s.withAside { s.aside with err := .noError } := by
    simp [State.done, State.withAside, State.aside, ErrCode.stickyMask]
  have hrun := hb s { s.aside with err := .noError }
  rw [BlindAt, ← hdone] at hrun
  rw [runCommand, runCommand, hrun]
  cases h : body.run s with
  | ok e t =>
    rw [← (hb s s.aside).aside_eq h]
    rfl
  | error e t =>
    rw [← (hb s s.aside).aside_eq_of_error h]
    rfl

/-- From Authenticated, whatever the environment answers. -/
theorem renegThenCfgwin_eq {u : State} (hw : u.cfg.wf = true) (hp : u.phase = .authenticated) :
    ∃ v, exec .reneg u = .next v ∧ runCommand (orElseDone renegSub cfgwinSub) u =
      if v.err = .noError then exec .cfgwin v else .next v := by
  obtain ⟨e, t, hrun, -, hphase, -⟩ := renegSub_session hw
  refine ⟨t.done e, runCommand_ok ((renegBody_authenticated hp).trans hrun), ?_⟩
  rw [State.done_err]
  split
  · next he =>
    have hcfgwin : exec .cfgwin (t.done .noError) = runCommand cfgwinSub (t.done .noError) :=
      runCommand_congr (cfgwinBody_authenticated (hphase.trans hp))
    rw [he, hcfgwin, blind_cfgwinSub.runCommand_done]
    exact runCommand_congr (orElseDone_ok (he ▸ hrun))
  · next he => exact runCommand_ok (orElseDone_err hrun he)

/-! ### Acknowledged to the end -/

/-- The ACK of a frame without payload hides it. -/
theorem txFrame_nil_length_le {c : Cfg} (hw : c.wf = true) (tc tc' : Byte) :
    (txFrame c tc []).length ≤ (ackFrame c tc').length := by
  obtain ⟨-, -, -, htx, -⟩ := Cfg.wf_facts hw
  rw [txFrame_length htx, ackFrame_length hw]
  exact Nat.le_succ _

/-- `RENEG_SUB` when the device acknowledges what is left to do: nothing at the desired rate, else the change command
and the probe at the new rate (R198). -/
theorem renegSub_completes {u : State} {b3 b4 b5 : List Byte} {rest : List Answer} (hw : u.cfg.wf = true)
    (ht : u.topen = true) (hans : u.answers = (if u.baudDes = u.baudCur then [] else
      [.ok b3, .ok (ackFrame u.cfg u.cfg.tcBaud), .ok b4, .ok b5, .ok (ackFrame u.cfg u.cfg.tcProbe)]) ++ rest) :
    ∃ v, renegSub.run u = .ok .noError v ∧
      v = { u with
        baudCur := u.baudDes, answers := rest
        trace := u.trace ++ (if u.baudDes = u.baudCur then [] else
          ackCalls u.cfg u.cfg.tcBaud (baudPayload u.baudDes) (ackFrame u.cfg u.cfg.tcBaud) ++
          [.tClose, .tOpen u.cfg.deviceId (rate u.baudDes) true] ++
          ackCalls u.cfg u.cfg.tcProbe [] (ackFrame u.cfg u.cfg.tcProbe))
        pb := v.pb
        cur := if u.baudDes = u.baudCur then u.cur else BitVec.ofNat 16 (u.cfg.hdrLen + 2)
        rem := if u.baudDes = u.baudCur then u.rem else 0
        rxlen := if u.baudDes = u.baudCur then u.rxlen else BitVec.ofNat 16 (u.cfg.hdrLen + 3)
        txlen := if u.baudDes = u.baudCur then u.txlen else BitVec.ofNat 16 (u.cfg.hdrLen + 2) } ∧
      v.Holds u (if u.baudDes = u.baudCur then [] else ackFrame u.cfg u.cfg.tcProbe) := by
  by_cases hd : u.baudDes = u.baudCur
  · simp only [if_pos hd, List.nil_append, List.append_nil] at hans ⊢
    refine ⟨u, ?_, ?_, fun _ => rfl⟩
    · rw [renegSub, Micro.get_bind, if_pos hd]
      rfl
    · have hkept (c : BitVec 3) (hc : c = u.baudCur) : u = { u with baudCur := c } := by rw [hc]
      rw [← hans]
      exact hkept u.baudDes hd
  · simp only [if_neg hd] at hans ⊢
    obtain ⟨m, hm⟩ : ∃ m, m = u.moved b4 (.ok b5 :: .ok (ackFrame u.cfg u.cfg.tcProbe) :: rest) := ⟨_, rfl⟩
    have hcfg : m.cfg = u.cfg := by rw [hm]; rfl
    have hmans : m.answers = .ok b5 :: .ok (ackFrame m.cfg m.cfg.tcProbe) :: rest := by rw [hm]; rfl
    have hmt : m.topen = true := by rw [hm]; rfl
    have hmoved : renegSub.run u = (verify u.baudCur).run m :=
      hm ▸ (renegSub_acked hw ht hd hans).trans (reconfigure_opened rfl)
    rw [← hcfg] at hw
    rw [verify_acked hw (State.reply_eq_ok hw hmt hmans), State.exchanged_eq_acked hw [] hmt hmans] at hmoved
    refine ⟨_, hmoved, ?_, ?_⟩
    · rw [hm]
      simp [State.acked, State.moved, State.reopened, ackCalls, ht]
    · have hunder : m.Holds u (ackFrame u.cfg u.cfg.tcBaud) := by
        rw [hm]
        exact State.moved_holds (hcfg ▸ hw) b4 _
      have hprobe := hunder.trans (m.acked_holds m.cfg.tcProbe [] rest)
      rw [hcfg] at hw hprobe ⊢
      rwa [overlay_eq_left (txFrame_nil_length_le hw _ _),
        overlay_eq_left (by rw [ackFrame_length hw, ackFrame_length hw])] at hprobe

/-- `CFGWIN_SUB` when the device acknowledges a valid window (R200). -/
theorem cfgwinSub_completes {v : State} {b6 : List Byte} {rest : List Answer} (hw : v.cfg.wf = true)
    (ht : v.topen = true)
    (hans : v.answers = (if v.winValid then [.ok b6, .ok (ackFrame v.cfg v.cfg.tcWindow)] else []) ++ rest) :
    ∃ w, cfgwinSub.run v = .ok (if v.winValid then .noError else .configuration) w ∧
      w = { v with
        answers := rest
        trace := v.trace ++
          (if v.winValid then ackCalls v.cfg v.cfg.tcWindow v.windowPayload (ackFrame v.cfg v.cfg.tcWindow) else [])
        pb := w.pb
        cur := if v.winValid then BitVec.ofNat 16 (v.cfg.hdrLen + 2) else v.cur
        rem := if v.winValid then 0 else v.rem
        rxlen := if v.winValid then BitVec.ofNat 16 (v.cfg.hdrLen + 3) else v.rxlen
        txlen := if v.winValid then BitVec.ofNat 16 (v.cfg.hdrLen + 10) else v.txlen } ∧
      w.Holds v (if v.winValid then
        overlay (ackFrame v.cfg v.cfg.tcWindow) (txFrame v.cfg v.cfg.tcWindow v.windowPayload) else []) := by
  cases hv : v.winValid with
  | false =>
    rw [hv] at hans
    refine ⟨v, cfgwinSub_invalid hv, ?_, fun _ => rfl⟩
    simp only [Bool.false_eq_true, if_false, List.append_nil, List.nil_append] at hans ⊢
    rw [← hans]
  | true =>
    rw [hv] at hans
    have hrun := cfgwinSub_exchange hw hv
    rw [State.exchanged_eq_acked hw _ ht hans, State.reply_eq_ok hw ht hans] at hrun
    exact ⟨_, hrun, rfl, v.acked_holds v.cfg.tcWindow v.windowPayload rest⟩

/-! ### The whole command -/

theorem rxFrame_password_take {s : State} (hw : s.cfg.wf = true) :
    (rxFrame s.cfg s.cfg.tcPasswd s.password).take (frameLen s.cfg s.pwLen.toNat) =
      rxFrame s.cfg s.cfg.tcPasswd s.password := by
  obtain ⟨-, -, -, -, hrx, -⟩ := Cfg.wf_facts hw
  exact List.take_of_length_le (by rw [rxFrame_length hrx, State.password_length])

/-- The cursor after the echo itself: past all its payload (R194). -/
theorem echoCursor_echo {c : Cfg} (hw : c.wf = true) (pw : List Byte) :
    echoCursor c pw (rxFrame c c.tcPasswd pw) = BitVec.ofNat 16 (c.hdrLen + 1 + pw.length) := by
  obtain ⟨-, -, -, -, hrx, -⟩ := Cfg.wf_facts hw
  have hpayload : ((rxFrame c c.tcPasswd pw).drop (c.hdrLen + 1)).take pw.length = pw := by
    rw [rxFrame, frameBytes, List.drop_append, List.drop_eq_nil_of_le (by omega), hrx]
    simp
  rw [echoCursor, hpayload, if_pos rfl, commonPrefix_self, Nat.min_eq_right (Nat.le_succ _)]

/-- Where `OPEN` stands once the password has been echoed: Authenticated at code `c` (R191). -/
theorem openBody_echoed {s : State} {bads others : List (List Byte)} {b0 b1 b2 first : List Byte} {c : BitVec 3}
    {calls : List Call} {more : List Answer} (hw : s.cfg.wf = true) (hp : s.phase = .closed)
    (hpw : s.pwLen.toNat = s.cfg.pwLenReq) (hmiss : ∀ x ∈ bads, Misses s.cfg x)
    (hstrings : first :: others = bads ++ [ackFrame s.cfg s.cfg.tcProbe])
    (hc : (s.baudCur :: otherCodes s.baudCur)[bads.length]? = some c)
    (hcalls : calls = .tOpen s.cfg.deviceId (rate s.baudCur) true :: detectCalls s first others ++
      [.tSend (txFrame s.cfg s.cfg.tcPasswd s.password) true, .tRecv (frameLen s.cfg s.pwLen.toNat) s.cfg.rxTimeout
        (some (rxFrame s.cfg s.cfg.tcPasswd s.password))])
    (hans : s.answers = .ok b0 :: .ok b1 :: .ok first :: (others.flatMap missAnswers ++
      .ok b2 :: .ok (rxFrame s.cfg s.cfg.tcPasswd s.password) :: more)) :
    ∃ u, openBody.run s = (orElseDone renegSub cfgwinSub).run u ∧
      u = { s with
        phase := .authenticated, topen := true, baudCur := c, answers := more, trace := s.trace ++ calls, pb := u.pb
        cur := BitVec.ofNat 16 (s.cfg.hdrLen + 1 + s.pwLen.toNat), rem := 0
        rxlen := BitVec.ofNat 16 (frameLen s.cfg s.pwLen.toNat)
        txlen := BitVec.ofNat 16 (frameLen s.cfg s.pwLen.toNat) } ∧
      u.Holds s (overlay (rxFrame s.cfg s.cfg.tcPasswd s.password) (ackFrame s.cfg s.cfg.tcProbe)) := by
  obtain ⟨-, -, -, htx, hrx, -⟩ := Cfg.wf_facts hw
  obtain ⟨v, hv, hrun⟩ := openBody_answered hw hp hpw hmiss hstrings hc hans (rxFrame_password_take hw).symm
  have hholds := hv.holds
  rw [overlay_hides _ (by rw [txFrame_length htx, rxFrame_length hrx])] at hholds
  refine ⟨_, hrun.trans (if_pos rfl), ?_, hholds.congr rfl rfl⟩
  rw [hv.same, echoCursor_echo hw, rxFrame_length hrx, hcalls, State.password_length]
  simp

theorem overlay_nil (bs : List Byte) : overlay [] bs = bs := rfl

/-- What the exchanges after the echo leave of it in the buffer: nothing under the window's, what is longer than the
ACK under the probe's (R172). -/
theorem completed_buffer {s : State} {c : BitVec 3} (hw : s.cfg.wf = true) (hpw : s.pwLen.toNat = s.cfg.pwLenReq) :
    overlay (if s.winValid then
        overlay (ackFrame s.cfg s.cfg.tcWindow) (txFrame s.cfg s.cfg.tcWindow s.windowPayload) else [])
      (overlay (if s.baudDes = c then [] else ackFrame s.cfg s.cfg.tcProbe)
        (overlay (rxFrame s.cfg s.cfg.tcPasswd s.password) (ackFrame s.cfg s.cfg.tcProbe))) =
    if s.winValid then overlay (ackFrame s.cfg s.cfg.tcWindow) (txFrame s.cfg s.cfg.tcWindow s.windowPayload)
    else if s.baudDes = c then overlay (rxFrame s.cfg s.cfg.tcPasswd s.password) (ackFrame s.cfg s.cfg.tcProbe)
    else overlay (ackFrame s.cfg s.cfg.tcProbe) (rxFrame s.cfg s.cfg.tcPasswd s.password) := by
  obtain ⟨-, -, -, htx, hrx, hreq⟩ := Cfg.wf_facts hw
  have hecho : (rxFrame s.cfg s.cfg.tcPasswd s.password).length = frameLen s.cfg s.cfg.pwLenReq := by
    rw [rxFrame_length hrx, State.password_length, hpw]
  split
  · refine overlay_eq_left ?_
    have hwindow : (txFrame s.cfg s.cfg.tcWindow s.windowPayload).length = frameLen s.cfg 8 := txFrame_length htx ..
    have hchange : (if s.baudDes = c then [] else ackFrame s.cfg s.cfg.tcProbe).length ≤ s.cfg.hdrLen + 3 := by
      split
      · exact Nat.zero_le _
      · exact (ackFrame_length hw _).le
    simp only [overlay_length, ackFrame_length hw, hwindow, hecho, frameLen]
    omega
  · rw [overlay_nil]
    split
    · rw [overlay_nil]
    · rw [← overlay_assoc, overlay_eq_left]
      rw [overlay_length]
      exact le_max_left _ _

/-- Settles O46: after the echo both sub-commands are acknowledged, and `renegThenCfgwin_eq` says the rest. -/
theorem openSucceeds : Obligations.OpenSucceeds := by
  intro s b0 b1 b2 first bads others c calls more hw hp hpw hmiss hstrings hc hcalls hans
  have hcalls' : calls = .tOpen s.cfg.deviceId (rate s.baudCur) true :: detectCalls s first others ++
      [.tSend (txFrame s.cfg s.cfg.tcPasswd s.password) true, .tRecv (frameLen s.cfg s.pwLen.toNat) s.cfg.rxTimeout
        (some (rxFrame s.cfg s.cfg.tcPasswd s.password))] := by
    simp [hcalls, detectCalls, attempts]
  obtain ⟨u, hrun, hu, hholds⟩ := openBody_echoed hw hp hpw hmiss hstrings hc hcalls' hans
  have hcfg : u.cfg = s.cfg := by rw [hu]
  refine ⟨fun b3 b4 b5 b6 rest hmore => ?_, ?_⟩
  · have hdes : u.baudDes = s.baudDes := by rw [hu]
    have hcur : u.baudCur = c := by rw [hu]
    obtain ⟨v, hvrun, hv, hvholds⟩ := renegSub_completes (u := u) (b3 := b3) (b4 := b4) (b5 := b5)
      (rest := (if s.winValid then [.ok b6, .ok (ackFrame s.cfg s.cfg.tcWindow)] else []) ++ rest)
      (by rw [hcfg]; exact hw) (by rw [hu]) (by rw [hdes, hcur, hcfg, hu, hmore, List.append_assoc])
    have hvcfg : v.cfg = s.cfg := by rw [hv, hcfg]
    have hvalid : v.winValid = s.winValid := by rw [hv, hu]; rfl
    have hpayload : v.windowPayload = s.windowPayload := by rw [hv, hu]; rfl
    obtain ⟨w, hwrun, hwsame, hwholds⟩ := cfgwinSub_completes (v := v) (b6 := b6) (rest := rest)
      (by rw [hvcfg]; exact hw) (by rw [hv, hu]) (by rw [hvalid, hvcfg, hv])
    rw [hvalid, hvcfg, hpayload] at hwholds hwsame
    rw [hdes, hcur, hcfg] at hvholds hv
    rw [hvalid] at hwrun
    have hall := (hholds.trans hvholds).trans hwholds
    refine ⟨w.done (if s.winValid then .noError else .configuration),
      runCommand_ok (hrun.trans ((orElseDone_ok hvrun).trans hwrun)), ?_, ?_⟩
    · rw [hwsame, hv, hu]
      cases s.winValid <;> simp [State.done, ErrCode.stickyMask]
    · rw [completed_buffer hw hpw] at hall
      have hwcur : w.cur = if s.winValid then BitVec.ofNat 16 (s.cfg.hdrLen + 2) else if s.baudDes = c then
          BitVec.ofNat 16 (s.cfg.hdrLen + 1 + s.pwLen.toNat) else BitVec.ofNat 16 (s.cfg.hdrLen + 2) := by
        rw [hwsame, hv, hu]
      have hwrx : w.rxlen = if s.winValid then BitVec.ofNat 16 (s.cfg.hdrLen + 3) else if s.baudDes = c then
          BitVec.ofNat 16 (frameLen s.cfg s.pwLen.toNat) else BitVec.ofNat 16 (s.cfg.hdrLen + 3) := by
        rw [hwsame, hv, hu]
      have hwtx : w.txlen = if s.winValid then BitVec.ofNat 16 (s.cfg.hdrLen + 10) else if s.baudDes = c then
          BitVec.ofNat 16 (frameLen s.cfg s.pwLen.toNat) else BitVec.ofNat 16 (s.cfg.hdrLen + 2) := by
        rw [hwsame, hv, hu]
      have hbuffer := hall.congr (u := w.done (if s.winValid then .noError else .configuration)) rfl rfl
      rw [State.done_cur, State.done_rxlen, State.done_txlen, hwcur, hwrx, hwtx]
      split_ifs at hbuffer ⊢ <;> exact ⟨rfl, rfl, rfl, hbuffer⟩
  · obtain ⟨v, hreneg, hopen⟩ := renegThenCfgwin_eq (u := u) (by rw [hcfg]; exact hw) (by rw [hu])
    exact ⟨u, v, hreneg, (runCommand_congr hrun).trans hopen, hu, hholds⟩

end Sys2Proof.Machine
end

section
/-! Commands refused for the state they come in (R197) or for what the host has set (R192, R200), and the commands of
the sequencer that end at once or after one exchange. -/

namespace Sys2Proof.Machine

/-- `done(0)` sets no sticky bit (R28, R272). -/
theorem State.done_noError (s : State) : s.done .noError = { s with err := .noError } := by
  simp [State.done, ErrCode.stickyMask]

/-! ### In the wrong state (R197) -/

section

variable {s : State}

theorem openBody_wrongState (hp : s.phase ≠ .closed) : openBody.run s = .ok .precondition s := by
  rw [openBody, Micro.get_bind, if_pos hp]
  rfl

theorem startBody_wrongState (hp : s.phase ≠ .authenticated ∧ s.phase ≠ .stopped) :
    startBody.run s = .ok .precondition s := by
  rw [startBody, Micro.get_bind, if_pos hp]
  rfl

theorem stopBody_wrongState (hp : s.phase ≠ .running) : stopBody.run s = .ok .precondition s := by
  rw [stopBody, Micro.get_bind, if_pos hp]
  rfl

theorem stepBody_wrongState (hp : s.phase ≠ .running) : stepBody.run s = .ok .precondition s := by
  rw [stepBody, Micro.get_bind, if_pos hp]
  rfl

theorem renegBody_wrongState (hp : s.phase ≠ .authenticated) : renegBody.run s = .ok .precondition s := by
  rw [renegBody, Micro.get_bind, if_pos hp]
  rfl

theorem cfgwinBody_wrongState (hp : s.phase ≠ .authenticated) : cfgwinBody.run s = .ok .precondition s := by
  rw [cfgwinBody, Micro.get_bind, if_pos hp]
  rfl

end

/-- The states of the commands that are valid in every state (R190). -/
theorem mem_allPhases (p : Phase) :
    p ∈ [Phase.closed, .opening, .negotiating, .authenticated, .running, .stopped] := by
  cases p <;> simp

/-- Settles O34: each of the six commands with a state check ends at it; the other six are valid in every state. -/
theorem wrongState : Obligations.WrongState := by
  intro i s hp
  cases i with
  | open_ => exact runCommand_ok (openBody_wrongState (by simpa [validFrom] using hp))
  | start => exact runCommand_ok (startBody_wrongState (by simpa [validFrom] using hp))
  | stop => exact runCommand_ok (stopBody_wrongState (by simpa [validFrom] using hp))
  | step => exact runCommand_ok (stepBody_wrongState (by simpa [validFrom] using hp))
  | reneg => exact runCommand_ok (renegBody_wrongState (by simpa [validFrom] using hp))
  | cfgwin => exact runCommand_ok (cfgwinBody_wrongState (by simpa [validFrom] using hp))
  | nop | close | reset | cset | cget | ccrc => exact absurd (mem_allPhases s.phase) hp

/-! ### NOP, CLOSE, RESET -/

/-- Settles O41: `NOP` is `done(0)`. -/
theorem nopClearsErr : Obligations.NopClearsErr := fun s => congrArg _ s.done_noError

/-- Settles O42, by `closeBody_run`. -/
theorem closeReleases : Obligations.CloseReleases := fun s =>
  (runCommand_ok (closeBody_run s)).trans (congrArg _ (State.done_noError _))

/-- `RESET` without the transport sends nothing (R205). -/
theorem resetBody_released {s : State} (ht : s.topen = false) :
    resetBody.run s = .ok .noError { s with phase := .closed } := by
  have hsend : sendReset.run s = .ok .noError s := by
    rw [sendReset, Micro.get_bind, if_neg (by simp [ht])]
    rfl
  rw [resetBody, Micro.bind_ok hsend]
  rfl

/-- `RESET` with the transport sends its frame and closes, whatever the send's outcome (R205). -/
theorem resetBody_held {s : State} (hw : s.cfg.wf = true) (ht : s.topen = true) :
    resetBody.run s = .ok (if s.nextAnswer.isOk then .noError else .transport)
      { (s.sent s.cfg.tcReset []).closed with phase := .closed } := by
  have hcap := frameLen_zero_le hw
  have hsend : sendReset.run s =
      .ok (if s.nextAnswer.isOk then Reply.ok else .tfail).toErr (s.sent s.cfg.tcReset []).closed := by
    rw [sendReset, Micro.get_bind, if_pos ht, Micro.bind_ok (encodeFrame_ok (p := []) _ hw hcap),
      Micro.bind_ok (encode_send (p := []) _ hw hcap ht), Micro.bind_ok (tClose_run _)]
    rfl
  rw [resetBody, Micro.bind_ok hsend, apply_ite Reply.toErr]
  rfl

/-- One list written to the buffer from index 0. -/
theorem State.holds_writeList {s t : State} {bs : List Byte} (h : t.pb = Memory.writeList s.pb 0 bs)
    (hr : t.resets = s.resets) : t.Holds s bs :=
  State.holds_overlay (sent := bs) (got := []) h hr

/-- Settles O43: `resetBody_released` and `resetBody_held`. -/
theorem resetCommand : Obligations.ResetCommand := by
  refine fun s hw => ⟨fun ht => ?_, fun ht => ?_⟩
  · exact (runCommand_ok (resetBody_released ht)).trans (congrArg _ (State.done_noError _))
  · refine ⟨_, runCommand_ok (resetBody_held hw ht), ?_, State.holds_writeList ?_ ?_⟩
    · rw [State.sent_eq]
      cases s.nextAnswer.isOk <;> simp [State.done, State.closed, ErrCode.stickyMask, frameLen]
    · simp [State.closed, State.sent_eq]
    · simp [State.closed, State.sent_eq]

/-! ### OPEN -/

/-- Settles O44: the length is checked before the first transport call. -/
theorem openChecksPasswordLength : Obligations.OpenChecksPasswordLength := by
  intro s hp hpw
  refine runCommand_ok ?_
  rw [openBody, Micro.get_bind, if_neg (not_not.2 hp), if_pos hpw]
  rfl

/-! ### RENEG -/

/-- With the desired rate in use `RENEG_SUB` exchanges no frame (R198). -/
theorem renegSub_unchanged {s : State} (hd : s.baudDes = s.baudCur) : renegSub.run s = .ok .noError s := by
  rw [renegSub, Micro.get_bind, if_pos hd]
  rfl

/-- Settles O50: `RENEG` is `RENEG_SUB` in Authenticated. -/
theorem renegNoChange : Obligations.RenegNoChange := fun s hp hd =>
  (runCommand_ok ((renegBody_authenticated hp).trans (renegSub_unchanged hd))).trans (congrArg _ s.done_noError)

/-- Settles O51: `renegSub_completes`, with the change still to make. -/
theorem renegSucceeds : Obligations.RenegSucceeds := by
  intro s b0 b1 b2 rest hw hp ht hd hans
  obtain ⟨v, hrun, hv, hholds⟩ := renegSub_completes (b3 := b0) (b4 := b1) (b5 := b2) (rest := rest) hw ht
    (by rw [if_neg hd, hans]; rfl)
  rw [if_neg hd] at hholds
  simp only [if_neg hd] at hv
  refine ⟨_, runCommand_ok ((renegBody_authenticated hp).trans hrun), ?_, hholds.congr rfl rfl⟩
  rw [State.done_noError, hv]
  simp

/-! ### CFGWIN, STOP -/

/-- Settles O54: `CFGWIN_SUB` in Authenticated, by `cfgwinSub_invalid` and `cfgwinSub_exchange`. -/
theorem cfgwinPushes : Obligations.CfgwinPushes := by
  refine fun s hw => ⟨fun hp => ?_, fun hp hv => ?_, fun hp hv => ?_⟩
  · exact runCommand_ok (cfgwinBody_wrongState hp)
  · exact runCommand_ok ((cfgwinBody_authenticated hp).trans (cfgwinSub_invalid hv))
  · refine ⟨_, runCommand_ok ((cfgwinBody_authenticated hp).trans (cfgwinSub_exchange hw hv)), ?_,
      State.exchanged_holds s s.cfg.tcWindow s.windowPayload⟩
    rw [State.done, State.exchanged_esticky]
    rfl

/-- Settles O56, by `stopBody_exchange`. -/
theorem stopHalts : Obligations.StopHalts := by
  refine fun s hw => ⟨fun hp => ?_, fun hp => ?_⟩
  · exact runCommand_ok (stopBody_wrongState hp)
  · refine ⟨_, runCommand_ok (stopBody_exchange hw hp), ?_, State.exchanged_holds s s.cfg.tcStop []⟩
    rw [State.done, State.exchanged_esticky]
    rfl

end Sys2Proof.Machine
end

section
/-! Where `OPEN` rests for every behaviour of the environment (R191, R196). -/

namespace Sys2Proof.Machine

/-- What a command can end with, whichever of its two parts ends it. -/
theorem orElseDone_ends {P : ErrCode → State → Prop} {m rest : Micro ErrCode} {s t : State} {e : ErrCode}
    (hrun : m.run s = .ok e t) (hstop : e ≠ .noError → P e t)
    (hgo : e = .noError → ∃ e' u, rest.run t = .ok e' u ∧ P e' u) :
    ∃ e' u, (orElseDone m rest).run s = .ok e' u ∧ P e' u := by
  by_cases he : e = .noError
  · obtain ⟨e', u, hrest, hk⟩ := hgo he
    exact ⟨e', u, (orElseDone_ok (he ▸ hrun)).trans hrest, hk⟩
  · exact ⟨e, t, orElseDone_err hrun he, hstop he⟩

/-- The combinations of `ERR`, `STATE` and `TOPEN` in which `OPEN` can rest once its first `T_OPEN` has succeeded
(R191, R196). -/
def sessionRests : List (ErrCode × Phase × Bool) := [
  (.noError, .authenticated, true),
  (.transport, .opening, true), (.transport, .opening, false), (.protocol, .opening, true),
  (.transport, .negotiating, true), (.authentication, .negotiating, true),
  (.transport, .authenticated, true), (.transport, .authenticated, false),
  (.protocol, .authenticated, true), (.configuration, .authenticated, true)]

/-- A session of `OPEN` started in `s` may end with code `e` in `t`: success needs a valid window and the desired
rate in use. -/
structure Rests (s : State) (e : ErrCode) (t : State) : Prop where
  mem : (e, t.phase, t.topen) ∈ sessionRests
  success : e = .noError → t.baudCur = s.baudDes ∧ s.winValid = true

theorem Rests.of_failed {s t : State} {e : ErrCode} (he : e ≠ .noError) (h : (e, t.phase, t.topen) ∈ sessionRests) :
    Rests s e t := ⟨h, fun hok => absurd hok he⟩

/-- A session leaves the desired rate and the window as the host has set them (R34, R37). -/
theorem Rests.of_session {n b : Nat} {s t u : State} {e : ErrCode} (h : Session n b s t) (k : Rests t e u) :
    Rests s e u where
  mem := k.mem
  success he := by
    obtain ⟨hbaud, hvalid⟩ := k.success he
    rw [h.same] at hbaud hvalid
    exact ⟨hbaud, hvalid⟩

/-- In Authenticated with the transport held: the transport is lost only with a TransportError (R198, R200). -/
theorem renegThenCfgwin_rests {s : State} (hw : s.cfg.wf = true) (ht : s.topen = true)
    (hp : s.phase = .authenticated) : ∃ e t, (orElseDone renegSub cfgwinSub).run s = .ok e t ∧ Rests s e t := by
  obtain ⟨e, t, hrun, hk, hphase, hcases⟩ := renegSub_session hw
  rw [hp] at hphase
  refine orElseDone_ends hrun (fun he => .of_failed he ?_) fun he => ?_
  · rcases hcases with ⟨rfl, -⟩ | ⟨-, rfl | ⟨rfl | rfl, htopen, -⟩⟩
    · exact absurd rfl he
    · cases htopen : t.topen <;> simp [sessionRests, hphase]
    · simp [sessionRests, hphase, htopen]
    · simp [sessionRests, hphase, htopen]
  · obtain ⟨htopen, hbaud⟩ : t.topen = true ∧ t.baudCur = s.baudDes := by
      rcases hcases with ⟨-, htopen, hbaud⟩ | ⟨-, rfl | ⟨rfl | rfl, -⟩⟩
      · exact ⟨htopen.trans ht, hbaud⟩
      all_goals cases he
    have hdes : t.baudDes = s.baudDes := by rw [hk.same]
    obtain ⟨e', u, hrun', -, hphase', htopen', hbaud', hinvalid, hvalid, -⟩ :=
      cfgwinSub_session (s := t) (by rw [hk.cfg_eq]; exact hw)
    rw [hphase] at hphase'
    rw [htopen] at htopen'
    refine ⟨e', u, hrun', .of_session hk ?_⟩
    cases hv : t.winValid with
    | false =>
      obtain ⟨rfl, -⟩ := hinvalid hv
      exact .of_failed (by simp) (by simp [sessionRests, hphase', htopen'])
    | true =>
      refine ⟨?_, fun _ => ⟨by rw [hbaud', hbaud, hdes], hv⟩⟩
      rcases hvalid hv with rfl | rfl | rfl <;> simp [sessionRests, hphase', htopen']

/-- From the password on: in Negotiating with the transport held (R194). -/
theorem authenticate_rests {s : State} (hw : s.cfg.wf = true) (hpw : s.pwLen.toNat ≤ 8) (ht : s.topen = true)
    (hp : s.phase = .negotiating) :
    ∃ e t, (orElseDone auth do
      setPhase .authenticated
      orElseDone renegSub cfgwinSub).run s = .ok e t ∧ Rests s e t := by
  obtain ⟨e, t, hrun, hk, hphase, htopen, hcodes⟩ := auth_session hw hpw
  rw [hp] at hphase
  rw [ht] at htopen
  refine orElseDone_ends hrun (fun he => .of_failed he ?_) fun _ => ?_
  · rcases hcodes with rfl | rfl | rfl
    · exact absurd rfl he
    · simp [sessionRests, hphase, htopen]
    · simp [sessionRests, hphase, htopen]
  · obtain ⟨e', u, hrest, hrests⟩ := renegThenCfgwin_rests (s := { t with phase := .authenticated })
      (hk.cfg_eq ▸ hw) htopen rfl
    exact ⟨e', u, hrest, .of_session (hk.setPhase .authenticated) hrests⟩

/-- The whole session, from Opening with the transport held (R193). -/
theorem openSession_rests {s : State} (hw : s.cfg.wf = true) (hpw : s.pwLen.toNat ≤ 8) (ht : s.topen = true)
    (hp : s.phase = .opening) : ∃ e t, openSession.run s = .ok e t ∧ Rests s e t := by
  obtain ⟨e, t, hrun, hk, hphase, hcodes, hheld⟩ := detect_session hw ht
  rw [hp] at hphase
  refine orElseDone_ends hrun (fun he => .of_failed he ?_) fun he => ?_
  · rcases hcodes with rfl | rfl | rfl
    · exact absurd rfl he
    · cases htopen : t.topen <;> simp [sessionRests, hphase]
    · simp [sessionRests, hphase, hheld]
  · obtain ⟨e', u, hrest, hrests⟩ := authenticate_rests (s := { t with phase := .negotiating })
      (hk.cfg_eq ▸ hw) (by rw [hk.same]; exact hpw) (hheld (by simp [he])) rfl
    exact ⟨e', u, hrest, .of_session (hk.setPhase .negotiating) hrests⟩

/-- `OPEN` in Closed with the required password length, whatever its first `T_OPEN` answers (R191). -/
theorem openBody_tOpen {s : State} (hp : s.phase = .closed) (hpw : s.pwLen.toNat = s.cfg.pwLenReq) :
    openBody.run s = if s.nextAnswer.isOk then
        openSession.run { s.opened s.baudCur with topen := true, phase := .opening }
      else .ok .transport (s.opened s.baudCur) := by
  rw [openBody, Micro.get_bind, if_neg (not_not.2 hp), if_neg (not_not.2 hpw), Micro.bind_ok (tOpen_run s.baudCur s)]
  cases s.nextAnswer.isOk <;> rfl

/-- Settles O45: a wrong password length and a failed first `T_OPEN` rest in Closed, a session by
`openSession_rests`. -/
theorem openRests : Obligations.OpenRests := by
  intro s hw hp ht
  by_cases hpw : s.pwLen.toNat = s.cfg.pwLenReq
  · have hrun := openBody_tOpen hp hpw
    cases ha : s.nextAnswer.isOk with
    | false =>
      rw [ha] at hrun
      refine ⟨_, runCommand_ok hrun, ?_, by simp⟩
      simp [State.opened_phase, State.opened_topen, hp, ht]
    | true =>
      obtain ⟨-, -, -, -, -, hreq⟩ := Cfg.wf_facts hw
      have hk := (opened_held ht ha).setPhase .opening
      obtain ⟨e, t, hsession, hrests⟩ :=
        openSession_rests (s := { s.opened s.baudCur with topen := true, phase := .opening })
          (by simpa [State.opened] using hw) (by simp [State.opened]; omega) rfl rfl
      rw [ha, if_pos rfl, hsession] at hrun
      obtain ⟨hmem, hsuccess⟩ := hrests.of_session hk
      refine ⟨_, runCommand_ok hrun, ?_, fun he => ⟨hpw, hsuccess he⟩⟩
      rw [State.done_err, State.done_phase, State.done_topen]
      refine List.Sublist.mem hmem ?_
      decide
  · refine ⟨_, openChecksPasswordLength s hp hpw, ?_, by simp⟩
    simp [hp, ht]

end Sys2Proof.Machine
end

section
/-! `OPEN` of a device that is found at a later rate, whatever the calls before its answer return (R193). -/

namespace Sys2Proof.Machine

/-- What attempts at several rates have made of `s`: the calls `calls`, the answers `more` still to come, the
transport and the codec as the last attempt left them. -/
def State.Attempted (s : State) (calls : List Call) (more : List Answer) (t : State) : Prop :=
  t = { s with
    topen := t.topen, baudCur := t.baudCur, answers := more, trace := s.trace ++ calls, pb := t.pb, cur := t.cur
    rem := t.rem, rxlen := t.rxlen, txlen := t.txlen }

section

variable {s t u : State} {c : BitVec 3} {x : List Byte} {calls calls' : List Call} {more rest : List Answer}

theorem Probed.attempted (h : Probed s c x calls more t) : s.Attempted calls more t := by
  rw [State.Attempted, h.same]

theorem State.Attempted.trans (h : s.Attempted calls more t) (k : t.Attempted calls' rest u) :
    s.Attempted (calls ++ calls') rest u := by
  rw [State.Attempted] at h k ⊢
  rw [k, h]
  simp

theorem State.Attempted.cfg_eq (h : s.Attempted calls more t) : t.cfg = s.cfg := by rw [h]

theorem State.Attempted.answers_eq (h : s.Attempted calls more t) : t.answers = more := by rw [h]

theorem State.Attempted.trace_eq (h : s.Attempted calls more t) : t.trace = s.trace ++ calls := by rw [h]

theorem State.Attempted.pwLen_eq (h : s.Attempted calls more t) : t.pwLen = s.pwLen := by rw [h]

theorem State.Attempted.password_eq (h : s.Attempted calls more t) : t.password = s.password :=
  State.password_congr (by rw [h]; rfl)

end

/-- The loop goes on past the rates at which the device misses, trying each once, in their order. -/
theorem detectLoop_missed {cs : List (BitVec 3)} {bads : List (List Byte)} {s : State} {more : List Answer}
    (hw : s.cfg.wf = true) (hmiss : ∀ x ∈ bads, Misses s.cfg x) (hlen : bads.length ≤ cs.length)
    (hans : s.answers = bads.flatMap missAnswers ++ more) :
    ∃ t, (detectLoop cs).run s = (detectLoop (cs.drop bads.length)).run t ∧
      s.Attempted (attempts s.cfg cs bads) more t := by
  induction bads generalizing cs s with
  | nil =>
    refine ⟨s, rfl, ?_⟩
    rw [State.Attempted, attempts, List.zip_nil_right, List.flatMap_nil, List.append_nil, ← List.nil_append more,
      ← List.flatMap_nil, ← hans]
  | cons bad bads ih =>
    obtain ⟨d, cs, rfl⟩ := List.exists_cons_of_length_pos (Nat.lt_of_lt_of_le (Nat.succ_pos _) hlen)
    obtain ⟨t, hprobed, hrun⟩ := detectLoop_probe (c := d) (x := bad) cs hw (by simpa using hans)
    rw [if_neg (hmiss bad List.mem_cons_self)] at hrun
    have hcfg := hprobed.cfg_eq
    obtain ⟨u, hrun', hattempted⟩ := ih (cs := cs) (s := t) (by rwa [hcfg]) (hprobed.misses_tail hmiss)
      (Nat.le_of_succ_le_succ hlen) hprobed.answers_eq
    rw [hcfg] at hattempted
    exact ⟨u, hrun.trans hrun', by simpa [attempts] using hprobed.attempted.trans hattempted⟩

/-- An attempt that is acknowledged ends the loop, whatever strings its open and its send return. -/
theorem detectLoop_acked {s : State} {c : BitVec 3} {cs : List (BitVec 3)} {b b' : List Byte} {more : List Answer}
    (hw : s.cfg.wf = true) (hans : s.answers = .ok b :: .ok b' :: .ok (ackFrame s.cfg s.cfg.tcProbe) :: more) :
    ∃ t, (detectLoop (c :: cs)).run s = .ok .noError t ∧
      Probed s c (ackFrame s.cfg s.cfg.tcProbe) (missCalls s.cfg c (ackFrame s.cfg s.cfg.tcProbe)) more t := by
  have hprobed := probed_exchange (s := s.reopened c (.ok b' :: .ok (ackFrame s.cfg s.cfg.tcProbe) :: more)) hw rfl rfl
  refine ⟨_, (reopen_run c _ _ hans).trans ?_, hprobed.same.trans ?_, hprobed.holds⟩
  · exact (probe_run (s := s.reopened c (.ok b' :: .ok (ackFrame s.cfg s.cfg.tcProbe) :: more)) (detectLoop cs) hw rfl
      rfl).trans (if_pos (ackFrame_take hw _))
  · simp [State.reopened, missCalls]

/-- `DETECT` of a device that answers at none of the rates before code `c` and answers at `c` (R193). -/
theorem detect_later {s : State} {b b' b'' bad : List Byte} {bads : List (List Byte)} {c : BitVec 3}
    {more : List Answer} (hw : s.cfg.wf = true) (ht : s.topen = true) (hmiss : ∀ x ∈ bad :: bads, Misses s.cfg x)
    (hc : (otherCodes s.baudCur)[bads.length]? = some c)
    (hans : s.answers = .ok b :: .ok bad :: (bads.flatMap missAnswers ++
      .ok b' :: .ok b'' :: .ok (ackFrame s.cfg s.cfg.tcProbe) :: more)) :
    ∃ t, detect.run s = .ok .noError t ∧ t.topen = true ∧ t.baudCur = c ∧
      s.Attempted (detectCalls s bad bads ++ missCalls s.cfg c (ackFrame s.cfg s.cfg.tcProbe)) more t := by
  obtain ⟨t, hprobed, hrun⟩ := detect_probe hw ht hans
  rw [if_neg (hmiss bad List.mem_cons_self)] at hrun
  have htcfg := hprobed.cfg_eq
  obtain ⟨hlen, hget⟩ := List.getElem?_eq_some_iff.1 hc
  obtain ⟨u, hmissed, hattempted⟩ := detectLoop_missed (s := t) (by rwa [htcfg]) (hprobed.misses_tail hmiss) hlen.le
    hprobed.answers_eq
  rw [htcfg] at hattempted
  rw [List.drop_eq_getElem_cons hlen, hget] at hmissed
  have hucfg : u.cfg = s.cfg := hattempted.cfg_eq.trans htcfg
  obtain ⟨v, hfound, hacked⟩ := detectLoop_acked (s := u) (by rwa [hucfg])
    (by rw [hucfg]; exact hattempted.answers_eq)
  rw [hucfg] at hacked
  refine ⟨v, hrun.trans (hmissed.trans hfound), hacked.topen_eq, by rw [hacked.same], ?_⟩
  exact (hprobed.attempted.trans hattempted).trans hacked.attempted

/-- `AUTH` ends at its send when that fails (R194). -/
theorem auth_send_failed {s : State} {rest : List Answer} (hw : s.cfg.wf = true)
    (hpw : s.pwLen.toNat = s.cfg.pwLenReq) (ht : s.topen = true) (hans : s.answers = .fail :: rest) :
    auth.run s = .ok .transport { s with
      answers := rest
      trace := s.trace ++ [.tSend (txFrame s.cfg s.cfg.tcPasswd s.password) false]
      pb := Memory.writeList s.pb 0 (txFrame s.cfg s.cfg.tcPasswd s.password)
      cur := BitVec.ofNat 16 (frameLen s.cfg s.password.length)
      rem := 0
      txlen := BitVec.ofNat 16 (frameLen s.cfg s.password.length) } := by
  obtain ⟨hmin, -, -, -, -, hreq⟩ := Cfg.wf_facts hw
  have hcap : frameLen s.cfg s.password.length ≤ s.cfg.pbCap := by
    rw [State.password_length, hpw]
    simp only [frameLen]
    omega
  rw [auth, Micro.get_bind, Micro.bind_ok (encodeFrame_ok _ hw hcap), Micro.bind_ok (encode_send _ hw hcap ht),
    State.sent_eq, State.nextAnswer_of_cons hans, State.answered_of_cons hans]
  rfl

/-- A session whose detection succeeds and whose password cannot be sent rests in Negotiating (R191, R194). -/
theorem openSession_send_failed {s t : State} {rest : List Answer} (hw : t.cfg.wf = true)
    (hpw : t.pwLen.toNat = t.cfg.pwLenReq) (ht : t.topen = true) (hdetect : detect.run s = .ok .noError t)
    (hans : t.answers = .fail :: rest) : ∃ u, openSession.run s = .ok .transport u ∧
      u = { t with
        phase := .negotiating, answers := rest
        trace := t.trace ++ [.tSend (txFrame t.cfg t.cfg.tcPasswd t.password) false]
        pb := u.pb, cur := u.cur, rem := u.rem, txlen := u.txlen } :=
  have hauth := auth_send_failed (s := { t with phase := .negotiating }) hw hpw ht hans
  ⟨_, (orElseDone_ok hdetect).trans (orElseDone_err hauth (by simp)), rfl⟩

/-- Settles O47: `detect_later`, and then the password's send fails. -/
theorem openFindsRate : Obligations.OpenFindsRate := by
  intro s b0 b1 b2 bad bads c rest hw hp hpw hmiss hc hans
  obtain ⟨t, hdetect, hheld, hbaud, hattempted⟩ := detect_later (s := s.openedAt (.ok b1 :: .ok bad ::
    (bads.flatMap missAnswers ++ .ok b2 :: .ok b2 :: .ok (ackFrame s.cfg s.cfg.tcProbe) :: .fail :: rest))) hw rfl
    hmiss hc rfl
  have hcfg : t.cfg = s.cfg := hattempted.cfg_eq
  have hlen : t.pwLen = s.pwLen := hattempted.pwLen_eq
  have hpass : t.password = s.password := hattempted.password_eq
  obtain ⟨u, hsession, hu⟩ := openSession_send_failed (by rwa [hcfg]) (by rwa [hlen, hcfg]) hheld hdetect
    hattempted.answers_eq
  refine ⟨_, runCommand_ok ((openBody_opened hp hpw hans).trans hsession), ?_⟩
  rw [hu]
  refine ⟨rfl, hheld, rfl, hbaud, rfl, ?_⟩
  rw [State.done_trace, hattempted.trace_eq, hcfg, hpass]
  simp [State.openedAt, detectCalls, attempts]

end Sys2Proof.Machine
end

section
/-! The computed reads: `DIST` (R246), `DMIN` and `DMAX` (R247), `RESOL` and the two angles (R248). -/

namespace Sys2Proof

/-- The two factors of the scan conversion are at most 65535 (R6). -/
theorem Cfg.wf_factors {c : Cfg} (h : c.wf = true) : c.scaleNum ≤ 65535 ∧ c.angleLsb ≤ 65535 := by
  simp only [Cfg.wf, Cfg.scaleOk, Cfg.angleOk, Bool.and_eq_true, decide_eq_true_eq] at h
  obtain ⟨⟨⟨-, -, hscale⟩, -⟩, -, hangle⟩ := h
  exact ⟨hscale, hangle⟩

end Sys2Proof

namespace Sys2Proof.Machine

/-! ### The values -/

/-- A 16-bit word times a factor of R6 fits the 32-bit host word. -/
theorem half_mul_toNat (h : Half) {k : Nat} (hk : k ≤ 65535) :
    (BitVec.ofNat 32 (h.toNat * k)).toNat = h.toNat * k := by
  have hword : h.toNat ≤ 65535 := Nat.le_of_lt_succ h.isLt
  have hprod : h.toNat * k ≤ 65535 * 65535 := Nat.mul_le_mul hword hk
  rw [BitVec.toNat_ofNat, Nat.mod_eq_of_lt (by omega)]

theorem scaledDist_toNat {c : Cfg} (hw : c.wf = true) (raw : Half) :
    (scaledDist c raw).toNat = raw.toNat * c.scaleNum := half_mul_toNat raw (Cfg.wf_factors hw).1

theorem State.resol_toNat {s : State} (hw : s.cfg.wf = true) :
    s.resol.toNat = s.winStep.toNat * s.cfg.angleLsb := half_mul_toNat s.winStep (Cfg.wf_factors hw).2

theorem angleOf_toNat (c : Cfg) (i : Half) :
    (angleOf c i).toNat = (c.angleOrigin.toNat + i.toNat * c.angleLsb) % 2 ^ 32 := by
  rw [angleOf, BitVec.toNat_add, BitVec.toNat_ofNat, Nat.add_mod_mod]

/-! ### Reads guarded by `IDX` -/

theorem readDist_valid {s : State} (h : s.scanValid = true ∧ s.idx.toNat < s.dcount) :
    readDist s = (scaledDist s.cfg (s.rawRead s.idx.toNat), s) := if_pos h

theorem readDist_refused {s : State} (h : ¬ (s.scanValid = true ∧ s.idx.toNat < s.dcount)) :
    readDist s = (0, s.done .precondition) := if_neg h

theorem readLimit_valid {s : State} (limit : Word) (h : s.idx.toNat < s.dcount) :
    readLimit limit s = (limit, s) := if_pos h

theorem readLimit_refused {s : State} (limit : Word) (h : ¬ s.idx.toNat < s.dcount) :
    readLimit limit s = (0, s.done .precondition) := if_neg h

/-- A step that reads without a side effect (R74). -/
theorem step_regRead_kept {s : State} {n : BitVec 8} {v : Word} {q : List HostOp} (h : s.hostq = .regRead n :: q)
    (hread : regRead n { s with hostq := q } = (v, { s with hostq := q })) :
    step s = .next { s with hostq := q, reads := s.reads ++ [(n, v)] } := by
  rw [step_regRead h, hread]

/-- A step whose read faults returns 0 and is a PreconditionError (R246, R247). -/
theorem step_regRead_faulted {s : State} {n : BitVec 8} {q : List HostOp} (h : s.hostq = .regRead n :: q)
    (hread : regRead n { s with hostq := q } = (0, State.done { s with hostq := q } .precondition)) :
    step s = .next { s with
      hostq := q, reads := s.reads ++ [(n, 0)], err := .precondition, esticky := s.esticky ||| 0b100000 } := by
  rw [step_regRead h, hread]
  rfl

/-- A step that reads a limit register: the limit at a valid index, else a fault (R247). -/
theorem step_readLimit {s : State} {n : BitVec 8} {limit : Word} {q : List HostOp} (h : s.hostq = .regRead n :: q)
    (hread : regRead n { s with hostq := q } = readLimit limit { s with hostq := q }) :
    if s.idx.toNat < s.dcount then step s = .next { s with hostq := q, reads := s.reads ++ [(n, limit)] }
    else step s = .next { s with
      hostq := q, reads := s.reads ++ [(n, 0)], err := .precondition, esticky := s.esticky ||| 0b100000 } := by
  split
  next hidx => exact step_regRead_kept h (hread.trans (readLimit_valid limit hidx))
  next hidx => exact step_regRead_faulted h (hread.trans (readLimit_refused limit hidx))

/-! ### The statements -/

/-- Settles O20: the product of two 16-bit factors is exact, and a read that its guard refuses faults. -/
theorem distRead : Obligations.DistRead := by
  intro s q hw h
  split
  next hscan => exact ⟨_, scaledDist_toNat hw _, step_regRead_kept h (readDist_valid hscan)⟩
  next hscan => exact step_regRead_faulted h (readDist_refused hscan)

/-- Settles O21: both registers are `readLimit` at their own limit. -/
theorem limitReads : Obligations.LimitReads := by
  rintro s q n limit h (⟨rfl, rfl⟩ | ⟨rfl, rfl⟩)
  · exact step_readLimit h rfl
  · exact step_readLimit h rfl

/-- Settles O22: each number names its register, whose read has no side effect; the values are those above. -/
theorem angleReads : Obligations.AngleReads := by
  rintro s q n hw h (rfl | rfl | rfl)
  · exact ⟨s.resol, step_regRead_kept h rfl, fun _ => State.resol_toNat hw, (absurd · (by decide)),
      (absurd · (by decide))⟩
  · exact ⟨angleOf s.cfg s.winStart, step_regRead_kept h rfl, (absurd · (by decide)), fun _ => angleOf_toNat _ _,
      (absurd · (by decide))⟩
  · exact ⟨angleOf s.cfg s.winStop, step_regRead_kept h rfl, (absurd · (by decide)), (absurd · (by decide)),
      fun _ => angleOf_toNat _ _⟩

end Sys2Proof.Machine
end

section
/-! The step with no host access waiting (R287, R302). -/

namespace Sys2Proof.Machine

/-- Settles O7: with an empty access list the fetch is idle, and `step_idle` says what the step then answers. -/
theorem idleHolds : Obligations.IdleHolds := fun _ hq => step_idle hq

end Sys2Proof.Machine
end

section
/-! What the host has put into the codec cannot disturb the sequencer (R311). Said of a routine as: run from two states
of one block that differ in the codec's registers only, it returns the same and leaves two such states. -/

namespace Sys2Proof.Machine

/-! ### The codec's registers -/

/-- `PB`, `CUR`, `REM`, `RXLEN`, `TXLEN`, `DATA` and `CRCOUT`. -/
structure CodecRegs where
  pb : Memory
  cur : Half
  rem : Half
  rxlen : Half
  txlen : Half
  data : Byte
  crcout : Byte

/-- What those registers hold. -/
def State.codecRegs (s : State) : CodecRegs := ⟨s.pb, s.cur, s.rem, s.rxlen, s.txlen, s.data, s.crcout⟩

/-- The state with other contents in them. -/
def State.withCodec (s : State) (k : CodecRegs) : State :=
  { s with
    pb := k.pb, cur := k.cur, rem := k.rem, rxlen := k.rxlen, txlen := k.txlen, data := k.data, crcout := k.crcout }

@[simp] theorem State.withCodec_cfg (s : State) (k : CodecRegs) : (s.withCodec k).cfg = s.cfg := rfl
@[simp] theorem State.withCodec_pwLen (s : State) (k : CodecRegs) : (s.withCodec k).pwLen = s.pwLen := rfl
@[simp] theorem State.withCodec_topen (s : State) (k : CodecRegs) : (s.withCodec k).topen = s.topen := rfl
@[simp] theorem State.withCodec_password (s : State) (k : CodecRegs) : (s.withCodec k).password = s.password := rfl
@[simp] theorem State.withCodec_nextAnswer (s : State) (k : CodecRegs) :
    (s.withCodec k).nextAnswer = s.nextAnswer := rfl

@[simp] theorem State.withCodec_answered (s : State) (k : CodecRegs) :
    (s.withCodec k).answered = s.answered.withCodec k := by
  unfold State.answered State.withCodec
  cases s.answers <;> rfl

/-- A call is traced whatever the codec holds. -/
theorem State.withCodec_traced (s : State) (k : CodecRegs) (c : Call) :
    (s.withCodec k).traced c = (s.traced c).withCodec k := rfl

/-- The two states differ in the codec's registers only. -/
def State.Alike (s s' : State) : Prop := s' = s.withCodec s'.codecRegs

theorem State.alike_withCodec (s : State) (k k' : CodecRegs) : (s.withCodec k).Alike (s.withCodec k') := rfl

theorem State.Alike.exists_eq {s s' : State} (h : s.Alike s') : ∃ k, s' = s.withCodec k := ⟨_, h⟩

theorem State.Alike.done {s s' : State} (h : s.Alike s') (e : ErrCode) : (s.done e).Alike (s'.done e) := by
  obtain ⟨k, rfl⟩ := h.exists_eq
  rfl

/-! ### Routines that cannot be disturbed -/

/-- Two states of a block with configuration `c` and `PW_LEN` at `n` that differ in the codec's registers only. -/
structure Twins (c : Cfg) (n : BitVec 4) (s s' : State) : Prop where
  cfg_eq : s.cfg = c
  pwLen_eq : s.pwLen = n
  alike : s.Alike s'

/-- From any such two states the routine returns the same, with no Overrun, and leaves two such states. -/
def Undisturbed {α : Type} (c : Cfg) (n : BitVec 4) (m : Micro α) : Prop :=
  ∀ s s', Twins c n s s' → ∃ x t t', m.run s = .ok x t ∧ m.run s' = .ok x t' ∧ Twins c n t t'

section

variable {c : Cfg} {n : BitVec 4} {α β : Type}

theorem undisturbed_pure (x : α) : Undisturbed c n (pure x : Micro α) :=
  fun s s' h => ⟨x, s, s', rfl, rfl, h⟩

theorem Undisturbed.bind {m : Micro α} {f : α → Micro β} (hm : Undisturbed c n m)
    (hf : ∀ x, Undisturbed c n (f x)) : Undisturbed c n (m >>= f) := by
  intro s s' h
  obtain ⟨x, t, t', hrun, hrun', ht⟩ := hm s s' h
  rw [Micro.bind_ok hrun, Micro.bind_ok hrun']
  exact hf x t t' ht

/-- A routine that begins by looking at the state, at nothing in the codec. -/
theorem Undisturbed.get_bind {f : State → Micro α} (hf : ∀ s k, f (s.withCodec k) = f s)
    (hb : ∀ s, s.cfg = c → s.pwLen = n → Undisturbed c n (f s)) : Undisturbed c n (get >>= f) := by
  intro s s' h
  obtain ⟨k, rfl⟩ := h.alike.exists_eq
  rw [Micro.get_bind, Micro.get_bind, hf]
  exact hb s h.cfg_eq h.pwLen_eq _ _ h

theorem Undisturbed.ite {p : Prop} [Decidable p] {m m' : Micro α} (hm : p → Undisturbed c n m)
    (hm' : ¬ p → Undisturbed c n m') : Undisturbed c n (if p then m else m') := by
  split
  next hp => exact hm hp
  next hp => exact hm' hp

/-- A routine whose reply, and whose state up to what it leaves in the codec, can be read off the state before it
without looking at the codec. -/
theorem Undisturbed.of_run {m : Micro α} (g : State → α) (f : State → State)
    (hrun : ∀ s, s.cfg = c → s.pwLen = n → ∃ k, m.run s = .ok (g s) ((f s).withCodec k))
    (hg : ∀ s k, g (s.withCodec k) = g s) (hf : ∀ s k, f (s.withCodec k) = (f s).withCodec k)
    (hkeep : ∀ s, (f s).cfg = s.cfg ∧ (f s).pwLen = s.pwLen) : Undisturbed c n m := by
  rintro s s' ⟨rfl, rfl, halike⟩
  obtain ⟨k, rfl⟩ := halike.exists_eq
  obtain ⟨k₁, h₁⟩ := hrun s rfl rfl
  obtain ⟨k₂, h₂⟩ := hrun (s.withCodec k) rfl rfl
  rw [hg, hf] at h₂
  obtain ⟨hcfg, hpw⟩ := hkeep s
  exact ⟨_, _, _, h₁, h₂, hcfg, hpw, State.alike_withCodec (f s) k₁ k₂⟩

/-- A routine that only writes registers outside the codec. -/
theorem Undisturbed.of_write {m : Micro Unit} (f : State → State) (hrun : ∀ s, m.run s = .ok () (f s))
    (hf : ∀ s k, f (s.withCodec k) = (f s).withCodec k)
    (hkeep : ∀ s, (f s).cfg = s.cfg ∧ (f s).pwLen = s.pwLen) : Undisturbed c n m :=
  .of_run (fun _ => ()) f (fun s _ _ => ⟨(f s).codecRegs, hrun s⟩) (fun _ _ => rfl) hf hkeep

theorem undisturbed_orElseDone {m rest : Micro ErrCode} (hm : Undisturbed c n m) (hr : Undisturbed c n rest) :
    Undisturbed c n (orElseDone m rest) :=
  hm.bind fun e => by
    cases e with
    | noError => exact hr
    | _ => exact undisturbed_pure _

/-! ### The registers of the sequencer and the transport -/

theorem undisturbed_setPhase (p : Phase) : Undisturbed c n (setPhase p) :=
  .of_write (fun s => { s with phase := p }) (fun _ => rfl) (fun _ _ => rfl) fun _ => ⟨rfl, rfl⟩

theorem undisturbed_lockRunning : Undisturbed c n lockRunning :=
  .of_write (fun s => { s with phase := .running, cfgLock := true }) (fun _ => rfl) (fun _ _ => rfl)
    fun _ => ⟨rfl, rfl⟩

theorem undisturbed_holdTransport : Undisturbed c n holdTransport :=
  .of_write (fun s => { s with topen := true }) (fun _ => rfl) (fun _ _ => rfl) fun _ => ⟨rfl, rfl⟩

theorem undisturbed_setBaudCur (b : BitVec 3) : Undisturbed c n (setBaudCur b) :=
  .of_write (fun s => { s with baudCur := b }) (fun _ => rfl) (fun _ _ => rfl) fun _ => ⟨rfl, rfl⟩

theorem undisturbed_tClose : Undisturbed c n tClose :=
  .of_write State.closed tClose_run (fun _ _ => rfl) fun _ => ⟨rfl, rfl⟩

theorem undisturbed_tOpen (b : BitVec 3) : Undisturbed c n (tOpen b) :=
  .of_run (fun s => s.nextAnswer.isOk) (fun s => s.opened b)
    (fun s _ _ => ⟨(s.opened b).codecRegs, tOpen_run b s⟩) (fun _ _ => rfl)
    (fun s k => by rw [State.opened, State.withCodec_answered]; rfl) fun s => by simp [State.opened]

end

/-! ### Frames -/

/-- What a send of `tc` in `s` leaves outside the codec: its call and the answer to it (R82, R166). -/
def State.sendMade (s : State) (tc : Byte) (p : List Byte) : State :=
  if s.topen then s.answered.traced (.tSend (txFrame s.cfg tc p) s.nextAnswer.isOk) else s

theorem State.withCodec_sendMade (s : State) (k : CodecRegs) (tc : Byte) (p : List Byte) :
    (s.withCodec k).sendMade tc p = (s.sendMade tc p).withCodec k := by
  simp only [State.sendMade, State.withCodec_answered, State.withCodec_topen, State.withCodec_nextAnswer,
    State.withCodec_cfg, State.withCodec_traced, apply_ite (State.withCodec · k)]

theorem State.sendMade_keeps (s : State) (tc : Byte) (p : List Byte) :
    (s.sendMade tc p).cfg = s.cfg ∧ (s.sendMade tc p).pwLen = s.pwLen := by
  unfold State.sendMade
  split <;> simp

/-- The frame just encoded and sent is in the codec; the rest is its call. -/
theorem State.sent_eq_sendMade {s : State} (tc : Byte) (p : List Byte) (ht : s.topen = true) :
    s.sent tc p = (s.sendMade tc p).withCodec (s.encoded tc p).codecRegs := by
  rw [State.sendMade, if_pos ht]
  exact congrArg (State.traced · (.tSend (txFrame s.cfg tc p) s.nextAnswer.isOk))
    (s.withCodec_answered (s.encoded tc p).codecRegs)

theorem State.withCodec_polled (s : State) (k : CodecRegs) (len : Nat) :
    (s.withCodec k).polled len = (s.polled len).withCodec k := by
  rw [State.polled, State.withCodec_answered]
  rfl

/-- What an exchange leaves outside the codec (R171). -/
def State.exchangeMade (s : State) (tc : Byte) (p : List Byte) : State :=
  { s.exchangeAnswered with trace := s.trace ++ s.exchangeCalls tc p }

theorem State.withCodec_exchangeAnswered (s : State) (k : CodecRegs) :
    (s.withCodec k).exchangeAnswered = s.exchangeAnswered.withCodec k := by
  simp only [State.exchangeAnswered, State.withCodec_answered, State.withCodec_topen, State.withCodec_nextAnswer,
    apply_ite (State.withCodec · k)]

theorem State.exchangeAnswered_keeps (s : State) :
    s.exchangeAnswered.cfg = s.cfg ∧ s.exchangeAnswered.pwLen = s.pwLen := by
  rw [State.exchangeAnswered_same]
  exact ⟨rfl, rfl⟩

section

variable {c : Cfg} {n : BitVec 4} (hw : c.wf = true)

include hw

/-- A frame of up to eight payload bytes fits the buffer of an admissible block. -/
theorem frameLen_le_pbCap {m : Nat} (hm : m ≤ 8) : frameLen c m ≤ c.pbCap := by
  have hmin := (Cfg.wf_facts hw).1
  simp only [frameLen]
  omega

/-- `ENCODE` and `SEND`: the frame sent is the one just encoded, whatever was in the buffer (R165, R166). -/
theorem undisturbed_send {p : List Byte} (tc : Byte) (hp : p.length ≤ 8) :
    Undisturbed c n (encodeFrame tc p >>= fun _ => sendFrame) := by
  refine .of_run (fun s => if s.topen && s.nextAnswer.isOk then .ok else .tfail) (fun s => s.sendMade tc p)
    (fun s hc _ => ?_) (fun _ _ => rfl) (fun s k => s.withCodec_sendMade k tc p) fun s => s.sendMade_keeps tc p
  subst hc
  have hcap := frameLen_le_pbCap hw hp
  refine ⟨(s.encoded tc p).codecRegs, ?_⟩
  rw [Micro.bind_ok (encodeFrame_ok tc hw hcap)]
  cases ht : s.topen with
  | false =>
    have hnone : s.sendMade tc p = s := if_neg (by simp [ht])
    rw [encode_send_released tc ht, hnone]
    rfl
  | true =>
    rw [encode_send tc hw hcap ht, State.sent_eq_sendMade tc p ht]
    rfl

/-- A routine that goes on from such a send. -/
theorem undisturbed_send_bind {α : Type} {p : List Byte} {f : Reply → Micro α} (tc : Byte) (hp : p.length ≤ 8)
    (hf : ∀ r, Undisturbed c n (f r)) :
    Undisturbed c n (do encodeFrame tc p; let r ← sendFrame; f r) := by
  rw [← bind_assoc]
  exact (undisturbed_send hw tc hp).bind hf

theorem undisturbed_xack {p : List Byte} (tc : Byte) (hp : p.length ≤ 8) : Undisturbed c n (xack tc p) := by
  refine .of_run (fun s => s.reply tc) (fun s => s.exchangeMade tc p) (fun s hc _ => ?_) (fun s k => ?_) (fun s k => ?_)
    fun s => s.exchangeAnswered_keeps
  · subst hc
    exact ⟨(s.exchanged tc p).codecRegs, xack_exchange tc hw (frameLen_le_pbCap hw hp)⟩
  · rw [State.reply, State.withCodec_answered]
    rfl
  · rw [State.exchangeMade, State.withCodec_exchangeAnswered, State.exchangeCalls, State.withCodec_answered]
    rfl

/-! ### DETECT, RENEG_SUB, CFGWIN_SUB -/

theorem undisturbed_detectLoop (cs : List (BitVec 3)) : Undisturbed c n (detectLoop cs) := by
  induction cs with
  | nil => exact undisturbed_pure _
  | cons b bs ih =>
    refine undisturbed_tClose.bind fun _ => (undisturbed_tOpen b).bind fun _ =>
      .ite (fun _ => ?_) fun _ => undisturbed_pure _
    refine undisturbed_holdTransport.bind fun _ => (undisturbed_setBaudCur b).bind fun _ =>
      .get_bind (fun _ _ => rfl) fun s _ _ => (undisturbed_xack hw (p := []) _ (Nat.zero_le 8)).bind fun r => ?_
    cases r with
    | reject => exact ih
    | ok | tfail => exact undisturbed_pure _

theorem undisturbed_detect : Undisturbed c n detect :=
  .get_bind (fun _ _ => rfl) fun s _ _ => (undisturbed_xack hw (p := []) _ (Nat.zero_le 8)).bind fun r => by
    cases r with
    | reject => exact undisturbed_detectLoop hw _
    | ok | tfail => exact undisturbed_pure _

omit hw in
theorem undisturbed_revert (old : BitVec 3) : Undisturbed c n (revert old) :=
  (undisturbed_setBaudCur old).bind fun _ => (undisturbed_tOpen old).bind fun _ =>
    .ite (fun _ => undisturbed_holdTransport.bind fun _ => undisturbed_pure _) fun _ => undisturbed_pure _

theorem undisturbed_verify (old : BitVec 3) : Undisturbed c n (verify old) :=
  .get_bind (fun _ _ => rfl) fun s _ _ => (undisturbed_xack hw (p := []) _ (Nat.zero_le 8)).bind fun r => by
    cases r with
    | ok => exact undisturbed_pure _
    | tfail | reject => exact undisturbed_tClose.bind fun _ => undisturbed_revert old

theorem undisturbed_reconfigure (old new : BitVec 3) : Undisturbed c n (reconfigure old new) :=
  undisturbed_tClose.bind fun _ => (undisturbed_tOpen new).bind fun _ => .ite
    (fun _ => undisturbed_holdTransport.bind fun _ => (undisturbed_setBaudCur new).bind fun _ =>
      undisturbed_verify hw old)
    fun _ => undisturbed_revert old

theorem undisturbed_renegSub : Undisturbed c n renegSub :=
  .get_bind (fun _ _ => rfl) fun s _ _ => .ite (fun _ => undisturbed_pure _) fun _ =>
    (undisturbed_xack hw _ (by simp [baudPayload])).bind fun r => by
      cases r with
      | tfail | reject => exact undisturbed_pure _
      | ok => exact undisturbed_reconfigure hw _ _

theorem undisturbed_cfgwinSub : Undisturbed c n cfgwinSub :=
  .get_bind (fun _ _ => rfl) fun s _ _ => .ite
    (fun _ => (undisturbed_xack hw _ (by simp [State.windowPayload])).bind fun _ => undisturbed_pure _)
    fun _ => undisturbed_pure _

end

/-! ### AUTH (R194) -/

/-- The code `AUTH` ends with once the frame of password `pw` has been sent and the environment answers in `u`. -/
def State.echoErr (u : State) (pw : List Byte) : ErrCode :=
  match u.nextAnswer.received (frameLen u.cfg pw.length) with
  | none => .transport
  | some bs => if bs = rxFrame u.cfg u.cfg.tcPasswd pw then .noError else .authentication

/-- The receiving half of `AUTH` after the password's frame. -/
theorem awaitEcho_run {u : State} {pw : List Byte} (hw : u.cfg.wf = true) (ht : u.topen = true)
    (hpw : pw.length = u.pwLen.toNat) (hcap : frameLen u.cfg pw.length ≤ u.cfg.pbCap)
    (hcur : u.cur = BitVec.ofNat 16 (frameLen u.cfg pw.length)) :
    ∃ k, (awaitEcho pw).run u = .ok (u.echoErr pw) ((u.polled (frameLen u.cfg pw.length)).withCodec k) := by
  have hrecv := recvFrame_eq u (frameLen u.cfg pw.length)
  rw [if_pos ht] at hrecv
  rw [awaitEcho, Micro.get_bind, ← hpw, State.echoErr]
  cases hr : u.nextAnswer.received (frameLen u.cfg pw.length) with
  | none =>
    rw [hr] at hrecv
    exact ⟨(u.polled (frameLen u.cfg pw.length)).codecRegs, Micro.bind_ok hrecv⟩
  | some bs =>
    rw [hr] at hrecv
    obtain ⟨v, hv⟩ : ∃ v, v = u.polled (frameLen u.cfg pw.length) := ⟨_, rfl⟩
    have hcfg : v.cfg = u.cfg := by simp [hv, State.polled]
    have hecho := checkEcho_store (u := v) (pw := pw) (bs := bs) (by rwa [hcfg]) (by simp [hv, State.polled, hpw])
      (by rwa [hcfg]) (by rw [hcfg]; exact Answer.received_length hr) (by simp [hv, State.polled, hcur])
    rw [hcfg] at hecho
    rw [← hv] at hrecv ⊢
    exact ⟨((v.store bs).withCur (echoCursor u.cfg pw bs)).codecRegs, (Micro.bind_ok hrecv).trans hecho⟩

/-- Whether `AUTH` in `s` comes to its receive: the transport is held and the password's frame was sent. -/
def State.awaitsEcho (s : State) : Bool := s.topen && s.nextAnswer.isOk

/-- What `AUTH` leaves outside the codec. -/
def State.authMade (s : State) : State :=
  if s.awaitsEcho then (s.sendMade s.cfg.tcPasswd s.password).polled (frameLen s.cfg s.password.length)
  else s.sendMade s.cfg.tcPasswd s.password

/-- `AUTH`: its code, and its calls, are read off the answers to them. -/
theorem auth_run_withCodec {s : State} (hw : s.cfg.wf = true) (hlen : s.pwLen.toNat ≤ 8) : ∃ k, auth.run s =
    .ok (if s.awaitsEcho then (s.sendMade s.cfg.tcPasswd s.password).echoErr s.password else .transport)
      (s.authMade.withCodec k) := by
  have hpw : s.password.length ≤ 8 := by rwa [State.password_length]
  have hcap := frameLen_le_pbCap hw hpw
  obtain ⟨u, hu⟩ : ∃ u, u = s.sent s.cfg.tcPasswd s.password := ⟨_, rfl⟩
  rw [auth, Micro.get_bind, Micro.bind_ok (encodeFrame_ok _ hw hcap), State.authMade]
  cases ht : s.topen with
  | false =>
    have hnone : s.sendMade s.cfg.tcPasswd s.password = s := if_neg (by simp [ht])
    have hstop : s.awaitsEcho = false := by simp [State.awaitsEcho, ht]
    rw [Micro.bind_ok (encode_send_released _ ht), hstop, hnone]
    exact ⟨(s.encoded s.cfg.tcPasswd s.password).codecRegs, rfl⟩
  | true =>
    have hsent := State.sent_eq_sendMade s.cfg.tcPasswd s.password ht
    rw [Micro.bind_ok (encode_send _ hw hcap ht), hsent]
    cases ha : s.nextAnswer.isOk with
    | false =>
      have hstop : s.awaitsEcho = false := by simp [State.awaitsEcho, ha]
      rw [hstop]
      exact ⟨(s.encoded s.cfg.tcPasswd s.password).codecRegs, rfl⟩
    | true =>
      have hgo : s.awaitsEcho = true := by simp [State.awaitsEcho, ht, ha]
      obtain ⟨hcfg, hlen'⟩ := s.sendMade_keeps s.cfg.tcPasswd s.password
      obtain ⟨k, hrun⟩ := awaitEcho_run
        (u := (s.sendMade s.cfg.tcPasswd s.password).withCodec (s.encoded s.cfg.tcPasswd s.password).codecRegs)
        (pw := s.password) (by rwa [State.withCodec_cfg, hcfg])
        (by simp [State.sendMade, ht]) (by rw [State.password_length, State.withCodec_pwLen, hlen'])
        (by rwa [State.withCodec_cfg, hcfg]) (by rw [State.withCodec_cfg, hcfg]; rfl)
      rw [State.withCodec_cfg, hcfg, State.withCodec_polled] at hrun
      rw [hgo]
      exact ⟨k, hrun⟩

theorem undisturbed_auth {c : Cfg} {n : BitVec 4} (hw : c.wf = true) (hn : n.toNat ≤ 8) : Undisturbed c n auth := by
  refine .of_run _ State.authMade (fun s hc hs => auth_run_withCodec (by rwa [hc]) (by rwa [hs]))
    (fun s k => ?_) (fun s k => ?_) fun s => ?_
  · rw [State.withCodec_password, State.withCodec_cfg, State.withCodec_sendMade]
    rfl
  · simp only [State.authMade, State.withCodec_password, State.withCodec_cfg, State.withCodec_sendMade,
      State.withCodec_polled, apply_ite (State.withCodec · k)]
    rfl
  · obtain ⟨hcfg, hlen⟩ := s.sendMade_keeps s.cfg.tcPasswd s.password
    unfold State.authMade
    split <;> simp [State.polled, hcfg, hlen]

/-! ### STEP (R240) -/

/-- An answer that carries a sealed scan frame is committed, and what is committed is in the answer. -/
theorem acquire_accepted {s : State} {bs : List Byte} {f : Byte} {ws : List Half} (hw : s.cfg.wf = true)
    (hcap : s.cfg.hdrLen + 3 + 2 * ws.length ≤ s.cfg.pbCap) (ht : s.topen = true) (ha : s.nextAnswer = .ok bs)
    (hscan : bs.take (s.cfg.hdrLen + 3 + 2 * ws.length) = rxFrame s.cfg s.cfg.trScan (scanPayload f ws)) :
    (acquire ws.length).run s = .ok .noError ((s.gotAt (s.cfg.hdrLen + 3 + 2 * ws.length) bs
      (BitVec.ofNat 16 (s.cfg.hdrLen + 2 + 2 * ws.length))).commitScan f ws) := by
  rcases acquire_received ws.length hw hcap ht ha with ⟨g, vs, hvs, hframe, hrun⟩ | ⟨hno, -⟩
  · have hlen : (scanPayload f ws).length = (scanPayload g vs).length := by
      rw [scanPayload_length, scanPayload_length, hvs]
    obtain ⟨rfl, rfl⟩ := scanPayload_inj (frameBytes_inj hlen (hscan.symm.trans hframe)).2
    exact hrun
  · exact absurd ⟨f, ws, rfl, hscan⟩ hno

theorem State.gotAt_alike (s : State) (k : CodecRegs) (len : Nat) (bs : List Byte) (cur cur' : Half) :
    (s.gotAt len bs cur).Alike ((s.withCodec k).gotAt len bs cur') := by
  rw [State.gotAt, State.gotAt, State.withCodec_polled]
  rfl

theorem State.Alike.commitScan {s s' : State} (h : s.Alike s') (f : Byte) (ws : List Half) :
    (s.commitScan f ws).Alike (s'.commitScan f ws) := by
  obtain ⟨k, rfl⟩ := h.exists_eq
  rfl

theorem undisturbed_acquire {c : Cfg} {n : BitVec 4} (hw : c.wf = true) (m : Nat)
    (hcap : c.hdrLen + 3 + 2 * m ≤ c.pbCap) : Undisturbed c n (acquire m) := by
  rintro s s' ⟨rfl, rfl, halike⟩
  obtain ⟨k, rfl⟩ := halike.exists_eq
  have got (bs : List Byte) (cur cur' : Half) : Twins s.cfg s.pwLen (s.gotAt (s.cfg.hdrLen + 3 + 2 * m) bs cur)
      ((s.withCodec k).gotAt (s.cfg.hdrLen + 3 + 2 * m) bs cur') :=
    ⟨by simp [State.gotAt, State.polled], by simp [State.gotAt, State.polled, State.withCur],
      s.gotAt_alike k _ bs cur cur'⟩
  cases ht : s.topen with
  | false => exact ⟨_, _, _, acquire_released m ht, acquire_released m (s := s.withCodec k) ht, rfl, rfl, halike⟩
  | true =>
    cases ha : s.nextAnswer with
    | fail =>
      refine ⟨_, _, _, acquire_fail m ht ha, acquire_fail m (s := s.withCodec k) ht ha, by simp [State.polled],
        by simp [State.polled], ?_⟩
      rw [State.withCodec_cfg, State.withCodec_polled]
      rfl
    | ok bs =>
      by_cases hscan : ∃ f ws, ws.length = m ∧
          bs.take (s.cfg.hdrLen + 3 + 2 * m) = rxFrame s.cfg s.cfg.trScan (scanPayload f ws)
      · obtain ⟨f, ws, rfl, hframe⟩ := hscan
        obtain ⟨hcfg, hpw, hgot⟩ := got bs (BitVec.ofNat 16 (s.cfg.hdrLen + 2 + 2 * ws.length))
          (BitVec.ofNat 16 (s.cfg.hdrLen + 2 + 2 * ws.length))
        exact ⟨_, _, _, acquire_accepted hw hcap ht ha hframe,
          acquire_accepted (s := s.withCodec k) hw hcap ht ha hframe, hcfg, hpw, hgot.commitScan f ws⟩
      · have rejected (u : State) (hu : u.cfg = s.cfg) (hut : u.topen = true) (hua : u.nextAnswer = .ok bs) :
            ∃ cur, (acquire m).run u = .ok .protocol (u.gotAt (s.cfg.hdrLen + 3 + 2 * m) bs cur) := by
          rw [← hu] at hw hcap hscan ⊢
          rcases acquire_received m hw hcap hut hua with ⟨f, ws, hws, hframe, -⟩ | ⟨-, hrun⟩
          · exact absurd ⟨f, ws, hws, hframe⟩ hscan
          · exact ⟨_, hrun⟩
        obtain ⟨cur, hrun⟩ := rejected s rfl ht ha
        obtain ⟨cur', hrun'⟩ := rejected (s.withCodec k) rfl ht ha
        exact ⟨_, _, _, hrun, hrun', got bs cur cur'⟩

/-! ### The bodies of the commands -/

section

variable {c : Cfg} {n : BitVec 4} (hw : c.wf = true)

include hw

theorem undisturbed_stepBody : Undisturbed c n stepBody :=
  .get_bind (fun _ _ => rfl) fun s hc _ => .ite (fun _ => undisturbed_pure _) fun _ =>
    have acquired : Undisturbed c n (acquire s.dcount) := by
      subst hc
      exact undisturbed_acquire hw _ (s.scanLen_le hw)
    .ite (fun _ => undisturbed_send_bind hw (p := []) _ (Nat.zero_le 8) fun r => by
      cases r with
      | ok => exact acquired
      | tfail | reject => exact undisturbed_pure _) fun _ => acquired

omit hw in
theorem undisturbed_closeBody : Undisturbed c n closeBody := by
  have release : Undisturbed c n releaseTransport :=
    .get_bind (fun _ _ => rfl) fun _ _ _ => .ite (fun _ => undisturbed_tClose) fun _ => undisturbed_pure _
  exact release.bind fun _ => (undisturbed_setPhase _).bind fun _ => undisturbed_pure _

theorem undisturbed_startBody : Undisturbed c n startBody := by
  refine .get_bind (fun _ _ => rfl) fun s _ _ => .ite (fun _ => undisturbed_pure _) fun _ =>
    .ite (fun _ => ?_) fun _ => undisturbed_pure _
  refine (undisturbed_xack hw (p := []) _ (Nat.zero_le 8)).bind fun r => ?_
  cases r with
  | ok => exact undisturbed_lockRunning.bind fun _ => undisturbed_pure _
  | tfail | reject => exact undisturbed_pure _

theorem undisturbed_stopBody : Undisturbed c n stopBody :=
  .get_bind (fun _ _ => rfl) fun s _ _ => .ite (fun _ => undisturbed_pure _) fun _ =>
    (undisturbed_xack hw (p := []) _ (Nat.zero_le 8)).bind fun r => by
      cases r with
      | ok => exact (undisturbed_setPhase _).bind fun _ => undisturbed_pure _
      | tfail | reject => exact undisturbed_pure _

theorem undisturbed_resetBody : Undisturbed c n resetBody := by
  have send : Undisturbed c n sendReset := .get_bind (fun _ _ => rfl) fun s _ _ => .ite
    (fun _ => undisturbed_send_bind hw (p := []) _ (Nat.zero_le 8) fun _ =>
      undisturbed_tClose.bind fun _ => undisturbed_pure _)
    fun _ => undisturbed_pure _
  exact send.bind fun _ => (undisturbed_setPhase _).bind fun _ => undisturbed_pure _

theorem undisturbed_renegBody : Undisturbed c n renegBody :=
  .get_bind (fun _ _ => rfl) fun _ _ _ => .ite (fun _ => undisturbed_pure _) fun _ => undisturbed_renegSub hw

theorem undisturbed_cfgwinBody : Undisturbed c n cfgwinBody :=
  .get_bind (fun _ _ => rfl) fun _ _ _ => .ite (fun _ => undisturbed_pure _) fun _ => undisturbed_cfgwinSub hw

theorem undisturbed_openSession (hn : n.toNat ≤ 8) : Undisturbed c n openSession :=
  undisturbed_orElseDone (undisturbed_detect hw) <| (undisturbed_setPhase _).bind fun _ =>
    undisturbed_orElseDone (undisturbed_auth hw hn) <| (undisturbed_setPhase _).bind fun _ =>
      undisturbed_orElseDone (undisturbed_renegSub hw) (undisturbed_cfgwinSub hw)

/-- The password fits its frame: `OPEN` goes on only with the length the block requires (R192). -/
theorem undisturbed_openBody : Undisturbed c n openBody := by
  refine .get_bind (fun _ _ => rfl) fun s hc hs => .ite (fun _ => undisturbed_pure _) fun _ =>
    .ite (fun _ => undisturbed_pure _) fun hlen => ?_
  have hn : n.toNat ≤ 8 := by
    obtain ⟨-, -, -, -, -, hreq⟩ := Cfg.wf_facts hw
    rw [not_not, hc, hs] at hlen
    omega
  exact (undisturbed_tOpen _).bind fun _ => .ite
    (fun _ => undisturbed_holdTransport.bind fun _ => (undisturbed_setPhase _).bind fun _ =>
      undisturbed_openSession hw hn)
    fun _ => undisturbed_pure _

end

/-! ### Every sequencer command -/

/-- Every sequencer command is a body that cannot be disturbed. -/
theorem exec_undisturbed {i : Instr} (hi : i.isSequencer = true) {c : Cfg} (hw : c.wf = true) (n : BitVec 4) :
    ∃ body : Micro ErrCode, (∀ s, exec i s = runCommand body s) ∧ Undisturbed c n body := by
  cases i with
  | nop => exact ⟨pure .noError, fun _ => rfl, undisturbed_pure _⟩
  | open_ => exact ⟨_, fun _ => rfl, undisturbed_openBody hw⟩
  | close => exact ⟨_, fun _ => rfl, undisturbed_closeBody⟩
  | start => exact ⟨_, fun _ => rfl, undisturbed_startBody hw⟩
  | stop => exact ⟨_, fun _ => rfl, undisturbed_stopBody hw⟩
  | step => exact ⟨_, fun _ => rfl, undisturbed_stepBody hw⟩
  | reset => exact ⟨_, fun _ => rfl, undisturbed_resetBody hw⟩
  | reneg => exact ⟨_, fun _ => rfl, undisturbed_renegBody hw⟩
  | cfgwin => exact ⟨_, fun _ => rfl, undisturbed_cfgwinBody hw⟩
  | cset a => cases hi
  | cget => cases hi
  | ccrc b => cases hi

/-- Settles O39: the two states are twins, the body leaves twins, and `done` writes the same code into both. -/
theorem hostCannotDisturb : Obligations.HostCannotDisturb := by
  intro i s s' hi hw hs'
  obtain ⟨body, hexec, hbody⟩ := exec_undisturbed hi hw s.pwLen
  obtain ⟨e, t, t', hrun, hrun', htwins⟩ := hbody s s' ⟨rfl, rfl, hs'⟩
  refine ⟨t.done e, t'.done e, ?_, ?_, htwins.alike.done e⟩
  · rw [hexec, runCommand_ok hrun]
  · rw [hexec, runCommand_ok hrun']

end Sys2Proof.Machine
end
